-- ==== Sys2Proof/Word.lean ====
section
/-! DEFINITION. The two word types of the hardware (00_scope.md rules R12 to R14): an unsigned byte and
an unsigned 32-bit word. Nothing in this hardware is signed (R14). -/

namespace Sys2Proof

/-- A `u8` (R14). -/
abbrev Byte := BitVec 8

/-- A `u32` (R14): every register, address and length of the hardware (R12). -/
abbrev Word := BitVec 32

end Sys2Proof
end

