-- ==== Sys2Proof/Config.lean ====
section
/-! DEFINITION. What one realisation of the core fixes (00_scope.md rule R10, 10_state.md rule R23) and the
values the spec leaves unspecified. The two size parameters are only RESET values here: the machine
reads them from its CAPS and BUF_SIZE registers, so a statement over all states is a statement over all
parameter values. -/

namespace Sys2Proof.Config

/-- `MAX_BLOCK_SIZE` of the machine that `State.reset` describes. DESIGN CHOICE (log entry 1): the spec
leaves it open in `1 .. 2^30 - 1` (R10); 2^25 is the value 95_test_vectors.md assumes. -/
def maxBlockSize : BitVec 30 := 0x2000000

/-- `BUF_SIZE` of the machine that `State.reset` describes. DESIGN CHOICE (log entry 1): the spec leaves it
open in `64 .. 2^32 - 1` (R10); 0x1000 is the value 95_test_vectors.md assumes. -/
def bufSize : Word := 0x1000

/-- The constant of the `ID` register (10_state.md R23). -/
def idValue : Word := 0x01435342

/-- `DESC_SIZE` (R11): the bytes of one descriptor. -/
def descSize : Nat := 32

/-- Free value (log entry 3): the byte that buffer address `a` holds after power-on, before anything has
written it (20_memory.md R80). -/
opaque powerOnByte : Nat → Byte

/-- Free value (log entry 4): the `k`-th byte the machine draws where the spec leaves a byte unspecified
(20_memory.md R69, 70_reset_and_hazards.md R341 and R346). -/
opaque freeByte : Nat → Byte

end Sys2Proof.Config
end

