-- ==== Sys2Proof/Syntax.lean ====
section
/-! DEFINITION. The commands (30_encoding.md rules R90 to R95) as terms: one constructor of `Instr` for each
row of spec/opcode_table.json, carrying exactly the descriptor words that rule R93 says the command uses. -/

namespace Sys2Proof

/-- An address word and a length (or capacity) word of a descriptor. -/
structure Span where
  addr : Word
  len  : Word
deriving DecidableEq, Repr

/-- The descriptor as latched at fetch (R92, 10_state.md R34): the fields of word 0 and words 1 to 7. -/
structure Desc where
  opcode  : Byte
  flags   : Byte
  rsvd    : BitVec 16
  srcAddr : Word
  srcLen  : Word
  dstAddr : Word
  dstCap  : Word
  auxAddr : Word
  param0  : Word
  param1  : Word
deriving DecidableEq, Repr

/-- The 18 commands of the opcode map (R95) with the operands of rule R93 and the flag bits of rule R94. -/
inductive Instr where
  /-- NOP (R135). -/
  | nop
  /-- HALT (R136). -/
  | halt
  /-- JUMP (R137): the target descriptor address, PARAM0. -/
  | jump (target : Word)
  /-- SORT (R152): block in, suffix-order array out. -/
  | sort (src dst : Span)
  /-- SA_CHECK (R153): block and suffix-order array in. -/
  | saCheck (src : Span) (aux : Word)
  /-- BWT_FWD (R172): flag INTERNAL_SORT, block in, transform output out, suffix-order array in. -/
  | bwtFwd (internalSort : Bool) (src dst : Span) (aux : Word)
  /-- BWT_INV (R173): transform output in, block out, primary index PARAM0. -/
  | bwtInv (src dst : Span) (primary : Word)
  /-- MTF_ENC (R193). -/
  | mtfEnc (src dst : Span)
  /-- MTF_DEC (R194). -/
  | mtfDec (src dst : Span)
  /-- RLE_ENC (R197). -/
  | rleEnc (src dst : Span)
  /-- RLE_DEC (R198). -/
  | rleDec (src dst : Span)
  /-- FLT_ENC (R224). -/
  | fltEnc (src dst : Span)
  /-- FLT_DEC (R225): original length PARAM0. -/
  | fltDec (src dst : Span) (n : Word)
  /-- RC_ENC (R250). -/
  | rcEnc (src dst : Span)
  /-- RC_DEC (R251): rank count PARAM0. -/
  | rcDec (src dst : Span) (m : Word)
  /-- CRC32 (R271). -/
  | crc32 (src : Span)
  /-- COMPRESS (R273): flag TRY_FILTER. -/
  | compress (tryFilter : Bool) (src dst : Span)
  /-- DECOMPRESS (R275). -/
  | decompress (src dst : Span)
deriving DecidableEq, Repr

end Sys2Proof
end

