-- ==== Sys2Proof/WellFormed.lean ====
section
/-! DEFINITION. Which descriptors are legal (30_encoding.md rules R94 to R96), read straight off the mask and
match columns of rule R95. An `Instr` needs no check of its own: its operands are typed as the u32 words
and the flag bits the encoding admits, so every term of `Instr` has a legal descriptor
(`Sys2Proof.Laws.LegalEncoding`). What can be ill formed is the raw descriptor. -/

namespace Sys2Proof

/-- Word 0 of a descriptor (R91): RSVD, FLAGS, OPCODE from the top. -/
def Desc.word0 (d : Desc) : Word := d.rsvd ++ d.flags ++ d.opcode

/-- One row of the opcode map (R95): word 0 belongs to the row when `w0 & mask = value`. -/
structure OpRow where
  mnemonic : String
  mask     : Word
  value    : Word
deriving DecidableEq, Repr

/-- The rows of the opcode map without a flag bit of their own (R95). -/
def opcodeMapPlain : List OpRow :=
  [ ⟨"NOP",      0xFFFFFFFF, 0x00⟩, ⟨"HALT",     0xFFFFFFFF, 0x01⟩, ⟨"JUMP",       0xFFFFFFFF, 0x02⟩,
    ⟨"SORT",     0xFFFFFFFF, 0x10⟩, ⟨"SA_CHECK", 0xFFFFFFFF, 0x11⟩, ⟨"BWT_INV",    0xFFFFFFFF, 0x19⟩,
    ⟨"MTF_ENC",  0xFFFFFFFF, 0x20⟩, ⟨"MTF_DEC",  0xFFFFFFFF, 0x21⟩, ⟨"RLE_ENC",    0xFFFFFFFF, 0x22⟩,
    ⟨"RLE_DEC",  0xFFFFFFFF, 0x23⟩, ⟨"FLT_ENC",  0xFFFFFFFF, 0x30⟩, ⟨"FLT_DEC",    0xFFFFFFFF, 0x31⟩,
    ⟨"RC_ENC",   0xFFFFFFFF, 0x38⟩, ⟨"RC_DEC",   0xFFFFFFFF, 0x39⟩, ⟨"CRC32",      0xFFFFFFFF, 0x40⟩,
    ⟨"DECOMPRESS", 0xFFFFFFFF, 0x42⟩ ]

/-- The rows whose bit 8 is free (R95): INTERNAL_SORT of BWT_FWD and TRY_FILTER of COMPRESS. -/
def opcodeMapFlagged : List OpRow :=
  [ ⟨"BWT_FWD", 0xFFFFFEFF, 0x18⟩, ⟨"COMPRESS", 0xFFFFFEFF, 0x41⟩ ]

/-- The opcode map (R95). -/
def opcodeMap : List OpRow := opcodeMapPlain ++ opcodeMapFlagged

/-- A row claims a word 0 (R95). -/
def OpRow.accepts (r : OpRow) (w0 : Word) : Bool := w0 &&& r.mask == r.value

/-- A descriptor is legal when some row of the opcode map accepts its word 0; otherwise it is illegal (R96). -/
def Desc.wellFormed (d : Desc) : Bool := opcodeMap.any fun r => r.accepts d.word0

end Sys2Proof
end

