-- ==== Sys2Proof/Decode.lean ====
section
/-! DEFINITION. Descriptor bytes to commands and back (30_encoding.md rules R62 and R90 to R97). -/

namespace Sys2Proof

/-- Bytes `b0 b1 b2 b3` in address order as the little-endian `u32` (20_memory.md R62, 00_scope.md R16). -/
def ofLe32 (b0 b1 b2 b3 : Byte) : Word := b3 ++ b2 ++ b1 ++ b0

/-- The four little-endian bytes of a `u32`, lowest address first (R62). -/
def le32 (w : Word) : List Byte :=
  [w.extractLsb' 0 8, w.extractLsb' 8 8, w.extractLsb' 16 8, w.extractLsb' 24 8]

/-- The `u32` at offset `o` of a byte string (R62); bytes past its end count as 0, which no caller reads. -/
def le32At (s : List Byte) (o : Nat) : Word :=
  ofLe32 (s.getD o 0) (s.getD (o + 1) 0) (s.getD (o + 2) 0) (s.getD (o + 3) 0)

/-- The latches as loaded from the 32 bytes of a descriptor (R91, R92). -/
def Desc.ofBytes (s : List Byte) : Desc where
  opcode  := s.getD 0 0
  flags   := s.getD 1 0
  rsvd    := s.getD 3 0 ++ s.getD 2 0
  srcAddr := le32At s 4
  srcLen  := le32At s 8
  dstAddr := le32At s 12
  dstCap  := le32At s 16
  auxAddr := le32At s 20
  param0  := le32At s 24
  param1  := le32At s 28

/-- The 32 bytes of a descriptor in address order (R90, R91). -/
def Desc.bytes (d : Desc) : List Byte :=
  le32 d.word0 ++ le32 d.srcAddr ++ le32 d.srcLen ++ le32 d.dstAddr ++ le32 d.dstCap ++
    le32 d.auxAddr ++ le32 d.param0 ++ le32 d.param1

/-- Why a byte string is no command (R90, R96). -/
inductive DecodeError where
  /-- Fewer than 32 bytes: not a descriptor (R90). -/
  | tooShort
  /-- RSVD is not 0 (R96). -/
  | reservedNonzero
  /-- OPCODE is not in the map (R96). -/
  | unassignedOpcode
  /-- A FLAGS bit the opcode does not define is 1 (R94, R96). -/
  | undefinedFlag
deriving DecidableEq, Repr

/-- The source words of a descriptor. -/
def Desc.src (d : Desc) : Span := ⟨d.srcAddr, d.srcLen⟩

/-- The destination words of a descriptor. -/
def Desc.dst (d : Desc) : Span := ⟨d.dstAddr, d.dstCap⟩

/-- Bit 0 of FLAGS: INTERNAL_SORT of BWT_FWD, TRY_FILTER of COMPRESS (R94). -/
def Desc.flag0 (d : Desc) : Bool := d.flags.getLsbD 0

/-- The command of an opcode (R95) with the words rule R93 gives it, and the FLAGS bits it defines (R94). -/
def Desc.command (d : Desc) : Option (Instr × Byte) :=
  if d.opcode = 0x00 then some (.nop, 0)
  else if d.opcode = 0x01 then some (.halt, 0)
  else if d.opcode = 0x02 then some (.jump d.param0, 0)
  else if d.opcode = 0x10 then some (.sort d.src d.dst, 0)
  else if d.opcode = 0x11 then some (.saCheck d.src d.auxAddr, 0)
  else if d.opcode = 0x18 then some (.bwtFwd d.flag0 d.src d.dst d.auxAddr, 1)
  else if d.opcode = 0x19 then some (.bwtInv d.src d.dst d.param0, 0)
  else if d.opcode = 0x20 then some (.mtfEnc d.src d.dst, 0)
  else if d.opcode = 0x21 then some (.mtfDec d.src d.dst, 0)
  else if d.opcode = 0x22 then some (.rleEnc d.src d.dst, 0)
  else if d.opcode = 0x23 then some (.rleDec d.src d.dst, 0)
  else if d.opcode = 0x30 then some (.fltEnc d.src d.dst, 0)
  else if d.opcode = 0x31 then some (.fltDec d.src d.dst d.param0, 0)
  else if d.opcode = 0x38 then some (.rcEnc d.src d.dst, 0)
  else if d.opcode = 0x39 then some (.rcDec d.src d.dst d.param0, 0)
  else if d.opcode = 0x40 then some (.crc32 d.src, 0)
  else if d.opcode = 0x41 then some (.compress d.flag0 d.src d.dst, 1)
  else if d.opcode = 0x42 then some (.decompress d.src d.dst, 0)
  else none

/-- The command a latched descriptor stands for, or why it is illegal (R96). -/
def decodeDesc (d : Desc) : Except DecodeError Instr :=
  if d.rsvd ≠ 0 then .error .reservedNonzero
  else match d.command with
    | none => .error .unassignedOpcode
    | some (i, defined) => if d.flags &&& ~~~defined = 0 then .ok i else .error .undefinedFlag

/-- Decode the descriptor at the head of a byte string (R90). -/
def decode (s : List Byte) : Except DecodeError Instr :=
  if s.length < Config.descSize then .error .tooShort else decodeDesc (Desc.ofBytes s)

/-- The FLAGS byte with bit 0 set to `b` (R94). -/
def flagByte (b : Bool) : Byte := if b then 1 else 0

/-- A descriptor with every word 0 but its opcode (30_encoding.md R98: every omitted word is 0). -/
def Desc.blank (opcode : Byte) : Desc where
  opcode  := opcode
  flags   := 0
  rsvd    := 0
  srcAddr := 0
  srcLen  := 0
  dstAddr := 0
  dstCap  := 0
  auxAddr := 0
  param0  := 0
  param1  := 0

/-- Set the source words. -/
def Desc.withSrc (d : Desc) (s : Span) : Desc := { d with srcAddr := s.addr, srcLen := s.len }

/-- Set the destination words. -/
def Desc.withDst (d : Desc) (s : Span) : Desc := { d with dstAddr := s.addr, dstCap := s.len }

/-- The descriptor of a command, unused words 0 (R93, R95, R98). -/
def encodeDesc : Instr → Desc
  | .nop => .blank 0x00
  | .halt => .blank 0x01
  | .jump t => { Desc.blank 0x02 with param0 := t }
  | .sort src dst => ((Desc.blank 0x10).withSrc src).withDst dst
  | .saCheck src aux => { (Desc.blank 0x11).withSrc src with auxAddr := aux }
  | .bwtFwd b src dst aux =>
    { ((Desc.blank 0x18).withSrc src).withDst dst with flags := flagByte b, auxAddr := aux }
  | .bwtInv src dst p => { ((Desc.blank 0x19).withSrc src).withDst dst with param0 := p }
  | .mtfEnc src dst => ((Desc.blank 0x20).withSrc src).withDst dst
  | .mtfDec src dst => ((Desc.blank 0x21).withSrc src).withDst dst
  | .rleEnc src dst => ((Desc.blank 0x22).withSrc src).withDst dst
  | .rleDec src dst => ((Desc.blank 0x23).withSrc src).withDst dst
  | .fltEnc src dst => ((Desc.blank 0x30).withSrc src).withDst dst
  | .fltDec src dst n => { ((Desc.blank 0x31).withSrc src).withDst dst with param0 := n }
  | .rcEnc src dst => ((Desc.blank 0x38).withSrc src).withDst dst
  | .rcDec src dst m => { ((Desc.blank 0x39).withSrc src).withDst dst with param0 := m }
  | .crc32 src => (Desc.blank 0x40).withSrc src
  | .compress b src dst =>
    { ((Desc.blank 0x41).withSrc src).withDst dst with flags := flagByte b }
  | .decompress src dst => ((Desc.blank 0x42).withSrc src).withDst dst

/-- The 32 bytes of a command's descriptor. -/
def encode (i : Instr) : List Byte := (encodeDesc i).bytes

/-- The OPCODE byte of a command (R95), as STATUS.ERR_OP reports it (40_sequencer.md R132, R134). -/
def Instr.opcode (i : Instr) : Byte := (encodeDesc i).opcode

/-- The first `n` bytes of a number, least significant first. -/
def bytesOfNat : Nat → Nat → List Byte
  | 0, _ => []
  | n + 1, w => BitVec.ofNat 8 w :: bytesOfNat n (w / 256)

/-- The descriptor bytes of an opcode-table word: bit 0 is the least significant bit of word 0, later words
count on from it, and every bit from `nbits` on is 0. Words are little-endian (R62, R90), so byte `k`
of the descriptor is bits `8k+7 .. 8k`. -/
def tableBytes (nbits w : Nat) : List Byte := bytesOfNat Config.descSize (w % 2 ^ nbits)

/-- What the decoder reads from an opcode-table word. -/
def decodeTableWord (nbits w : Nat) : Option Instr :=
  match decode (tableBytes nbits w) with
  | .ok i => some i
  | .error _ => none

end Sys2Proof
end

