-- ==== Sys2Proof/Machine/State.lean ====
section
/-! DEFINITION. The state of the machine (10_state.md), as plain data, and the reasons a step can stop. -/

namespace Sys2Proof.Machine

/-- A region of buffer memory: start address and length (20_memory.md R64), on unbounded naturals (R13). -/
structure Region where
  addr : Nat
  len  : Nat
deriving DecidableEq, Repr

/-- The buffer memory (10_state.md R37, 20_memory.md R60): one entry for each byte written since power-on, in
rising order of address. An address without an entry has no written value; what the engine then reads is
the free byte of `Memory.byte` (R80). -/
abbrev Memory := List Host.Cell

/-- What the outside world does in one turn (10_state.md R21). -/
inductive HostAction where
  /-- The host does nothing: the engine moves. -/
  | engineTurn
  /-- Write `value` to the register window at a byte offset, `width` bytes wide (10_state.md R22, R33). -/
  | writeReg (offset width : Nat) (value : Word)
  /-- Read the register window at a byte offset, `width` bytes wide; the value goes to `hostData`. -/
  | readReg (offset width : Nat)
  /-- Write bytes to buffer memory (20_memory.md R60, R61). -/
  | writeBuf (addr : Nat) (bytes : List Byte)
  /-- Read one byte of buffer memory into `hostData` (R60, R61). -/
  | readBuf (addr : Nat)
  /-- The host's interrupt controller looks at the IRQ output; `hostData` is its level (R36, R307). -/
  | sampleIrq
  /-- The platform's reset input (70_reset_and_hazards.md R340). -/
  | hardReset
deriving DecidableEq, Repr

/-- The state of the core: every register and flag of 10_state.md, the descriptor latches, the buffer memory,
and the model's own bookkeeping of the host (from `draws` on). -/
structure State where
  /-- STATUS.BUSY (R25). -/
  busy      : Bool
  /-- STATUS.DONE (R25). -/
  done      : Bool
  /-- STATUS.ERR (R25). -/
  err       : Bool
  /-- STATUS.ERR_CODE (R25, R300). -/
  errCode   : Byte
  /-- STATUS.ERR_OP (R25, R303). -/
  errOp     : Byte
  /-- CTRL.IRQ_EN (R24). -/
  irqEn     : Bool
  /-- CMD_PTR, the engine's program counter (R26). -/
  cmdPtr    : Word
  /-- RESULT0 (R27). -/
  result0   : Word
  /-- RESULT1 (R27). -/
  result1   : Word
  /-- ERR_ADDR (R28). -/
  errAddr   : Word
  /-- CMD_COUNT (R31). -/
  cmdCount  : Word
  /-- CAPS: the parameter MAX_BLOCK_SIZE, bits 29:0 (R29). -/
  caps      : BitVec 30
  /-- BUF_SIZE: the size of buffer memory in bytes (R30). -/
  bufSize   : Word
  /-- The descriptor latches (R34, R92). -/
  d         : Desc
  /-- The buffer memory (R37). -/
  mem       : Memory
  /-- Model: how many free bytes have been drawn (log entry 4). -/
  draws     : Nat
  /-- Model: what the host will do, first action first (log entry 5). -/
  host      : List HostAction
  /-- Model: what the host's last read returned (log entry 5). -/
  hostData  : Word
  /-- Model: the host has seen the end of the last run (R75, R347; log entry 6). -/
  synced    : Bool
  /-- Model: regions the run has read, descriptors included (R345; log entry 6). -/
  runReads  : List Region
  /-- Model: regions the run has written (R345; log entry 6). -/
  runWrites : List Region
  /-- Model: destination regions of the commands of the run, whole (R345, R347; log entry 6). -/
  runDests  : List Region
  /-- Model: buffer addresses the host wrote during the run (R345; log entry 6). -/
  hostWrote : List Nat
  /-- Model: the host is known to have written a byte that the run reads or writes (R345; log entry 6). -/
  affected  : Bool
  /-- Model: destination regions of earlier runs whose end the host has not seen (R75, R76; log entry 6). -/
  unseen    : List Region
deriving DecidableEq, Repr

/-- Why the model stops with a fault. No command raises one: a command's errors are next states (R134). -/
inductive Fault where
  /-- Raised by host accesses to buffer memory: the address does not exist (20_memory.md R60). Safe. -/
  | hostOutsideBuffer
deriving DecidableEq, Repr

/-- Why the model refuses a step. No command raises one but an arm of `exec` without a meaning. -/
inductive Refusal where
  /-- Raised by an arm of `exec` whose command has no meaning yet. Safe. -/
  | notModelled (mnemonic : String)
  /-- Raised by host register accesses that are not aligned 32-bit accesses (10_state.md R33). Safe. -/
  | registerAccess
  /-- Raised by host register accesses at an offset past the 256-byte window (10_state.md R22). Safe. -/
  | outsideWindow
deriving DecidableEq, Repr

/-- The machine right after power-on (10_state.md R41, 70_reset_and_hazards.md R340). The latches have no reset
value (DESIGN CHOICE 0, log entry 2); the parameters are those of log entry 1; memory lists nothing (R80);
the model's own fields start as log entries 4 to 6 say. -/
def State.reset : State where
  busy      := false
  done      := false
  err       := false
  errCode   := 0
  errOp     := 0
  irqEn     := false
  cmdPtr    := 0
  result0   := 0
  result1   := 0
  errAddr   := 0
  cmdCount  := 0
  caps      := Config.maxBlockSize
  bufSize   := Config.bufSize
  d         := ⟨0, 0, 0, 0, 0, 0, 0, 0, 0, 0⟩
  mem       := []
  draws     := 0
  host      := []
  hostData  := 0
  synced    := true
  runReads  := []
  runWrites := []
  runDests  := []
  hostWrote := []
  affected  := false
  unseen    := []

end Sys2Proof.Machine
end

