-- ==== Sys2Proof/Machine/Ops.lean ====
section
/-! DEFINITION. The shared operations: buffer memory (20_memory.md), errors (60_exceptions.md), the checks every
data command makes (40_sequencer.md R139), completion (R133), the trap path (R134), START (R131) and the
register half of both resets (70_reset_and_hazards.md R340). -/

namespace Sys2Proof.Machine

/-! ### Buffer memory -/

/-- Canonical form: addresses strictly rise. An address without an entry reads as no written value, which no
entry equals; so memories with the same written bytes are equal lists (log entry 3). -/
abbrev Memory.wf (m : Memory) : Prop := m.Pairwise fun x y => x.1 < y.1

/-- The value written at an address since power-on, if any. -/
def Memory.written : Memory → Nat → Option Byte
  | [], _ => none
  | (x, b) :: r, a => if x = a then some b else Memory.written r a

/-- The byte at an address: the written value, or the power-on draw of that address (R80). -/
def Memory.byte (m : Memory) (a : Nat) : Byte :=
  match m.written a with
  | some b => b
  | none => Config.powerOnByte a

/-- `MemRead(a, k)` (00_scope.md R16). -/
def Memory.read (m : Memory) (a : Nat) : Nat → List Byte
  | 0 => []
  | k + 1 => m.byte a :: m.read (a + 1) k

/-- `MemRead32(a)` (R16, R62). -/
def Memory.read32 (m : Memory) (a : Nat) : Word :=
  ofLe32 (m.byte a) (m.byte (a + 1)) (m.byte (a + 2)) (m.byte (a + 3))

/-- Consecutive cells from an address on. -/
def cellsAt : Nat → List Byte → Memory
  | _, [] => []
  | a, b :: bs => (a, b) :: cellsAt (a + 1) bs

/-- `MemWrite(a, len(s), s)` (R16): the entries below, the new bytes, the entries above. -/
def Memory.write (m : Memory) (a : Nat) (s : List Byte) : Memory :=
  m.filter (fun c => c.1 < a) ++ cellsAt a s ++ m.filter (fun c => a + s.length ≤ c.1)

/-! ### Errors -/

/-- The errors of R300. -/
inductive Err where
  | invalidInput
  | unsupportedFormat
  | corruptStream
  | capacityExceeded
  | illegalCommand
  | addressError
deriving DecidableEq, Repr

/-- `code(E)`: the byte STATUS.ERR_CODE reports (R300). -/
def Err.code : Err → Byte
  | .invalidInput => 0x01
  | .unsupportedFormat => 0x02
  | .corruptStream => 0x03
  | .capacityExceeded => 0x04
  | .illegalCommand => 0x10
  | .addressError => 0x11

/-- STATUS.ERR_OP when the fetch itself failed (R303). -/
def fetchErrOp : Byte := 0xFF

/-! ### The checks of R139 -/

/-- `need_len(v, lo, hi)` (R139). -/
def needLen (v lo hi : Nat) : Except Err Unit :=
  if v < lo ∨ v > hi then .error .invalidInput else .ok ()

/-- `need_region(a, k, al)` in a buffer of `size` bytes (R139, 20_memory.md R64 to R66). -/
def needRegion (size : Nat) (r : Region) (al : Nat) : Except Err Unit :=
  if r.addr % al ≠ 0 ∨ r.addr + r.len > size then .error .addressError else .ok ()

/-- Two regions share a byte (20_memory.md R67). -/
def Region.overlaps (r q : Region) : Bool :=
  0 < r.len && 0 < q.len && r.addr < q.addr + q.len && q.addr < r.addr + r.len

/-- `no_overlap(a, k, b, j)` (R139, R67). -/
def noOverlap (r q : Region) : Except Err Unit :=
  if r.overlaps q then .error .invalidInput else .ok ()

/-- `need_cap(k)` against the capacity `d.DST_CAP` (R139). -/
def needCap (cap k : Nat) : Except Err Unit :=
  if k > cap then .error .capacityExceeded else .ok ()

/-- `emit(b)` (00_scope.md R17) on the bytes written so far, whose number is the output counter `oc`. A `cap` of
`none` is the internal scratch (10_state.md R38), which never fills (70_reset_and_hazards.md R352). -/
def emit (cap : Option Nat) (out : List Byte) (b : Byte) : Except Err (List Byte) :=
  if cap = some out.length then .error .capacityExceeded else .ok (out ++ [b])

/-- `emit` for each byte in order. -/
def emitAll (cap : Option Nat) (out : List Byte) : List Byte → Except Err (List Byte)
  | [] => .ok out
  | b :: bs =>
    match emit cap out b with
    | .ok out' => emitAll cap out' bs
    | .error e => .error e

/-- `repeat k times: emit(0x00)` (43_rank_run.md R198). -/
def emitZeros (cap : Option Nat) (out : List Byte) : Nat → Except Err (List Byte)
  | 0 => .ok out
  | k + 1 =>
    match emit cap out 0 with
    | .ok out' => emitZeros cap out' k
    | .error e => .error e

/-! ### Outcome of a data command -/

/-- What a data command that succeeds produces: the bytes written at `d.DST_ADDR`, whose number is RESULT0, and
the scalar result RESULT1 (40_sequencer.md R138). -/
structure Done where
  out : List Byte
  r1  : Word
deriving DecidableEq, Repr

/-- The bytes of a region that exist in a buffer of `size` bytes. -/
def Region.clipped (r : Region) (size : Nat) : Nat := min (r.addr + r.len) size - r.addr

/-- `k` free bytes from draw number `n` on (log entry 4). -/
def freeBytes (n : Nat) : Nat → List Byte
  | 0 => []
  | k + 1 => Config.freeByte n :: freeBytes (n + 1) k

/-- Leave every byte of a region unspecified: a fresh free byte each (20_memory.md R69). Only bytes that exist are
drawn: an invalid destination region may reach past the buffer (R64). -/
def State.scramble (s : State) (r : Region) : State :=
  let k := r.clipped s.bufSize.toNat
  { s with mem := s.mem.write r.addr (freeBytes s.draws k), draws := s.draws + k }

/-- `scramble` of several regions. -/
def State.scrambleAll (s : State) : List Region → State
  | [] => s
  | r :: rs => (s.scramble r).scrambleAll rs

/-- A free word: four free bytes from draw number `n` on (log entry 4). -/
def freeWord (n : Nat) : Word :=
  ofLe32 (Config.freeByte n) (Config.freeByte (n + 1)) (Config.freeByte (n + 2)) (Config.freeByte (n + 3))

/-- A free error of R300 (log entry 4). -/
def freeErr (n : Nat) : Err :=
  match (Config.freeByte n).toNat % 6 with
  | 0 => .invalidInput
  | 1 => .unsupportedFormat
  | 2 => .corruptStream
  | 3 => .capacityExceeded
  | 4 => .illegalCommand
  | _ => .addressError

/-- The trap path `fail(E, op)` (40_sequencer.md R134, 60_exceptions.md R303): ERR_CODE, ERR_OP and ERR_ADDR are
written, BUSY falls, ERR rises; pc, CMD_COUNT and the results keep their values. -/
def State.fail (s : State) (e : Err) (op : Byte) : State :=
  { s with errCode := e.code, errOp := op, errAddr := s.cmdPtr, busy := false, err := true }

/-- Completion of a command whose successor stands at `next` (40_sequencer.md R133). -/
def State.completeAt (s : State) (next : Word) : State :=
  { s with cmdCount := s.cmdCount + 1, cmdPtr := next }

/-- Completion that moves to the descriptor after this one, mod 2^32 (R133, R141). -/
def State.advance (s : State) : State := s.completeAt (s.cmdPtr + 32)

/-- Write RESULT0 and RESULT1 (R133, R138). -/
def State.putResults (s : State) (x : Done) : State :=
  { s with result0 := BitVec.ofNat 32 x.out.length, result1 := x.r1 }

/-- `MemWrite` of a command's output at its destination (20_memory.md R68). -/
def State.putBytes (s : State) (a : Nat) (bs : List Byte) : State :=
  { s with mem := s.mem.write a bs }

/-- End of a data command with the destination region `dst` (R68, R69, R133, R134). -/
def conclude (op : Byte) (dst : Region) (r : Except Err Done) (s : State) :
    Host.Outcome State Fault Refusal :=
  match r with
  | .ok x => .next (((s.putBytes dst.addr x.out).putResults x).advance)
  | .error e => .next ((s.scramble dst).fail e op)

/-- End of a data command without a destination: memory is never changed (20_memory.md R69). -/
def concludeNoDst (op : Byte) (r : Except Err Word) (s : State) : Host.Outcome State Fault Refusal :=
  match r with
  | .ok r1 => .next ((s.putResults ⟨[], r1⟩).advance)
  | .error e => .next (s.fail e op)

/-! ### START and reset -/

/-- An accepted START (40_sequencer.md R131); the model's record of the run begins anew, and the
destinations of an earlier run stay unseen until the host looks (20_memory.md R75; log entry 6). -/
def State.startRun (s : State) : State :=
  { s with
    done := false, err := false, errCode := 0, errOp := 0, cmdCount := 0, busy := true
    synced := false, runReads := [], runWrites := [], runDests := [], hostWrote := [], affected := false
    unseen := if s.synced then [] else s.runDests ++ s.unseen }

/-- A write of 1 to CTRL.START: ignored while BUSY = 1 (R131). -/
def State.start (s : State) : State := if s.busy then s else s.startRun

/-- Every register to its reset value (10_state.md R41, R340). CAPS and BUF_SIZE keep the parameters, the latches
have no reset value, and memory is not a register (R342). -/
def State.resetRegisters (s : State) : State :=
  { s with
    busy := false, done := false, err := false, errCode := 0, errOp := 0, irqEn := false
    cmdPtr := 0, result0 := 0, result1 := 0, errAddr := 0, cmdCount := 0 }

end Sys2Proof.Machine
end

