-- ==== Sys2Proof/Machine/Operands.lean ====
section
/-! DEFINITION. Operand forms (30_encoding.md R93, 20_memory.md R63): regions named by descriptor words, byte
sources, suffix-order arrays, and the regions each command touches. -/

namespace Sys2Proof

/-- The region a pair of descriptor words names, on unbounded naturals (00_scope.md R13, R92). -/
def Span.region (p : Span) : Machine.Region := ⟨p.addr.toNat, p.len.toNat⟩

end Sys2Proof

namespace Sys2Proof.Machine

/-- BUF_SIZE as a number (10_state.md R30). -/
def State.size (s : State) : Nat := s.bufSize.toNat

/-- MAX_BLOCK_SIZE as a number (10_state.md R29). -/
def State.maxBlock (s : State) : Nat := s.caps.toNat

/-- `MemRead(d.SRC_ADDR, d.SRC_LEN)`. -/
def State.source (s : State) (p : Span) : List Byte := s.mem.read p.addr.toNat p.len.toNat

/-- The region of a suffix-order array of `n` entries (30_encoding.md R105). -/
def arrayRegion (aux : Word) (n : Nat) : Region := ⟨aux.toNat, 4 * n⟩

/-- The `n` entries of the suffix-order array at an address, in order (R105). -/
def State.array (s : State) (a : Nat) : Nat → List Nat
  | 0 => []
  | n + 1 => (s.mem.read32 a).toNat :: s.array (a + 4) n

/-- The bytes of a suffix-order array (R105): each entry as a little-endian `u32`. -/
def arrayBytes : List Nat → List Byte
  | [] => []
  | x :: xs => le32 (BitVec.ofNat 32 x) ++ arrayBytes xs

/-- The regions a command reads besides its descriptor (R63). -/
def reads : Instr → List Region
  | .nop => []
  | .halt => []
  | .jump _ => []
  | .sort src _ => [src.region]
  | .saCheck src aux => [src.region, arrayRegion aux src.len.toNat]
  | .bwtFwd internal src _ aux =>
    if internal then [src.region] else [src.region, arrayRegion aux src.len.toNat]
  | .bwtInv src _ _ => [src.region]
  | .mtfEnc src _ => [src.region]
  | .mtfDec src _ => [src.region]
  | .rleEnc src _ => [src.region]
  | .rleDec src _ => [src.region]
  | .fltEnc src _ => [src.region]
  | .fltDec src _ _ => [src.region]
  | .rcEnc src _ => [src.region]
  | .rcDec src _ _ => [src.region]
  | .crc32 src => [src.region]
  | .compress _ src _ => [src.region]
  | .decompress src _ => [src.region]

/-- The destination region of a command; empty for a command without one (R69). -/
def destination : Instr → Region
  | .nop => ⟨0, 0⟩
  | .halt => ⟨0, 0⟩
  | .jump _ => ⟨0, 0⟩
  | .sort _ dst => dst.region
  | .saCheck _ _ => ⟨0, 0⟩
  | .bwtFwd _ _ dst _ => dst.region
  | .bwtInv _ dst _ => dst.region
  | .mtfEnc _ dst => dst.region
  | .mtfDec _ dst => dst.region
  | .rleEnc _ dst => dst.region
  | .rleDec _ dst => dst.region
  | .fltEnc _ dst => dst.region
  | .fltDec _ dst _ => dst.region
  | .rcEnc _ dst => dst.region
  | .rcDec _ dst _ => dst.region
  | .crc32 _ => ⟨0, 0⟩
  | .compress _ _ dst => dst.region
  | .decompress _ dst => dst.region

/-- An address lies in a region (R64). -/
def Region.has (r : Region) (a : Nat) : Bool := r.addr ≤ a && a < r.addr + r.len

end Sys2Proof.Machine
end

