-- ==== Sys2Proof/Machine/SuffixSort.lean ====
section
/-! DEFINITION. The Suffix Sorter (41_suffix_sort.md): the rotation order of R150 and the commands SORT (R152)
and SA_CHECK (R153). The sorting method is not architectural (R154); the model inserts by the key of R150. -/

namespace Sys2Proof.Machine

/-- `rot(B, i)` for `i < len(B)` (00_scope.md R15). -/
def rot (b : List Byte) (i : Nat) : List Byte := b.drop i ++ b.take i

/-- `<lex` on byte strings of equal length, bytes as unsigned integers (R15). -/
def lexLt : List Byte → List Byte → Bool
  | x :: xs, y :: ys => x.toNat < y.toNat || (x == y && lexLt xs ys)
  | _, _ => false

/-- Position `i` comes before position `j` in the suffix order: smaller rotation, ties by index (R150). -/
def before (b : List Byte) (i j : Nat) : Bool :=
  lexLt (rot b i) (rot b j) || (rot b i == rot b j && i < j)

/-- Insert a position into a list of positions in suffix order. -/
def insertPosition (b : List Byte) (i : Nat) : List Nat → List Nat
  | [] => [i]
  | j :: js => if before b i j then i :: j :: js else j :: insertPosition b i js

/-- Sort positions into suffix order. -/
def sortPositions (b : List Byte) : List Nat → List Nat
  | [] => []
  | i :: is => insertPosition b i (sortPositions b is)

/-- `0, 1, ..., n-1` from `i` on. -/
def positionsFrom (i : Nat) : Nat → List Nat
  | 0 => []
  | k + 1 => i :: positionsFrom (i + 1) k

/-- `SA(B)`: the positions `0 .. n-1` sorted by `(rot(B, i), i)` (R150). -/
def suffixOrder (b : List Byte) : List Nat := sortPositions b (positionsFrom 0 b.length)

/-- The checks of SORT before it reads or writes memory (R152; 40_sequencer.md R139). -/
def sortChecks (src dst : Span) (s : State) : Except Err Unit := do
  let n := src.len.toNat
  needLen n 1 s.maxBlock
  needRegion s.size src.region 1
  needRegion s.size dst.region 4
  noOverlap dst.region src.region
  needCap dst.len.toNat (4 * n)

/-- What SORT computes, with its checks in the order of R152. -/
def sortResult (src dst : Span) (s : State) : Except Err Done := do
  sortChecks src dst s
  return { out := arrayBytes (suffixOrder (s.source src)), r1 := 0 }

/-- SORT (R152). -/
def execSort (src dst : Span) (s : State) : Host.Outcome State Fault Refusal :=
  conclude 0x10 dst.region (sortResult src dst s) s

/-- The permutation check of R153, in index order: every entry below `n` and none seen before. -/
def isPermutation (n : Nat) (seen : List Nat) : List Nat → Bool
  | [] => true
  | x :: xs => x < n && !seen.contains x && isPermutation n (x :: seen) xs

/-- The order check of R153: each entry before its successor. -/
def inSuffixOrder (b : List Byte) : List Nat → Bool
  | x :: y :: r => before b x y && inSuffixOrder b (y :: r)
  | _ => true

/-- The checks of SA_CHECK before it reads or writes memory (R153; 40_sequencer.md R139). -/
def saCheckChecks (src : Span) (aux : Word) (s : State) : Except Err Unit := do
  let n := src.len.toNat
  needLen n 1 s.maxBlock
  needRegion s.size src.region 1
  needRegion s.size (arrayRegion aux n) 4

/-- What SA_CHECK computes (R153). -/
def saCheckResult (src : Span) (aux : Word) (s : State) : Except Err Word := do
  saCheckChecks src aux s
  let n := src.len.toNat
  let b := s.source src
  let a := s.array aux.toNat n
  if isPermutation n [] a && inSuffixOrder b a then .ok 0 else .error .corruptStream

/-- SA_CHECK (R153). -/
def execSaCheck (src : Span) (aux : Word) (s : State) : Host.Outcome State Fault Refusal :=
  concludeNoDst 0x11 (saCheckResult src aux s) s

end Sys2Proof.Machine
end

