-- ==== Sys2Proof/Machine/Bwt.lean ====
section
/-! DEFINITION. The Block Transform (42_bwt.md): the functions of R170 and R171 and the commands BWT_FWD (R172)
and BWT_INV (R173). -/

namespace Sys2Proof.Machine

/-- `bwt_fwd(B, S)` (R170): each `L[i] = B[(S[i] - 1 + n) mod n]`, and the least `j` with `S[j] = 0`. -/
def bwtForward (b : List Byte) (order : List Nat) : List Byte × Nat :=
  (order.map fun x => b.getD ((x + b.length - 1) % b.length) 0, order.idxOf 0)

/-- How many bytes of `l` are less than `c`: `C[c]` of R171. -/
def bytesBelow (l : List Byte) (c : Byte) : Nat := l.countP fun x => x.toNat < c.toNat

/-- `LF[i] = C[L[i]] + occ[L[i]]`, where `occ` counts the equal bytes before `i` (R171). -/
def lastToFirst (l : List Byte) (i : Nat) : Nat :=
  bytesBelow l (l.getD i 0) + (l.take i).count (l.getD i 0)

/-- The rank table `LF[0..n-1]` (R171). -/
def rankTable (l : List Byte) : List Nat := (positionsFrom 0 l.length).map (lastToFirst l)

/-- The backward walk of R171: `k` bytes still to place in front of those already placed. -/
def walkBack (l : List Byte) (table : List Nat) : Nat → Nat → List Byte → List Byte
  | 0, _, placed => placed
  | k + 1, p, placed => walkBack l table k (table.getD p 0) (l.getD p 0 :: placed)

/-- `bwt_inv(L, primary)` (R171). -/
def bwtInverse (l : List Byte) (primary : Nat) : List Byte :=
  walkBack l (rankTable l) l.length primary []

/-- The suffix order BWT_FWD uses (R172): computed inside, or read from the array at AUX_ADDR and accepted when
every entry is a position and some entry is 0. -/
def bwtOrder (internal : Bool) (aux : Word) (b : List Byte) (s : State) : Except Err (List Nat) :=
  if internal then .ok (suffixOrder b)
  else
    let order := s.array aux.toNat b.length
    if order.any (fun x => b.length ≤ x) then .error .invalidInput
    else if order.contains 0 then .ok order else .error .invalidInput

/-- The checks of BWT_FWD before it reads or writes memory (R172; 40_sequencer.md R139). -/
def bwtFwdChecks (internal : Bool) (src dst : Span) (aux : Word) (s : State) : Except Err Unit := do
  let n := src.len.toNat
  needLen n 1 s.maxBlock
  needRegion s.size src.region 1
  if internal then .ok () else needRegion s.size (arrayRegion aux n) 4
  needRegion s.size dst.region 1
  noOverlap dst.region src.region
  if internal then .ok () else noOverlap dst.region (arrayRegion aux n)
  needCap dst.len.toNat n

/-- What BWT_FWD computes, with its checks in the order of R172. -/
def bwtFwdResult (internal : Bool) (src dst : Span) (aux : Word) (s : State) : Except Err Done := do
  bwtFwdChecks internal src dst aux s
  let b := s.source src
  let order ← bwtOrder internal aux b s
  let r := bwtForward b order
  return { out := r.1, r1 := BitVec.ofNat 32 r.2 }

/-- BWT_FWD (R172). -/
def execBwtFwd (internal : Bool) (src dst : Span) (aux : Word) (s : State) :
    Host.Outcome State Fault Refusal :=
  conclude 0x18 dst.region (bwtFwdResult internal src dst aux s) s

/-- The checks of BWT_INV before it reads or writes memory (R173; 40_sequencer.md R139). -/
def bwtInvChecks (src dst : Span) (primary : Word) (s : State) : Except Err Unit := do
  let n := src.len.toNat
  needLen n 1 s.maxBlock
  needLen primary.toNat 0 (n - 1)
  needRegion s.size src.region 1
  needRegion s.size dst.region 1
  noOverlap dst.region src.region
  needCap dst.len.toNat n

/-- What BWT_INV computes (R173). -/
def bwtInvResult (src dst : Span) (primary : Word) (s : State) : Except Err Done := do
  bwtInvChecks src dst primary s
  return { out := bwtInverse (s.source src) primary.toNat, r1 := 0 }

/-- BWT_INV (R173). -/
def execBwtInv (src dst : Span) (primary : Word) (s : State) : Host.Outcome State Fault Refusal :=
  conclude 0x19 dst.region (bwtInvResult src dst primary s) s

end Sys2Proof.Machine
end

