-- ==== Sys2Proof/Machine/RankRun.lean ====
section
/-! DEFINITION. The Rank/Run stage (43_rank_run.md): move-to-front and zero-run coding, the token stream
(30_encoding.md R110, R111), and the commands MTF_ENC, MTF_DEC, RLE_ENC, RLE_DEC. -/

namespace Sys2Proof.Machine

/-! ### Move-to-front -/

/-- The initial MTF list `0, 1, ..., 255` (R190). -/
def mtfInitial : List Byte := (List.range 256).map fun i => BitVec.ofNat 8 i

/-- Move the value at index `r` to the front: `[c] ++ Q[0..r) ++ Q[r+1..256)` (R190). -/
def moveToFront (q : List Byte) (r : Nat) : List Byte :=
  q.getD r 0 :: (q.take r ++ q.drop (r + 1))

/-- The loop of R191 from the list `q` on. -/
def mtfEncGo (q : List Byte) : List Byte → List Byte
  | [] => []
  | x :: xs => BitVec.ofNat 8 (q.idxOf x) :: mtfEncGo (moveToFront q (q.idxOf x)) xs

/-- `mtf_enc(X)` (R191). -/
def mtfEncode (x : List Byte) : List Byte := mtfEncGo mtfInitial x

/-- The loop of R192 from the list `q` on. -/
def mtfDecGo (q : List Byte) : List Byte → List Byte
  | [] => []
  | r :: rs => q.getD r.toNat 0 :: mtfDecGo (moveToFront q r.toNat) rs

/-- `mtf_dec(R)` (R192). -/
def mtfDecode (r : List Byte) : List Byte := mtfDecGo mtfInitial r

/-- The checks of MTF_ENC and MTF_DEC before they read or write memory (R193 and R194; 40_sequencer.md R139). -/
def mapChecks (src dst : Span) (s : State) : Except Err Unit := do
  let n := src.len.toNat
  needLen n 1 s.maxBlock
  needRegion s.size src.region 1
  needRegion s.size dst.region 1
  noOverlap dst.region src.region
  needCap dst.len.toNat n

/-- What MTF_ENC and MTF_DEC compute from the string function `f` (R193, R194). -/
def mapResult (f : List Byte → List Byte) (src dst : Span) (s : State) : Except Err Done := do
  mapChecks src dst s
  return { out := f (s.source src), r1 := 0 }

/-- MTF_ENC (R193). -/
def execMtfEnc (src dst : Span) (s : State) : Host.Outcome State Fault Refusal :=
  conclude 0x20 dst.region (mapResult mtfEncode src dst s) s

/-- MTF_DEC (R194). -/
def execMtfDec (src dst : Span) (s : State) : Host.Outcome State Fault Refusal :=
  conclude 0x21 dst.region (mapResult mtfDecode src dst s) s

/-! ### Token streams -/

/-- A token (R110): one nonzero rank, or a run of zero ranks. -/
inductive Token where
  | lit (r : Byte)
  | run (k : Nat)
deriving DecidableEq, Repr

/-- The bytes of a token (R110). -/
def Token.bytes : Token → List Byte
  | .lit r => [r]
  | .run k => 0 :: le32 (BitVec.ofNat 32 k)

/-- The ranks a token stands for (R111). -/
def Token.ranks : Token → List Byte
  | .lit r => [r]
  | .run k => List.replicate k 0

/-- The bytes of a token list. -/
def tokenBytes : List Token → List Byte
  | [] => []
  | t :: ts => t.bytes ++ tokenBytes ts

/-- The expansion of a token list (R111). -/
def expand : List Token → List Byte
  | [] => []
  | t :: ts => t.ranks ++ expand ts

/-- `parse_tokens(t, E)` (R111). -/
def parseTokens (e : Err) : List Byte → Except Err (List Token)
  | [] => .ok []
  | b :: t =>
    if b ≠ 0 then
      match parseTokens e t with
      | .ok ts => .ok (.lit b :: ts)
      | .error e' => .error e'
    else
      match t with
      | k0 :: k1 :: k2 :: k3 :: r =>
        if ofLe32 k0 k1 k2 k3 = 0 then .error e
        else
          match parseTokens e r with
          | .ok ts => .ok (.run (ofLe32 k0 k1 k2 k3).toNat :: ts)
          | .error e' => .error e'
      | _ => .error e

/-- The run token of `z` zero ranks just passed, if any. -/
def runToken (z : Nat) : List Token := if z = 0 then [] else [.run z]

/-- The loop of R195, `z` zero ranks being pending: each maximal run becomes one run token. -/
def rleEncGo (z : Nat) : List Byte → List Token
  | [] => runToken z
  | r :: rs => if r = 0 then rleEncGo (z + 1) rs else runToken z ++ .lit r :: rleEncGo 0 rs

/-- The tokens of `rle_enc(R)` (R195). -/
def rleTokens (r : List Byte) : List Token := rleEncGo 0 r

/-- `rle_enc(R)` (R195): the token stream and the number of tokens. -/
def rleEncode (r : List Byte) : List Byte × Nat := (tokenBytes (rleTokens r), (rleTokens r).length)

/-- `rle_dec(t)` (R196). -/
def rleDecode (t : List Byte) : Except Err (List Byte) :=
  match parseTokens .corruptStream t with
  | .ok ts => .ok (expand ts)
  | .error e => .error e

/-- The checks of RLE_ENC before it reads or writes memory (R197; 40_sequencer.md R139). -/
def rleEncChecks (src dst : Span) (s : State) : Except Err Unit := do
  let n := src.len.toNat
  needLen n 1 s.maxBlock
  needRegion s.size src.region 1
  needRegion s.size dst.region 1
  noOverlap dst.region src.region

/-- What RLE_ENC computes (R197). -/
def rleEncResult (src dst : Span) (s : State) : Except Err Done := do
  rleEncChecks src dst s
  let r := rleEncode (s.source src)
  let out ← emitAll (some dst.len.toNat) [] r.1
  return { out := out, r1 := BitVec.ofNat 32 r.2 }

/-- RLE_ENC (R197). -/
def execRleEnc (src dst : Span) (s : State) : Host.Outcome State Fault Refusal :=
  conclude 0x22 dst.region (rleEncResult src dst s) s

/-- The loop of R198: parsing and expansion interleaved with `emit`, so that the first error in stream order is the
one raised. -/
def rleDecGo (cap : Option Nat) (out : List Byte) : List Byte → Except Err (List Byte)
  | [] => .ok out
  | b :: t =>
    if b ≠ 0 then
      match emit cap out b with
      | .ok out' => rleDecGo cap out' t
      | .error e => .error e
    else
      match t with
      | k0 :: k1 :: k2 :: k3 :: r =>
        if ofLe32 k0 k1 k2 k3 = 0 then .error .corruptStream
        else
          match emitZeros cap out (ofLe32 k0 k1 k2 k3).toNat with
          | .ok out' => rleDecGo cap out' r
          | .error e => .error e
      | _ => .error .corruptStream

/-- The upper end of the lengths that only the buffer limits (R139, R140): `2^32 - 1`. -/
def anyLength : Nat := 2 ^ 32 - 1

/-- The checks of RLE_DEC before it reads or writes memory (R198; 40_sequencer.md R139). -/
def rleDecChecks (src dst : Span) (s : State) : Except Err Unit := do
  needLen src.len.toNat 1 anyLength
  needRegion s.size src.region 1
  needRegion s.size dst.region 1
  noOverlap dst.region src.region

/-- What RLE_DEC computes (R198). -/
def rleDecResult (src dst : Span) (s : State) : Except Err Done := do
  rleDecChecks src dst s
  let out ← rleDecGo (some dst.len.toNat) [] (s.source src)
  return { out := out, r1 := 0 }

/-- RLE_DEC (R198). -/
def execRleDec (src dst : Span) (s : State) : Host.Outcome State Fault Refusal :=
  conclude 0x23 dst.region (rleDecResult src dst s) s

end Sys2Proof.Machine
end

