-- ==== Sys2Proof/Machine/Entropy.lean ====
section
/-! DEFINITION. The adaptive range coder (45_entropy.md): cells (R240, R241), encoder (R242 to R245), decoder
(R246, R247), tokens as decisions (R248, R249) and the commands RC_ENC (R250) and RC_DEC (R251). Registers
are naturals with the `mod 2^32` the rules write (00_scope.md R13, R252). -/

namespace Sys2Proof.Machine

/-! ### Probability cells -/

/-- `2^RC_PBITS` (00_scope.md R11). -/
def rcOne : Nat := 4096

/-- `RC_PINIT` (R11). -/
def rcPInit : Nat := 2048

/-- `RC_SHIFT` (R11). -/
def rcShift : Nat := 5

/-- `RC_TOP` (R11). -/
def rcTop : Nat := 2 ^ 24

/-- The selector of a cell (R241). -/
inductive Ctx where
  /-- `FLAG[prev]`: the kind of the previous token. -/
  | flag (prevRun : Bool)
  /-- `LIT[node]`. -/
  | lit (node : Nat)
  /-- `RLEN[node]`. -/
  | rlen (node : Nat)
  /-- `RBIT[j]`. -/
  | rbit (j : Nat)
deriving DecidableEq, Repr

/-- The context model (R241): the cells that have been updated; every other cell holds `RC_PINIT`. -/
abbrev Cells := List (Ctx × Nat)

/-- The probability a cell holds. -/
def Cells.get : Cells → Ctx → Nat
  | [], _ => rcPInit
  | (c', p) :: r, c => if c' = c then p else Cells.get r c

/-- Write a cell. -/
def Cells.set : Cells → Ctx → Nat → Cells
  | [], c, p => [(c, p)]
  | (c', p') :: r, c, p => if c' = c then (c, p) :: r else (c', p') :: Cells.set r c p

/-- `update(P, bit)` (R240). -/
def updateProb (p : Nat) (bit : Bool) : Nat :=
  if bit then p + ((rcOne - p) >>> rcShift) else p - (p >>> rcShift)

/-- The subinterval boundary `(range >> 12) * P` (R243, R247). -/
def boundOf (range p : Nat) : Nat := (range >>> 12) * p

/-! ### Encoder -/

/-- The encoder's registers (R242), its cells, and the bytes output so far with their capacity (R244: `emit` for
RC_ENC, an internal buffer for COMPRESS). -/
structure Enc where
  low   : Nat
  range : Nat
  cache : Nat
  csize : Nat
  cells : Cells
  cap   : Option Nat
  out   : List Byte
deriving DecidableEq, Repr

/-- The encoder at the start of an encode (R241, R242). -/
def Enc.init (cap : Option Nat) : Enc where
  low   := 0
  range := 0xFFFFFFFF
  cache := 0
  csize := 1
  cells := []
  cap   := cap
  out   := []

/-- The bytes one `shift_low` outputs (R244): the cache and the `csize - 1` held-back `0xFF` bytes, each plus the
carry. -/
def heldBytes (cache csize carry : Nat) : List Byte :=
  BitVec.ofNat 8 (cache + carry) :: List.replicate (csize - 1) (BitVec.ofNat 8 (0xFF + carry))

/-- `shift_low()` (R244). -/
def shiftLow (e : Enc) : Except Err Enc :=
  let low' := (e.low % 2 ^ 24) <<< 8
  if e.low % 2 ^ 32 < 0xFF000000 ∨ 2 ^ 32 ≤ e.low then
    match emitAll e.cap e.out (heldBytes e.cache e.csize (e.low >>> 32)) with
    | .ok out => .ok { e with out := out, cache := (e.low >>> 24) % 256, csize := 1, low := low' }
    | .error x => .error x
  else .ok { e with csize := e.csize + 1, low := low' }

/-- The renormalisation loop of R243. A range of at least 1 reaches `RC_TOP` within three rounds. -/
def encRenorm : Nat → Enc → Except Err Enc
  | 0, e => .ok e
  | k + 1, e =>
    if e.range < rcTop then
      match shiftLow { e with range := (e.range <<< 8) % 2 ^ 32 } with
      | .ok e' => encRenorm k e'
      | .error x => .error x
    else .ok e

/-- The rounds a renormalisation takes at most. -/
def renormRounds : Nat := 3

/-- The interval step of R243 and the cell update of R240. -/
def narrow (e : Enc) (c : Ctx) (bit : Bool) : Enc :=
  let p := e.cells.get c
  let bound := boundOf e.range p
  let cells := e.cells.set c (updateProb p bit)
  if bit then { e with range := bound, cells := cells }
  else { e with low := e.low + bound, range := e.range - bound, cells := cells }

/-- `encode_bit(P, bit)` (R243). -/
def encodeBit (e : Enc) (c : Ctx) (bit : Bool) : Except Err Enc :=
  encRenorm renormRounds (narrow e c bit)

/-- `repeat k times: shift_low()`. -/
def shiftTimes : Nat → Enc → Except Err Enc
  | 0, e => .ok e
  | k + 1, e =>
    match shiftLow e with
    | .ok e' => shiftTimes k e'
    | .error x => .error x

/-- The flush of R245. -/
def flushEnc (e : Enc) : Except Err Enc := shiftTimes 5 e

/-- Code the low `k` bits of `v`, highest first, each with the cell of its bit-tree node (R248). -/
def encodeTree (mk : Nat → Ctx) (v : Nat) : Nat → Nat → Enc → Except Err Enc
  | 0, _, e => .ok e
  | k + 1, node, e =>
    let b := v.testBit k
    match encodeBit e (mk node) b with
    | .ok e' => encodeTree mk v k (2 * node + b.toNat) e'
    | .error x => .error x

/-- Code the low `k` bits of `v`, highest first, bit `j` with the cell `RBIT[j]` (R248). -/
def encodeLowBits (v : Nat) : Nat → Enc → Except Err Enc
  | 0, e => .ok e
  | k + 1, e =>
    match encodeBit e (.rbit k) (v.testBit k) with
    | .ok e' => encodeLowBits v k e'
    | .error x => .error x

/-- `bitlen(v)` for `v >= 1` (00_scope.md R13). -/
def bitlen (v : Nat) : Nat := Nat.log2 v + 1

/-- Code one token after a token of kind `prev` (R248). -/
def encodeToken (e : Enc) (prev : Bool) : Token → Except Err Enc
  | .lit r => do
    let e ← encodeBit e (.flag prev) false
    encodeTree .lit r.toNat 8 1 e
  | .run k => do
    let e ← encodeBit e (.flag prev) true
    let e ← encodeTree .rlen (bitlen k - 1) 5 1 e
    encodeLowBits k (bitlen k - 1) e

/-- How many ranks a token stands for (R111). -/
def Token.count : Token → Nat
  | .lit _ => 1
  | .run k => k

/-- The kind of a token as `prev` records it (R248). -/
def Token.isRun : Token → Bool
  | .lit _ => false
  | .run _ => true

/-- The token loop of R248 with the rank count so far; the count is checked after each token. -/
def encodeTokensGo (maxBlock : Nat) (e : Enc) (prev : Bool) (m : Nat) :
    List Token → Except Err (Enc × Nat)
  | [] => .ok (e, m)
  | t :: ts =>
    match encodeToken e prev t with
    | .ok e' =>
      if m + t.count > maxBlock then .error .invalidInput
      else encodeTokensGo maxBlock e' t.isRun (m + t.count) ts
    | .error x => .error x

/-- `rc_encode_tokens(toks)` (R248): the payload and the rank count. -/
def rcEncode (maxBlock : Nat) (cap : Option Nat) (toks : List Token) :
    Except Err (List Byte × Nat) :=
  match encodeTokensGo maxBlock (Enc.init cap) false 0 toks with
  | .error x => .error x
  | .ok (e, m) =>
    match flushEnc e with
    | .ok e' => .ok (e'.out, m)
    | .error x => .error x

/-! ### Decoder -/

/-- The decoder's registers (R246), its cells and the payload bytes not yet read; `q` is the number read. -/
structure Dec where
  range : Nat
  code  : Nat
  rest  : List Byte
  cells : Cells
deriving DecidableEq, Repr

/-- `in_byte()` into `code` (R246, R247): `code <- ((code << 8) | in_byte()) mod 2^32`. -/
def Dec.shiftIn (x : Dec) : Except Err Dec :=
  match x.rest with
  | [] => .error .corruptStream
  | b :: r => .ok { x with code := (x.code * 256 + b.toNat) % 2 ^ 32, rest := r }

/-- `repeat k times` of the shift-in of R246. -/
def shiftInTimes : Nat → Dec → Except Err Dec
  | 0, x => .ok x
  | k + 1, x =>
    match x.shiftIn with
    | .ok x' => shiftInTimes k x'
    | .error e => .error e

/-- `decoder_init()` (R246). -/
def Dec.init : List Byte → Except Err Dec
  | [] => .error .corruptStream
  | b :: r =>
    if b ≠ 0 then .error .corruptStream
    else
      match shiftInTimes 4 { range := 0xFFFFFFFF, code := 0, rest := r, cells := [] } with
      | .ok x => if x.range ≤ x.code then .error .corruptStream else .ok x
      | .error e => .error e

/-- The renormalisation loop of R247, at most three rounds as in R243. -/
def decRenorm : Nat → Dec → Except Err Dec
  | 0, x => .ok x
  | k + 1, x =>
    if x.range < rcTop then
      match Dec.shiftIn { x with range := (x.range <<< 8) % 2 ^ 32 } with
      | .ok x' => decRenorm k x'
      | .error e => .error e
    else .ok x

/-- The decision of R247: the code lies in the lower part. -/
def Dec.decision (x : Dec) (c : Ctx) : Bool := x.code < boundOf x.range (x.cells.get c)

/-- The interval step of R247 and the cell update of R240. -/
def Dec.narrow (x : Dec) (c : Ctx) (bit : Bool) : Dec :=
  let p := x.cells.get c
  let bound := boundOf x.range p
  let cells := x.cells.set c (updateProb p bit)
  if bit then { x with range := bound, cells := cells }
  else { x with code := x.code - bound, range := x.range - bound, cells := cells }

/-- `decode_bit(P)` (R247). -/
def decodeBit (x : Dec) (c : Ctx) : Except Err (Bool × Dec) :=
  match decRenorm renormRounds (x.narrow c (x.decision c)) with
  | .ok x' => .ok (x.decision c, x')
  | .error e => .error e

/-- `repeat k times: node <- 2*node + decode_bit(mk node)` (R249). -/
def decodeTree (mk : Nat → Ctx) : Nat → Nat → Dec → Except Err (Nat × Dec)
  | 0, node, x => .ok (node, x)
  | k + 1, node, x =>
    match decodeBit x (mk node) with
    | .ok (b, x') => decodeTree mk k (2 * node + b.toNat) x'
    | .error e => .error e

/-- `for j in e-1 down to 0: k <- 2*k + decode_bit(RBIT[j])` (R249). -/
def decodeLowBits : Nat → Nat → Dec → Except Err (Nat × Dec)
  | 0, v, x => .ok (v, x)
  | j + 1, v, x =>
    match decodeBit x (.rbit j) with
    | .ok (b, x') => decodeLowBits j (2 * v + b.toNat) x'
    | .error e => .error e

/-- One round of the token loop of R249, `room` ranks being still to come. -/
def decodeToken (x : Dec) (prev : Bool) (room : Nat) : Except Err (Token × Dec) := do
  let (isRun, x) ← decodeBit x (.flag prev)
  if isRun then
    let (node, x) ← decodeTree .rlen 5 1 x
    let (k, x) ← decodeLowBits (node - 32) 1 x
    if room < k then .error .corruptStream else .ok (.run k, x)
  else
    let (node, x) ← decodeTree .lit 8 1 x
    if node - 256 = 0 then .error .corruptStream
    else .ok (.lit (BitVec.ofNat 8 (node - 256)), x)

/-- The token loop of R249: `room = m - count` ranks are still to come, `fuel` bounds the rounds; the token bytes go
through `emit`. Every round takes at least one rank, so `m` rounds suffice. -/
def decodeTokensGo (cap : Option Nat) : Nat → Dec → Bool → Nat → List Byte → Except Err (List Byte × Dec)
  | 0, x, _, _, out => .ok (out, x)
  | fuel + 1, x, prev, room, out =>
    if room = 0 then .ok (out, x)
    else
      match decodeToken x prev room with
      | .error e => .error e
      | .ok (t, x') =>
        match emitAll cap out t.bytes with
        | .ok out' => decodeTokensGo cap fuel x' t.isRun (room - t.count) out'
        | .error e => .error e

/-- `rc_decode_tokens(S, m)` (R249): the token stream; bytes left over are an error. -/
def rcDecode (cap : Option Nat) (payload : List Byte) (m : Nat) : Except Err (List Byte) :=
  match Dec.init payload with
  | .error e => .error e
  | .ok x =>
    match decodeTokensGo cap m x false m [] with
    | .error e => .error e
    | .ok (out, x') => if x'.rest = [] then .ok out else .error .corruptStream

/-! ### Commands -/

/-- The checks of RC_ENC before it reads or writes memory (R250; 40_sequencer.md R139). -/
def rcEncChecks (src dst : Span) (s : State) : Except Err Unit := do
  needLen src.len.toNat 1 anyLength
  needRegion s.size src.region 1
  needRegion s.size dst.region 1
  noOverlap dst.region src.region

/-- What RC_ENC computes (R250). -/
def rcEncResult (src dst : Span) (s : State) : Except Err Done := do
  rcEncChecks src dst s
  let toks ← parseTokens .invalidInput (s.source src)
  let r ← rcEncode s.maxBlock (some dst.len.toNat) toks
  return { out := r.1, r1 := BitVec.ofNat 32 r.2 }

/-- RC_ENC (R250). -/
def execRcEnc (src dst : Span) (s : State) : Host.Outcome State Fault Refusal :=
  conclude 0x38 dst.region (rcEncResult src dst s) s

/-- The checks of RC_DEC before it reads or writes memory (R251; 40_sequencer.md R139). -/
def rcDecChecks (src dst : Span) (m : Word) (s : State) : Except Err Unit := do
  needLen src.len.toNat 1 anyLength
  needLen m.toNat 1 s.maxBlock
  needRegion s.size src.region 1
  needRegion s.size dst.region 1
  noOverlap dst.region src.region

/-- What RC_DEC computes (R251). -/
def rcDecResult (src dst : Span) (m : Word) (s : State) : Except Err Done := do
  rcDecChecks src dst m s
  let out ← rcDecode (some dst.len.toNat) (s.source src) m.toNat
  return { out := out, r1 := src.len }

/-- RC_DEC (R251). -/
def execRcDec (src dst : Span) (m : Word) (s : State) : Host.Outcome State Fault Refusal :=
  conclude 0x39 dst.region (rcDecResult src dst m s) s

end Sys2Proof.Machine
end

