-- ==== Sys2Proof/Machine/Prefilter.lean ====
section
/-! DEFINITION. The predictive pre-filter (44_prefilter.md): the functions of R220 to R223 and the commands
FLT_ENC (R224) and FLT_DEC (R225). -/

namespace Sys2Proof.Machine

/-- `FLT_K` (00_scope.md R11): bytes of context. -/
def fltK : Nat := 4

/-- `FLT_ESC` (R11): the escape byte. -/
def fltEsc : Byte := 0xFE

/-- `FLT_MINLEN` (R11). -/
def fltMinLen : Nat := 3

/-- `FLT_MAXLEN` (R11). -/
def fltMaxLen : Nat := 257

/-- `FLT_HMUL` (R11). -/
def fltHMul : Nat := 0x9E3779B1

/-- `32 - FLT_HBITS` (R11). -/
def fltHShift : Nat := 16

/-- The context hash of four bytes, oldest first (R220). -/
def fltHash (c0 c1 c2 c3 : Byte) : Nat :=
  ((ofLe32 c0 c1 c2 c3).toNat * fltHMul % 2 ^ 32) >>> fltHShift

/-- The hash table `T` (R221): the positions written, newest first, with their index. An index without an entry holds
`FLT_EMPTY`. -/
abbrev FilterTable := List (Nat × Nat)

/-- `T[h]`; `none` stands for `FLT_EMPTY`, which no position equals since positions are below 2^30. -/
def FilterTable.get : FilterTable → Nat → Option Nat
  | [], _ => none
  | (h', p) :: r, h => if h' = h then some p else FilterTable.get r h

/-- The hash of the context before position `i` of the bytes `s` (R221). -/
def contextHash (s : List Byte) (i : Nat) : Nat :=
  fltHash (s.getD (i - 4) 0) (s.getD (i - 3) 0) (s.getD (i - 2) 0) (s.getD (i - 1) 0)

/-- The candidate at a decision point `i`, read before `T` is updated (R221). -/
def candidate (t : FilterTable) (s : List Byte) (i : Nat) : Option Nat :=
  if fltK ≤ i then t.get (contextHash s i) else none

/-- `T` after the decision point `i` (R221): untouched for positions without a context. -/
def noteDecision (t : FilterTable) (s : List Byte) (i : Nat) : FilterTable :=
  if fltK ≤ i then (contextHash s i, i) :: t else t

/-- How far the bytes from `p` and from `i` agree inside the block, up to `k` bytes (R222). -/
def matchLength (b : List Byte) (p i : Nat) : Nat → Nat
  | 0 => 0
  | k + 1 =>
    if i < b.length ∧ b.getD p 0 = b.getD i 0 then 1 + matchLength b (p + 1) (i + 1) k else 0

/-- The predicted match length at position `i` (R222): 0 without a candidate. -/
def predicted (b : List Byte) (i : Nat) : Option Nat → Nat
  | none => 0
  | some p => matchLength b p i fltMaxLen

/-- The loop of R222 from position `i` on, for at most `fuel` decision points. -/
def fltEncGo (b : List Byte) : Nat → FilterTable → Nat → List Byte
  | 0, _, _ => []
  | fuel + 1, t, i =>
    if i < b.length then
      let len := predicted b i (candidate t b i)
      let t' := noteDecision t b i
      if fltMinLen ≤ len then
        fltEsc :: BitVec.ofNat 8 (len - fltMinLen + 1) :: fltEncGo b fuel t' (i + len)
      else if b.getD i 0 = fltEsc then fltEsc :: 0 :: fltEncGo b fuel t' (i + 1)
      else b.getD i 0 :: fltEncGo b fuel t' (i + 1)
    else []

/-- `flt_enc(B)` (R222); every decision point advances, so `len(B)` of them suffice. -/
def fltEncode (b : List Byte) : List Byte := fltEncGo b b.length [] 0

/-- Append `len` bytes copied from position `p` on, byte by byte, overlap allowed (R223). -/
def copyMatch (out : List Byte) (p : Nat) : Nat → List Byte
  | 0 => out
  | len + 1 => copyMatch (out ++ [out.getD p 0]) (p + 1) len

/-- The loop of R223 with the output so far. -/
def fltDecGo (n : Nat) (t : FilterTable) (out : List Byte) : List Byte → Except Err (List Byte)
  | [] => if out.length = n then .ok out else .error .corruptStream
  | b :: s =>
    if n ≤ out.length then .error .corruptStream
    else if b ≠ fltEsc then fltDecGo n (noteDecision t out out.length) (out ++ [b]) s
    else
      match s with
      | [] => .error .corruptStream
      | c :: r =>
        if c = 0 then fltDecGo n (noteDecision t out out.length) (out ++ [fltEsc]) r
        else
          match candidate t out out.length with
          | none => .error .corruptStream
          | some p =>
            if n < out.length + (c.toNat + fltMinLen - 1) then .error .corruptStream
            else
              fltDecGo n (noteDecision t out out.length)
                (copyMatch out p (c.toNat + fltMinLen - 1)) r

/-- `flt_dec(S, n)` (R223). -/
def fltDecode (s : List Byte) (n : Nat) : Except Err (List Byte) := fltDecGo n [] [] s

/-- The checks of FLT_ENC before it reads or writes memory (R224; 40_sequencer.md R139). -/
def fltEncChecks (src dst : Span) (s : State) : Except Err Unit := do
  let n := src.len.toNat
  needLen n 1 s.maxBlock
  needRegion s.size src.region 1
  needRegion s.size dst.region 1
  noOverlap dst.region src.region

/-- What FLT_ENC computes (R224). -/
def fltEncResult (src dst : Span) (s : State) : Except Err Done := do
  fltEncChecks src dst s
  let out ← emitAll (some dst.len.toNat) [] (fltEncode (s.source src))
  return { out := out, r1 := 0 }

/-- FLT_ENC (R224). -/
def execFltEnc (src dst : Span) (s : State) : Host.Outcome State Fault Refusal :=
  conclude 0x30 dst.region (fltEncResult src dst s) s

/-- The checks of FLT_DEC before it reads or writes memory (R225; 40_sequencer.md R139). -/
def fltDecChecks (src dst : Span) (n : Word) (s : State) : Except Err Unit := do
  needLen src.len.toNat 1 s.maxBlock
  needLen n.toNat 1 s.maxBlock
  needRegion s.size src.region 1
  needRegion s.size dst.region 1
  noOverlap dst.region src.region
  needCap dst.len.toNat n.toNat

/-- What FLT_DEC computes (R225). -/
def fltDecResult (src dst : Span) (n : Word) (s : State) : Except Err Done := do
  fltDecChecks src dst n s
  let out ← fltDecode (s.source src) n.toNat
  return { out := out, r1 := 0 }

/-- FLT_DEC (R225). -/
def execFltDec (src dst : Span) (n : Word) (s : State) : Host.Outcome State Fault Refusal :=
  conclude 0x31 dst.region (fltDecResult src dst n s) s

end Sys2Proof.Machine
end

