-- ==== Sys2Proof/Machine/Codec.lean ====
section
/-! DEFINITION. The block codec (46_codec.md): the checksum (R270), compression (R272, R276), decompression (R274)
and the commands CRC32 (R271), COMPRESS (R273) and DECOMPRESS (R275). -/

namespace Sys2Proof.Machine

/-! ### Checksum -/

/-- One of the eight rounds of R270. -/
def crcRound (c : Word) : Word := if c.getLsbD 0 then (c >>> 1) ^^^ 0xEDB88320 else c >>> 1

/-- `repeat k times` of the round of R270. -/
def crcRounds : Nat → Word → Word
  | 0, c => c
  | k + 1, c => crcRounds k (crcRound c)

/-- The register after the bytes of a string (R270). -/
def crcGo (c : Word) : List Byte → Word
  | [] => c
  | b :: s => crcGo (crcRounds 8 (c ^^^ b.setWidth 32)) s

/-- `crc32(s)` (R270). -/
def crc32 (s : List Byte) : Word := crcGo 0xFFFFFFFF s ^^^ 0xFFFFFFFF

/-- The checks of CRC32 before it reads or writes memory (R271; 40_sequencer.md R139). CRC32 checks no length. -/
def crcChecks (src : Span) (s : State) : Except Err Unit := needRegion s.size src.region 1

/-- What CRC32 computes (R271): no length check. -/
def crcResult (src : Span) (s : State) : Except Err Word := do
  crcChecks src s
  return crc32 (s.source src)

/-- CRC32 (R271). -/
def execCrc32 (src : Span) (s : State) : Host.Outcome State Fault Refusal :=
  concludeNoDst 0x40 (crcResult src s) s

/-! ### Compression -/

/-- `HDR_SIZE` (00_scope.md R11). -/
def hdrSize : Nat := 28

/-- The header of an Encoded Block (30_encoding.md R115). -/
def header (flags : Byte) (n m primary : Nat) (crc : Word) (plen : Nat) : List Byte :=
  [0x42, 0x53, 0x43, 0x01, flags, 0x00, 0x00, 0x00] ++
    le32 (BitVec.ofNat 32 n) ++ le32 (BitVec.ofNat 32 m) ++ le32 (BitVec.ofNat 32 primary) ++
    le32 crc ++ le32 (BitVec.ofNat 32 plen)

/-- The stage block and `filter_flags` (R272, R276): the filtered block exactly when the filter is tried and shortens
the block. -/
def stageBlock (b : List Byte) (tryFilter : Bool) : List Byte × Byte :=
  if tryFilter && (fltEncode b).length < b.length then (fltEncode b, 0x01) else (b, 0x00)

/-- `compress(B, tf)` (R272), in internal scratch. -/
def compressBlock (maxBlock : Nat) (b : List Byte) (tryFilter : Bool) : Except Err (List Byte) := do
  let crc := crc32 b
  let (x, flags) := stageBlock b tryFilter
  let (l, primary) := bwtForward x (suffixOrder x)
  let (t, _) := rleEncode (mtfEncode l)
  let toks ← parseTokens .invalidInput t
  let (p, _) ← rcEncode maxBlock none toks
  return header flags b.length x.length primary crc p.length ++ p

/-- The checks of COMPRESS before it reads or writes memory (R273; 40_sequencer.md R139). -/
def compressChecks (src dst : Span) (s : State) : Except Err Unit := do
  let n := src.len.toNat
  needLen n 1 s.maxBlock
  needRegion s.size src.region 1
  needRegion s.size dst.region 1
  noOverlap dst.region src.region

/-- What COMPRESS computes (R273). -/
def compressResult (tryFilter : Bool) (src dst : Span) (s : State) : Except Err Done := do
  compressChecks src dst s
  let e ← compressBlock s.maxBlock (s.source src) tryFilter
  let out ← emitAll (some dst.len.toNat) [] e
  return { out := out, r1 := (e.getD 4 0).setWidth 32 }

/-- COMPRESS (R273). -/
def execCompress (tryFilter : Bool) (src dst : Span) (s : State) :
    Host.Outcome State Fault Refusal :=
  conclude 0x41 dst.region (compressResult tryFilter src dst s) s

/-! ### Decompression -/

/-- Raise `e` when the condition holds (00_scope.md R18). -/
def raiseIf (c : Bool) (e : Err) : Except Err Unit := if c then .error e else .ok ()

/-- The stages of R274 after the header checks: `m` ranks in `payload`, `n` bytes of block. -/
def decodeBlock (filtered : Bool) (n m primary : Nat) (payload : List Byte) :
    Except Err (List Byte) := do
  let t ← rcDecode none payload m
  let toks ← parseTokens .corruptStream t
  let x := bwtInverse (mtfDecode (expand toks)) primary
  if filtered then fltDecode x n else .ok x

/-- `decompress(E, cap)` (R274): the block and the bytes of `E` used. -/
def decompressBlock (maxBlock : Nat) (e : List Byte) (cap : Nat) :
    Except Err (List Byte × Nat) := do
  raiseIf (e.length < hdrSize) .corruptStream
  raiseIf (e.take 3 != [0x42, 0x53, 0x43] || e.getD 3 0 != 0x01) .unsupportedFormat
  let flags := e.getD 4 0
  raiseIf (flags &&& 0xFE != 0 || e.getD 5 0 != 0 || e.getD 6 0 != 0 || e.getD 7 0 != 0)
    .unsupportedFormat
  let n := (le32At e 8).toNat
  let m := (le32At e 12).toNat
  let primary := (le32At e 16).toNat
  let crc := le32At e 20
  let plen := (le32At e 24).toNat
  raiseIf (hdrSize + plen > e.length) .corruptStream
  raiseIf (n == 0) .corruptStream
  raiseIf (n > maxBlock) .capacityExceeded
  raiseIf (n > cap) .capacityExceeded
  raiseIf (if flags = 0x01 then !(1 ≤ m && m < n) else m != n) .corruptStream
  raiseIf (primary ≥ m) .corruptStream
  let b ← decodeBlock (flags = 0x01) n m primary ((e.drop hdrSize).take plen)
  raiseIf (crc32 b != crc) .corruptStream
  return (b, hdrSize + plen)

/-- The checks of DECOMPRESS before it reads or writes memory (R275; 40_sequencer.md R139). -/
def decompressChecks (src dst : Span) (s : State) : Except Err Unit := do
  needLen src.len.toNat 1 anyLength
  needRegion s.size src.region 1
  needRegion s.size dst.region 1
  noOverlap dst.region src.region

/-- What DECOMPRESS computes (R275). -/
def decompressResult (src dst : Span) (s : State) : Except Err Done := do
  decompressChecks src dst s
  let r ← decompressBlock s.maxBlock (s.source src) dst.len.toNat
  return { out := r.1, r1 := BitVec.ofNat 32 r.2 }

/-- DECOMPRESS (R275). -/
def execDecompress (src dst : Span) (s : State) : Host.Outcome State Fault Refusal :=
  conclude 0x42 dst.region (decompressResult src dst s) s

end Sys2Proof.Machine
end

