-- ==== Sys2Proof/Machine/Flags.lean ====
section
/-! DEFINITION. The flag words: CTRL, STATUS and the interrupt output (10_state.md R24, R25, R36). -/

namespace Sys2Proof.Machine

/-- STATUS as the host reads it (R25): reserved bits 7:3 and 31:24 read 0. -/
def State.statusWord (s : State) : Word :=
  (0 : Byte) ++ s.errOp ++ s.errCode ++ (0 : BitVec 5) ++
    BitVec.ofBool s.err ++ BitVec.ofBool s.done ++ BitVec.ofBool s.busy

/-- CTRL as the host reads it (R24): IRQ_EN in bit 2, zeros elsewhere. -/
def State.ctrlWord (s : State) : Word :=
  (0 : BitVec 29) ++ BitVec.ofBool s.irqEn ++ (0 : BitVec 2)

/-- The interrupt output (R36, 60_exceptions.md R307). -/
def State.irq (s : State) : Bool := s.irqEn && (s.done || s.err)

/-- HALT's effect on the flags (40_sequencer.md R133, R136). -/
def State.haltFlags (s : State) : State := { s with busy := false, done := true }

/-- A host write to STATUS (R25): 1 to bit 1 clears DONE, 1 to bit 2 clears ERR, ERR_CODE and ERR_OP; nothing
happens while BUSY = 1. -/
def State.writeStatus (s : State) (v : Word) : State :=
  if s.busy then s
  else
    let s1 := if v.getLsbD 1 then { s with done := false } else s
    if v.getLsbD 2 then { s1 with err := false, errCode := 0, errOp := 0 } else s1

end Sys2Proof.Machine
end

