-- ==== Sys2Proof/Machine/Sequencer.lean ====
section
/-! DEFINITION. The control commands NOP, HALT and JUMP (40_sequencer.md R135 to R137). -/

namespace Sys2Proof.Machine

/-- NOP (R135): only CMD_COUNT and the pc move. -/
def execNop (s : State) : Host.Outcome State Fault Refusal := .next s.advance

/-- HALT (R136): counts, moves past itself, BUSY <- 0, DONE <- 1. -/
def execHalt (s : State) : Host.Outcome State Fault Refusal := .next s.advance.haltFlags

/-- JUMP (R137): the pc takes PARAM0 unchecked; the next fetch checks it. -/
def execJump (target : Word) (s : State) : Host.Outcome State Fault Refusal :=
  .next (s.completeAt target)

end Sys2Proof.Machine
end

