-- ==== Sys2Proof/Machine/Dispatch.lean ====
section
/-! DEFINITION. `execute(d)` and its completion (40_sequencer.md R132): each command to its meaning. -/

namespace Sys2Proof.Machine

def exec (i : Instr) (s : State) : Host.Outcome State Fault Refusal :=
  match i with
  | .nop => Sys2Proof.Machine.execNop s
  | .halt => Sys2Proof.Machine.execHalt s
  | .jump target => Sys2Proof.Machine.execJump target s
  | .sort src dst => Sys2Proof.Machine.execSort src dst s
  | .saCheck src aux => Sys2Proof.Machine.execSaCheck src aux s
  | .bwtFwd internal src dst aux => Sys2Proof.Machine.execBwtFwd internal src dst aux s
  | .bwtInv src dst primary => Sys2Proof.Machine.execBwtInv src dst primary s
  | .mtfEnc src dst => Sys2Proof.Machine.execMtfEnc src dst s
  | .mtfDec src dst => Sys2Proof.Machine.execMtfDec src dst s
  | .rleEnc src dst => Sys2Proof.Machine.execRleEnc src dst s
  | .rleDec src dst => Sys2Proof.Machine.execRleDec src dst s
  | .fltEnc src dst => Sys2Proof.Machine.execFltEnc src dst s
  | .fltDec src dst n => Sys2Proof.Machine.execFltDec src dst n s
  | .rcEnc src dst => Sys2Proof.Machine.execRcEnc src dst s
  | .rcDec src dst m => Sys2Proof.Machine.execRcDec src dst m s
  | .crc32 src => Sys2Proof.Machine.execCrc32 src s
  | .compress tryFilter src dst => Sys2Proof.Machine.execCompress tryFilter src dst s
  | .decompress src dst => Sys2Proof.Machine.execDecompress src dst s

end Sys2Proof.Machine
end

