-- ==== Sys2Proof/Machine/Fetch.lean ====
section
/-! DEFINITION. Fetching and latching a descriptor (40_sequencer.md R132, 30_encoding.md R90 to R92), and which command
is running. -/

namespace Sys2Proof.Machine

/-- The fetch address is a multiple of 4 and leaves 32 bytes of buffer (R132). -/
def State.fetchable (s : State) : Bool :=
  s.cmdPtr.toNat % 4 == 0 && s.cmdPtr.toNat + Config.descSize ≤ s.size

/-- The 32 bytes at the pc. -/
def State.fetchBytes (s : State) : List Byte := s.mem.read s.cmdPtr.toNat Config.descSize

/-- The descriptor at the pc as the latches would hold it (R92). -/
def State.fetchDesc (s : State) : Desc := Desc.ofBytes s.fetchBytes

/-- Latch the descriptor at the pc (R92). -/
def State.latch (s : State) : State := { s with d := s.fetchDesc }

/-- The region of the descriptor at the pc. -/
def State.fetchRegion (s : State) : Region := ⟨s.cmdPtr.toNat, Config.descSize⟩

/-- The command that is running: the one at the pc, while BUSY = 1 and its fetch succeeds. -/
def State.running (s : State) : Option Instr :=
  if s.busy && s.fetchable then
    match decodeDesc s.fetchDesc with
    | .ok i => some i
    | .error _ => none
  else none

/-- The destination of the running command, empty when there is none. -/
def State.runningDst (s : State) : Region :=
  match s.running with
  | some i => destination i
  | none => ⟨0, 0⟩

/-- An address lies in one of some regions. -/
def covers (rs : List Region) (a : Nat) : Bool := rs.any fun r => r.has a

end Sys2Proof.Machine
end

