-- ==== Sys2Proof/Machine/Race.lean ====
section
/-! DEFINITION. The run the host disturbs (70_reset_and_hazards.md R345): which bytes a run reads and writes, when a run is
affected by a host write, and what is left unspecified then (93_implementation_defined.md section 1; log entry 6). -/

namespace Sys2Proof.Machine

/-! ### What the run reads and writes -/

/-- The checks a command makes before it reads or writes memory (40_sequencer.md R139 (1) to (4)). -/
def checksOf : Instr → State → Except Err Unit
  | .nop, _ => .ok ()
  | .halt, _ => .ok ()
  | .jump _, _ => .ok ()
  | .sort src dst, s => sortChecks src dst s
  | .saCheck src aux, s => saCheckChecks src aux s
  | .bwtFwd internal src dst aux, s => bwtFwdChecks internal src dst aux s
  | .bwtInv src dst primary, s => bwtInvChecks src dst primary s
  | .mtfEnc src dst, s => mapChecks src dst s
  | .mtfDec src dst, s => mapChecks src dst s
  | .rleEnc src dst, s => rleEncChecks src dst s
  | .rleDec src dst, s => rleDecChecks src dst s
  | .fltEnc src dst, s => fltEncChecks src dst s
  | .fltDec src dst n, s => fltDecChecks src dst n s
  | .rcEnc src dst, s => rcEncChecks src dst s
  | .rcDec src dst m, s => rcDecChecks src dst m s
  | .crc32 src, s => crcChecks src s
  | .compress _ src dst, s => compressChecks src dst s
  | .decompress src dst, s => decompressChecks src dst s

/-- The command passes its checks, which depend on the two parameters only, and goes on to read its sources. -/
def State.accepts (s : State) (i : Instr) : Bool :=
  (checksOf i { State.reset with caps := s.caps, bufSize := s.bufSize }).isOk

/-- The regions that command `i` reads besides its descriptor: none when a check fails (R139, 00_scope.md R18). -/
def State.readBy (s : State) (i : Instr) : List Region := if s.accepts i then reads i else []

/-- The region that command `i` writes in state `s`: nothing when a check fails (R139, R18), the first RESULT0 bytes of
its destination when it completes (20_memory.md R68), the whole destination when it fails after its checks (R69; log
entry 6). It depends on memory and the two parameters only (R63). -/
def State.writtenBy (s : State) (i : Instr) : Region :=
  let dst := destination i
  if s.accepts i then
    match exec i { State.reset with caps := s.caps, bufSize := s.bufSize, mem := s.mem } with
    | .next t => if t.err then dst else ⟨dst.addr, min dst.len t.result0.toNat⟩
    | .fault _ => dst
    | .refused _ => dst
  else ⟨dst.addr, 0⟩

/-- Record the regions a command reads and writes, and its destination (R345; log entry 6). -/
def State.noteRun (s : State) (i : Instr) : State :=
  { s with
    runReads := s.fetchRegion :: (s.readBy i ++ s.runReads)
    runWrites := s.writtenBy i :: s.runWrites
    runDests := destination i :: s.runDests }

/-- The regions the running command reads and writes: its descriptor, its sources and what it writes. -/
def State.runningRegions (s : State) : List Region :=
  if s.busy && s.fetchable then
    s.fetchRegion ::
      (match s.running with
       | some i => s.writtenBy i :: s.readBy i
       | none => [])
  else []

/-- The host has written, during this run, a byte of the running command (R345). -/
def State.raced (s : State) : Bool := s.hostWrote.any fun a => covers s.runningRegions a

/-- The run is one that R345 leaves unspecified. -/
def State.affectedRun (s : State) : Bool := s.busy && (s.affected || s.raced)

/-! ### What is left unspecified -/

/-- The host has written, during this run, in the descriptor of the running command (R345). -/
def State.descriptorRaced (s : State) : Bool :=
  s.busy && s.fetchable && s.hostWrote.any s.fetchRegion.has

/-- Where the running command may have its destination: the region its descriptor names, and anywhere in the buffer once
the host has written in that descriptor, since memory then no longer tells what was fetched (log entry 6). -/
def State.possibleDst (s : State) : Region := if s.descriptorRaced then ⟨0, s.size⟩ else s.runningDst

/-- The destination regions of the run, whole: those of the commands it has run and of the running command. They are what
R345 leaves unspecified in an affected run. DESIGN CHOICE (log entry 6): once a reset has aborted a command of an unaffected
run, its own destination is none of them, so the host reads it from memory at once, before it has looked at STATUS or
IRQ (20_memory.md R75, R76). -/
def State.openRegions (s : State) : List Region := s.possibleDst :: s.runDests

/-- The contents of the destinations of an affected run are unspecified (R345). -/
def State.openDestinations (s : State) : State :=
  { s.scrambleAll s.openRegions with runDests := s.openRegions }

/-- The results of an affected run are unspecified (R345): RESULT0 and RESULT1. -/
def State.openResults (s : State) : State :=
  { s with result0 := freeWord s.draws, result1 := freeWord (s.draws + 4), draws := s.draws + 8 }

/-- The command that an affected run latches, where it goes on and how many commands it counts are unspecified. -/
def State.openControl (s : State) : State :=
  { s with
    d := Desc.ofBytes (freeBytes s.draws 32), cmdPtr := freeWord (s.draws + 32)
    cmdCount := freeWord (s.draws + 36), draws := s.draws + 40 }

/-- Whether an affected run goes on, halts or fails, and with which error, is unspecified. -/
def State.openEnd (s : State) : State :=
  let t := { s with draws := s.draws + 3 }
  match (Config.freeByte s.draws).toNat % 3 with
  | 0 => t
  | 1 => t.haltFlags
  | _ => t.fail (freeErr (s.draws + 1)) (Config.freeByte (s.draws + 2))

/-- A command cycle of an affected run: every later value of the run is unspecified (R345). -/
def State.openCycle (s : State) : State :=
  { s.openDestinations with affected := true }.openResults.openControl.openEnd

/-- What a reset leaves of a run it aborts, before it resets the registers: an affected run leaves its destinations
unspecified (R345). -/
def State.abandonRun (s : State) : State := if s.affectedRun then s.openDestinations else s

end Sys2Proof.Machine
end

