-- ==== Sys2Proof/Machine/HostPort.lean ====
section
/-! DEFINITION. What the host can do to the machine: the register window (10_state.md R22 to R33), the buffer memory
(20_memory.md R60, R61), the interrupt (R36, R307), the resets (70_reset_and_hazards.md R340, R341) and the
hazards (R345 to R347). -/

namespace Sys2Proof.Machine

/-! ### Resets -/

/-- Soft reset (R341): every register to its reset value; the destination of the command it aborts is left
unspecified (R69); no other byte of memory changes, but what an affected run leaves open (R345). DESIGN CHOICE (log
entry 6): in an unaffected run that destination reads from memory right after either reset. -/
def State.softReset (s : State) : State := (s.abandonRun.scramble s.runningDst).resetRegisters

/-- Hardware reset (R340): every register to its reset value; memory is not changed (R342; log entry 10), but what an
affected run leaves open (R345). -/
def State.hardReset (s : State) : State := s.abandonRun.resetRegisters

/-! ### Registers -/

/-- A write to CTRL (R24): SOFT_RESET alone happens when it is set (log entry 9); otherwise IRQ_EN takes bit 2 and
START, bit 0, starts the sequencer (R131). -/
def State.writeCtrl (s : State) (v : Word) : State :=
  if v.getLsbD 1 then s.softReset
  else
    let s1 := { s with irqEn := v.getLsbD 2 }
    if v.getLsbD 0 then s1.start else s1

/-- A write to CMD_PTR (R26): ignored while BUSY = 1. -/
def State.writeCmdPtr (s : State) (v : Word) : State :=
  if s.busy then s else { s with cmdPtr := v }

/-- A 32-bit write to the register window (R22): only CTRL, STATUS and CMD_PTR take one; every other register is
read-only and reserved offsets ignore writes (R32). -/
def State.writeReg (s : State) (offset : Nat) (v : Word) : State :=
  if offset = 0x04 then s.writeCtrl v
  else if offset = 0x08 then s.writeStatus v
  else if offset = 0x0C then s.writeCmdPtr v
  else s

/-- A 32-bit read of the register window (R22); reserved offsets read 0 (R32). -/
def State.readReg (s : State) (offset : Nat) : Word :=
  if offset = 0x00 then Config.idValue
  else if offset = 0x04 then s.ctrlWord
  else if offset = 0x08 then s.statusWord
  else if offset = 0x0C then s.cmdPtr
  else if offset = 0x10 then s.result0
  else if offset = 0x14 then s.result1
  else if offset = 0x18 then s.errAddr
  else if offset = 0x1C then s.cmdCount
  else if offset = 0x20 then s.caps.setWidth 32
  else if offset = 0x24 then s.bufSize
  else 0

/-- The host has read STATUS with BUSY = 0 (20_memory.md R75). -/
def State.observe (s : State) (offset : Nat) : Bool := s.synced || (offset == 0x08 && !s.busy)

/-- Whether a register access is one the hardware defines: a 4-aligned 32-bit access (R33) inside the 256-byte
window (R22). -/
def accessRefusal (offset width : Nat) : Option Refusal :=
  if 256 ≤ offset then some .outsideWindow
  else if width ≠ 4 ∨ offset % 4 ≠ 0 then some .registerAccess
  else none

/-- A host write to the register window. -/
def hostWriteReg (offset width : Nat) (v : Word) (s : State) : Host.Outcome State Fault Refusal :=
  match accessRefusal offset width with
  | some r => .refused r
  | none => .next (s.writeReg offset v)

/-- A host read of the register window: no effect on the machine (20_memory.md R70). -/
def hostReadReg (offset width : Nat) (s : State) : Host.Outcome State Fault Refusal :=
  match accessRefusal offset width with
  | some r => .refused r
  | none => .next { s with hostData := s.readReg offset, synced := s.observe offset }

/-! ### Buffer memory -/

/-- The addresses of `k` bytes from `a` on. -/
def addressesFrom (a : Nat) : Nat → List Nat
  | 0 => []
  | k + 1 => a :: addressesFrom (a + 1) k

/-- A host write while BUSY = 1 goes to memory and is noted; one that touches a byte that an earlier command of the run
read or wrote makes the run an affected one (R345). A byte that a later command reads or writes is found by `raced`
when that command runs. -/
def State.writeDuringRun (s : State) (a : Nat) (bs : List Byte) : State :=
  let xs := addressesFrom a bs.length
  { s with
    mem := s.mem.write a bs, hostWrote := xs ++ s.hostWrote
    affected := s.affected || xs.any (covers (s.runReads ++ s.runWrites)) }

/-- A host write to buffer memory (R60); during a run it may leave the results of the run unspecified (R345). -/
def hostWriteBuf (a : Nat) (bs : List Byte) (s : State) : Host.Outcome State Fault Refusal :=
  if s.size < a + bs.length then .fault .hostOutsideBuffer
  else if s.busy then
    let t := s.writeDuringRun a bs
    .next (if t.affectedRun then t.openResults else t)
  else .next { s with mem := s.mem.write a bs }

/-- The byte is a destination byte whose value the host may not rely on yet: of the running command (R346), or of a
run whose end the host has not seen (20_memory.md R75, R76, R347). DESIGN CHOICE (log entry 6): every byte of a
destination region counts, the bytes past RESULT0, which R68 keeps, among them; after a reset that aborts a command of an
unaffected run, the destination of that command does not count, while those of the run's earlier commands do. -/
def State.unsettled (s : State) (a : Nat) : Bool := !s.synced && covers (s.openRegions ++ s.unseen) a

/-- A host read of a byte of buffer memory: an unsettled byte reads as a fresh free byte (log entry 6). -/
def hostReadBuf (a : Nat) (s : State) : Host.Outcome State Fault Refusal :=
  if s.size ≤ a then .fault .hostOutsideBuffer
  else if s.unsettled a then
    .next { s with hostData := (Config.freeByte s.draws).setWidth 32, draws := s.draws + 1 }
  else .next { s with hostData := (s.mem.byte a).setWidth 32 }

/-- The host's interrupt controller looks at IRQ (R36); an interrupt is one of the two ways to see the end of a run
(R75). -/
def hostSampleIrq (s : State) : Host.Outcome State Fault Refusal :=
  .next { s with hostData := (BitVec.ofBool s.irq).setWidth 32, synced := s.synced || s.irq }

/-- The reset input (R340). -/
def hostReset (s : State) : Host.Outcome State Fault Refusal := .next s.hardReset

end Sys2Proof.Machine
end

