-- ==== Sys2Proof/Machine/Engine.lean ====
section
/-! DEFINITION. One turn of the engine and one turn of the host; `step` in Step.lean only chooses between them. -/

namespace Sys2Proof.Machine

/-- The command cycle (40_sequencer.md R132): fetch check, latch, legality, execution. -/
def cycle (s : State) : Host.Outcome State Fault Refusal :=
  if s.fetchable then
    match decodeDesc s.latch.d with
    | .ok i => exec i (s.noteRun i).latch
    | .error _ => .next (s.latch.fail .illegalCommand s.latch.d.opcode)
  else .next (s.fail .addressError fetchErrOp)

/-- The engine's turn: nothing while IDLE (R130, 60_exceptions.md R314), a command cycle while RUNNING, an unspecified one
in a run that a host write affects (70_reset_and_hazards.md R345). -/
def engineTurn (s : State) : Host.Outcome State Fault Refusal :=
  if s.affectedRun then .next s.openCycle
  else if s.busy then cycle s
  else .next s

/-- One action of the host. -/
def hostTurn (a : HostAction) (s : State) : Host.Outcome State Fault Refusal :=
  match a with
  | .engineTurn => engineTurn s
  | .writeReg offset width v => hostWriteReg offset width v s
  | .readReg offset width => hostReadReg offset width s
  | .writeBuf addr bytes => hostWriteBuf addr bytes s
  | .readBuf addr => hostReadBuf addr s
  | .sampleIrq => hostSampleIrq s
  | .hardReset => hostReset s

/-- Take the host's next action off its list; without one the engine moves (10_state.md R21; log entry 5). -/
def turn (s : State) : Host.Outcome State Fault Refusal :=
  match s.host with
  | [] => engineTurn s
  | a :: rest => hostTurn a { s with host := rest }

/-- Place an instruction where the next cycle fetches it: the loader that stands for the host's boot sequence (R344). An
unfetchable pc is moved to 0, the host's list is emptied so that the engine moves, no host write affects the
run, and an idle engine is started. -/
def loadDescriptor (s : State) (bytes : List Byte) : State :=
  let s1 : State := if s.fetchable then s else { s with cmdPtr := 0 }
  ({ s1 with host := [], hostWrote := [], affected := false, mem := s1.mem.write s1.cmdPtr.toNat bytes }).start

end Sys2Proof.Machine
end

