-- ==== Sys2Proof/Machine/Step.lean ====
section
/-! DEFINITION. One step of the machine, and where its next instruction is fetched. -/

namespace Sys2Proof.Machine

/-- One step: the next turn of the host or of the engine (10_state.md R21, 20_memory.md R71). -/
def step (s : State) : Host.Outcome State Fault Refusal := turn s

/-- The state with an opcode-table word as the next descriptor (log entry 5). -/
def State.withFetchWord (s : State) (nbits w : Nat) : State := loadDescriptor s (tableBytes nbits w)

end Sys2Proof.Machine
end

