-- ==== Sys2Proof/Safety.lean ====
section
/-! DEFINITION. What claims call a sound state and a reachable state of the machine. -/

namespace Sys2Proof.Machine

/-- The codes STATUS.ERR_CODE ever takes on an error (60_exceptions.md R300). -/
def errorCodes : List Byte := [0x01, 0x02, 0x03, 0x04, 0x10, 0x11]

/-- Every listed byte of memory lies inside the buffer (20_memory.md R60). -/
def Memory.inside (m : Memory) (size : Nat) : Prop := ∀ c ∈ m, c.1 < size

/-- The invariant of the machine. -/
structure State.Inv (s : State) : Prop where
  /-- BUSY = 1 implies DONE = 0 and ERR = 0 (10_state.md R35). -/
  busyAlone : s.busy = true → s.done = false ∧ s.err = false
  /-- DONE and ERR are never both 1 (R35). -/
  oneOutcome : ¬(s.done = true ∧ s.err = true)
  /-- ERR_CODE and ERR_OP are 0 without an error (R25, R300). -/
  quiet : s.err = false → s.errCode = 0 ∧ s.errOp = 0
  /-- With an error, ERR_CODE is one of the codes of R300. -/
  named : s.err = true → s.errCode ∈ errorCodes
  /-- The model's own: the memory keeps its canonical form (log entry 3). -/
  canonical : s.mem.wf
  /-- The memory lists only bytes that exist (R60). -/
  bounded : s.mem.inside s.size
  /-- `1 <= MAX_BLOCK_SIZE` (00_scope.md R10); the upper bound is the width of CAPS. -/
  blockParam : 1 ≤ s.maxBlock
  /-- `64 <= BUF_SIZE` (R10); the upper bound is the width of the register. -/
  bufParam : 64 ≤ s.size
  /-- The model's own: while the engine runs, the record says that the host has not seen the end of the run (log
  entry 6). -/
  running : s.busy = true → s.synced = false

/-- States some run from `s` passes through. -/
inductive Reachable (s : State) : State → Prop where
  | here : Reachable s s
  | next {t u : State} : Reachable s t → step t = .next u → Reachable s u

end Sys2Proof.Machine
end

