-- ==== Sys2Proof/Certificates/Slice0/Obligations.lean ====
section
/-! DEFINITION. The statements for the provers. `Sys2Proof.Claims` holds what they are made of: how a command
succeeds, how it fails, the checks of 40_sequencer.md R139 read as tables, and the spec's functions written as
relations, apart from the functions of the model. -/

namespace Sys2Proof.Claims

open Sys2Proof.Machine

/-! ### Bytes stored and bytes kept -/

/-- Address `x` lies in the region `(a, k)` (20_memory.md R64). -/
def Within (a k x : Nat) : Prop := a ≤ x ∧ x < a + k

/-- From memory `m` to memory `m'` the bytes `out` are stored from address `a` on, and every other byte reads as
before. -/
def Stored (m m' : Memory) (a : Nat) (out : List Byte) : Prop :=
  (∀ k, k < out.length → m'.byte (a + k) = out.getD k 0) ∧
    ∀ x, ¬Within a out.length x → m'.byte x = m.byte x

/-- The command completes without error having stored `out` from address `a` on, with RESULT0 the number of bytes
stored and RESULT1 `r1`; every other register and flag is kept (40_sequencer.md R133). -/
def Succeeds (i : Instr) (s : State) (a : Nat) (out : List Byte) (r1 : Word) : Prop :=
  ∃ m, exec i s =
      .next { s with
        cmdPtr := s.cmdPtr + 32, cmdCount := s.cmdCount + 1
        result0 := BitVec.ofNat 32 out.length, result1 := r1, mem := m } ∧
    Stored s.mem m a out

/-- The command completes without error and without a store, with RESULT0 = 0 and RESULT1 = `r1`. -/
def SucceedsQuietly (i : Instr) (s : State) (r1 : Word) : Prop :=
  exec i s =
    .next { s with
      cmdPtr := s.cmdPtr + 32, cmdCount := s.cmdCount + 1, result0 := 0, result1 := r1 }

/-- The destination region `(d.DST_ADDR, d.DST_CAP)` of a command as its descriptor names it; a command without a
destination has the region of length 0 (30_encoding.md R93, R98). -/
def dstAddr (i : Instr) : Nat := (encodeDesc i).dstAddr.toNat

/-- The capacity of `dstAddr`. -/
def dstCap (i : Instr) : Nat := (encodeDesc i).dstCap.toNat

/-- The command fails with the error `code` by the trap path (40_sequencer.md R134): registers as R134 writes them,
every other register kept, and every byte outside the destination region kept (20_memory.md R69). -/
def Fails (i : Instr) (s : State) (code : Byte) : Prop :=
  ∃ m k, exec i s =
      .next { s with
        busy := false, err := true, errCode := code, errOp := (encodeDesc i).opcode
        errAddr := s.cmdPtr, mem := m, draws := k } ∧
    ∀ x, ¬Within (dstAddr i) (dstCap i) x → m.byte x = s.mem.byte x

/-! ### The checks of R139, read as tables -/

/-- Lengths and parameters a command checks: value, least, greatest (R139 (1), R140). -/
def lengthChecks (s : State) : Instr → List (Nat × Nat × Nat)
  | .nop => []
  | .halt => []
  | .jump _ => []
  | .sort src _ => [(src.len.toNat, 1, s.caps.toNat)]
  | .saCheck src _ => [(src.len.toNat, 1, s.caps.toNat)]
  | .bwtFwd _ src _ _ => [(src.len.toNat, 1, s.caps.toNat)]
  | .bwtInv src _ p => [(src.len.toNat, 1, s.caps.toNat), (p.toNat, 0, src.len.toNat - 1)]
  | .mtfEnc src _ => [(src.len.toNat, 1, s.caps.toNat)]
  | .mtfDec src _ => [(src.len.toNat, 1, s.caps.toNat)]
  | .rleEnc src _ => [(src.len.toNat, 1, s.caps.toNat)]
  | .rleDec src _ => [(src.len.toNat, 1, 2 ^ 32 - 1)]
  | .fltEnc src _ => [(src.len.toNat, 1, s.caps.toNat)]
  | .fltDec src _ n => [(src.len.toNat, 1, s.caps.toNat), (n.toNat, 1, s.caps.toNat)]
  | .rcEnc src _ => [(src.len.toNat, 1, 2 ^ 32 - 1)]
  | .rcDec src _ m => [(src.len.toNat, 1, 2 ^ 32 - 1), (m.toNat, 1, s.caps.toNat)]
  | .crc32 _ => []
  | .compress _ src _ => [(src.len.toNat, 1, s.caps.toNat)]
  | .decompress src _ => [(src.len.toNat, 1, 2 ^ 32 - 1)]

/-- A region of bytes: address, length, alignment 1. -/
def bytesAt (p : Span) : Nat × Nat × Nat := (p.addr.toNat, p.len.toNat, 1)

/-- The region of a suffix-order array of the block `p`: address, length, alignment 4 (R65, R105). -/
def orderAt (aux : Word) (p : Span) : Nat × Nat × Nat := (aux.toNat, 4 * p.len.toNat, 4)

/-- Regions a command checks: address, length, alignment (R139 (2), 20_memory.md R64 to R66). -/
def regionChecks : Instr → List (Nat × Nat × Nat)
  | .nop => []
  | .halt => []
  | .jump _ => []
  | .sort src dst => [bytesAt src, (dst.addr.toNat, dst.len.toNat, 4)]
  | .saCheck src aux => [bytesAt src, orderAt aux src]
  | .bwtFwd true src dst _ => [bytesAt src, bytesAt dst]
  | .bwtFwd false src dst aux => [bytesAt src, orderAt aux src, bytesAt dst]
  | .bwtInv src dst _ => [bytesAt src, bytesAt dst]
  | .mtfEnc src dst => [bytesAt src, bytesAt dst]
  | .mtfDec src dst => [bytesAt src, bytesAt dst]
  | .rleEnc src dst => [bytesAt src, bytesAt dst]
  | .rleDec src dst => [bytesAt src, bytesAt dst]
  | .fltEnc src dst => [bytesAt src, bytesAt dst]
  | .fltDec src dst _ => [bytesAt src, bytesAt dst]
  | .rcEnc src dst => [bytesAt src, bytesAt dst]
  | .rcDec src dst _ => [bytesAt src, bytesAt dst]
  | .crc32 src => [bytesAt src]
  | .compress _ src dst => [bytesAt src, bytesAt dst]
  | .decompress src dst => [bytesAt src, bytesAt dst]

/-- Regions the destination must not overlap (R139 (3), 20_memory.md R67). -/
def overlapChecks : Instr → List (Nat × Nat × Nat)
  | .nop => []
  | .halt => []
  | .jump _ => []
  | .sort src _ => [bytesAt src]
  | .saCheck _ _ => []
  | .bwtFwd true src _ _ => [bytesAt src]
  | .bwtFwd false src _ aux => [bytesAt src, orderAt aux src]
  | .bwtInv src _ _ => [bytesAt src]
  | .mtfEnc src _ => [bytesAt src]
  | .mtfDec src _ => [bytesAt src]
  | .rleEnc src _ => [bytesAt src]
  | .rleDec src _ => [bytesAt src]
  | .fltEnc src _ => [bytesAt src]
  | .fltDec src _ _ => [bytesAt src]
  | .rcEnc src _ => [bytesAt src]
  | .rcDec src _ _ => [bytesAt src]
  | .crc32 _ => []
  | .compress _ src _ => [bytesAt src]
  | .decompress src _ => [bytesAt src]

/-- Output length known before execution, 0 where there is none (R139 (4)). -/
def knownOutput : Instr → Nat
  | .nop => 0
  | .halt => 0
  | .jump _ => 0
  | .sort src _ => 4 * src.len.toNat
  | .saCheck _ _ => 0
  | .bwtFwd _ src _ _ => src.len.toNat
  | .bwtInv src _ _ => src.len.toNat
  | .mtfEnc src _ => src.len.toNat
  | .mtfDec src _ => src.len.toNat
  | .rleEnc _ _ => 0
  | .rleDec _ _ => 0
  | .fltEnc _ _ => 0
  | .fltDec _ _ n => n.toNat
  | .rcEnc _ _ => 0
  | .rcDec _ _ _ => 0
  | .crc32 _ => 0
  | .compress _ _ _ => 0
  | .decompress _ _ => 0

/-- The destination `(a, k)` overlaps the region `r`, by the inequalities of R67. -/
def clashes (a k : Nat) (r : Nat × Nat × Nat) : Bool :=
  0 < k && 0 < r.2.1 && a < r.1 + r.2.1 && r.1 < a + k

/-- The code of the first check of R139 that fails, in the order of R139; `none` when all pass. -/
def firstError (i : Instr) (s : State) : Option Byte :=
  if (lengthChecks s i).any (fun c => c.1 < c.2.1 || c.2.2 < c.1) then some 0x01
  else if (regionChecks i).any (fun c => c.1 % c.2.2 != 0 || s.bufSize.toNat < c.1 + c.2.1) then some 0x11
  else if (overlapChecks i).any (clashes (dstAddr i) (dstCap i)) then some 0x01
  else if dstCap i < knownOutput i then some 0x04
  else none

/-- A check of R139 that fails ends the command with its error. -/
def ChecksRaise (i : Instr) (s : State) : Prop := ∀ code, firstError i s = some code → Fails i s code

/-! ### The spec's functions as relations -/

/-- Byte `k` of `rot(B, i)` (00_scope.md R15). -/
def rotByte (b : List Byte) (i k : Nat) : Byte := b.getD ((i + k) % b.length) 0

/-- `rot(B, i) <lex rot(B, j)` (R15). -/
def RotLess (b : List Byte) (i j : Nat) : Prop :=
  ∃ k, k < b.length ∧ (∀ l, l < k → rotByte b i l = rotByte b j l) ∧
    (rotByte b i k).toNat < (rotByte b j k).toNat

/-- `rot(B, i) = rot(B, j)`. -/
def RotEqual (b : List Byte) (i j : Nat) : Prop := ∀ k, k < b.length → rotByte b i k = rotByte b j k

/-- `sa` is the suffix order of `b` (41_suffix_sort.md R150). -/
def IsSuffixOrder (b : List Byte) (sa : List Nat) : Prop :=
  sa.length = b.length ∧ sa.Nodup ∧ (∀ x, x ∈ sa → x < b.length) ∧
    ∀ i, i + 1 < b.length →
      RotLess b (sa.getD i 0) (sa.getD (i + 1) 0) ∨
        (RotEqual b (sa.getD i 0) (sa.getD (i + 1) 0) ∧ sa.getD i 0 < sa.getD (i + 1) 0)

/-- The bytes of a suffix-order array (30_encoding.md R105): little-endian `u32` entries in order. -/
def orderBytes (sa : List Nat) : List Byte := sa.flatMap fun x => le32 (BitVec.ofNat 32 x)

/-- The `n` entries of the suffix-order array at an address (R105). -/
def orderIn (s : State) (aux : Word) (n : Nat) : List Nat :=
  (List.range n).map fun j => (s.mem.read32 (aux.toNat + 4 * j)).toNat

/-- `(L, primary) = bwt_fwd(B, S)` (42_bwt.md R170). -/
def IsBwt (b : List Byte) (order : List Nat) (l : List Byte) (primary : Nat) : Prop :=
  l.length = b.length ∧
    (∀ i, i < b.length → l.getD i 0 = b.getD ((order.getD i 0 + b.length - 1) % b.length) 0) ∧
    primary < b.length ∧ order.getD primary 0 = 0 ∧ ∀ j, j < primary → order.getD j 0 ≠ 0

/-- `LF[i] = C[L[i]] + occ[L[i]]` (42_bwt.md R171). -/
def lastFirst (l : List Byte) (i : Nat) : Nat :=
  (l.filter fun x => x.toNat < (l.getD i 0).toNat).length +
    ((List.range i).filter fun j => l.getD j 0 == l.getD i 0).length

/-- `out = bwt_inv(L, primary)` (R171): `p k` is the row from which the walk emits `out[k]`. -/
def IsInverseBwt (l : List Byte) (primary : Nat) (out : List Byte) : Prop :=
  out.length = l.length ∧
    ∃ p : Nat → Nat, p (l.length - 1) = primary ∧
      (∀ k, k + 1 < l.length → p k = lastFirst l (p (k + 1))) ∧
      ∀ k, k < l.length → out.getD k 0 = l.getD (p k) 0

/-- The bytes `x` and the ranks `r` belong together (43_rank_run.md R190 to R192): `q i` is the MTF list before
symbol `i`. -/
def IsMtf (x r : List Byte) : Prop :=
  x.length = r.length ∧
    ∃ q : Nat → List Byte, q 0 = (List.range 256).map (BitVec.ofNat 8) ∧
      ∀ i, i < x.length →
        (q i)[(r.getD i 0).toNat]? = some (x.getD i 0) ∧
          q (i + 1) =
            x.getD i 0 :: ((q i).take (r.getD i 0).toNat ++ (q i).drop ((r.getD i 0).toNat + 1))

/-- The tokens of 30_encoding.md R110. -/
def TokensOk (ts : List Token) : Prop :=
  ∀ t, t ∈ ts →
    match t with
    | .lit r => r ≠ 0
    | .run k => 1 ≤ k ∧ k < 2 ^ 32

/-- No run token directly follows another (R111). -/
def Canonical (ts : List Token) : Prop :=
  ∀ pre post j k, ts ≠ pre ++ .run j :: .run k :: post

/-- A byte string that no token starts (R111): a truncated run token or a run of length 0. -/
def Malformed (t : List Byte) : Prop :=
  (∃ r, t = 0 :: r ∧ r.length < 4) ∨ ∃ r, t = 0 :: 0 :: 0 :: 0 :: 0 :: r

/-- The context hash before position `i` (44_prefilter.md R220). -/
def contextIndex (b : List Byte) (i : Nat) : Nat :=
  ((b.getD (i - 4) 0).toNat + (b.getD (i - 3) 0).toNat * 2 ^ 8 + (b.getD (i - 2) 0).toNat * 2 ^ 16 +
    (b.getD (i - 1) 0).toNat * 2 ^ 24) * 0x9E3779B1 % 2 ^ 32 / 2 ^ 16

/-- `T` after the decision point `i` (R221). -/
def noteContext (b : List Byte) (t : Nat → Option Nat) (i : Nat) : Nat → Option Nat :=
  fun h => if 4 ≤ i ∧ h = contextIndex b i then some i else t h

/-- `len` is the length R222 computes at the decision point `i` with the table `T`. -/
def IsMatchLength (b : List Byte) (t : Nat → Option Nat) (i len : Nat) : Prop :=
  match if 4 ≤ i then t (contextIndex b i) else none with
  | none => len = 0
  | some p =>
    len ≤ 257 ∧ i + len ≤ b.length ∧ (∀ k, k < len → b.getD (p + k) 0 = b.getD (i + k) 0) ∧
      (len = 257 ∨ i + len = b.length ∨ b.getD (p + len) 0 ≠ b.getD (i + len) 0)

/-- `FilteredFrom b T i out`: from position `i` on with the table `T`, `flt_enc` outputs `out` (R222). -/
inductive FilteredFrom (b : List Byte) : (Nat → Option Nat) → Nat → List Byte → Prop where
  | done (t : Nat → Option Nat) : FilteredFrom b t b.length []
  | literal (t : Nat → Option Nat) (i len : Nat) (out : List Byte) :
      i < b.length → IsMatchLength b t i len → len < 3 → b.getD i 0 ≠ 0xFE →
      FilteredFrom b (noteContext b t i) (i + 1) out → FilteredFrom b t i (b.getD i 0 :: out)
  | stuffed (t : Nat → Option Nat) (i len : Nat) (out : List Byte) :
      i < b.length → IsMatchLength b t i len → len < 3 → b.getD i 0 = 0xFE →
      FilteredFrom b (noteContext b t i) (i + 1) out → FilteredFrom b t i (0xFE :: 0x00 :: out)
  | found (t : Nat → Option Nat) (i len : Nat) (out : List Byte) :
      i < b.length → IsMatchLength b t i len → 3 ≤ len →
      FilteredFrom b (noteContext b t i) (i + len) out →
      FilteredFrom b t i (0xFE :: BitVec.ofNat 8 (len - 2) :: out)

/-- `Unfiltered n T out s r`: with the table `T` and the output `out` so far, `flt_dec` reads the rest `s` of its input for
a block of `n` bytes and returns the block `r`, or raises (`none`), with one way for each refusal of R223
(44_prefilter.md). -/
inductive Unfiltered (n : Nat) : (Nat → Option Nat) → List Byte → List Byte → Option (List Byte) → Prop where
  | done (t : Nat → Option Nat) (out : List Byte) : out.length = n → Unfiltered n t out [] (some out)
  | outputShort (t : Nat → Option Nat) (out : List Byte) : out.length ≠ n → Unfiltered n t out [] none
  | inputLeft (t : Nat → Option Nat) (out : List Byte) (b : Byte) (s : List Byte) :
      n ≤ out.length → Unfiltered n t out (b :: s) none
  | literal (t : Nat → Option Nat) (out : List Byte) (b : Byte) (s : List Byte) (r : Option (List Byte)) :
      out.length < n → b ≠ 0xFE → Unfiltered n (noteContext out t out.length) (out ++ [b]) s r →
      Unfiltered n t out (b :: s) r
  | escapeAtEnd (t : Nat → Option Nat) (out : List Byte) : out.length < n → Unfiltered n t out [0xFE] none
  | stuffed (t : Nat → Option Nat) (out s : List Byte) (r : Option (List Byte)) :
      out.length < n → Unfiltered n (noteContext out t out.length) (out ++ [0xFE]) s r →
      Unfiltered n t out (0xFE :: 0x00 :: s) r
  | noPrediction (t : Nat → Option Nat) (out : List Byte) (c : Byte) (s : List Byte) :
      out.length < n → c ≠ 0 → (if 4 ≤ out.length then t (contextIndex out out.length) else none) = none →
      Unfiltered n t out (0xFE :: c :: s) none
  | pastEnd (t : Nat → Option Nat) (out : List Byte) (c : Byte) (s : List Byte) (p : Nat) :
      out.length < n → c ≠ 0 → (if 4 ≤ out.length then t (contextIndex out out.length) else none) = some p →
      n < out.length + (c.toNat + 2) → Unfiltered n t out (0xFE :: c :: s) none
  | copied (t : Nat → Option Nat) (out : List Byte) (c : Byte) (s : List Byte) (p : Nat) (more : List Byte)
      (r : Option (List Byte)) :
      out.length < n → c ≠ 0 → (if 4 ≤ out.length then t (contextIndex out out.length) else none) = some p →
      out.length + (c.toNat + 2) ≤ n → more.length = c.toNat + 2 →
      (∀ k, k < more.length → more.getD k 0 = (out ++ more).getD (p + k) 0) →
      Unfiltered n (noteContext out t out.length) (out ++ more) s r → Unfiltered n t out (0xFE :: c :: s) r

/-- `update(P, bit)` (45_entropy.md R240). -/
def updated (p : Nat) (bit : Bool) : Nat := if bit then p + (4096 - p) / 2 ^ 5 else p - p / 2 ^ 5

/-- The context model (R241) with every cell at `RC_PINIT`. -/
def freshCells : Ctx → Nat := fun _ => 2048

/-- The context model after the decision `bit` coded with cell `c`. -/
def adapted (cell : Ctx → Nat) (c : Ctx) (bit : Bool) : Ctx → Nat :=
  fun x => if x = c then updated (cell c) bit else cell x

/-- The decisions that code the low `n` bits of `v` in a bit tree, highest first: bit `j` with the node that is 1 followed
by the bits of `v` above `j` (R248). -/
def treeDecisions (mk : Nat → Ctx) (n v : Nat) : List (Ctx × Bool) :=
  (List.range n).reverse.map fun j => (mk (2 ^ (n - 1 - j) + v / 2 ^ (j + 1)), v / 2 ^ j % 2 == 1)

/-- The decisions of one token after a token of kind `prev`, with the cell of each (R248): for a run of `k`,
`e = bitlen(k) - 1` in a tree of five bits and then the `e` bits of `k` below its leading 1. -/
def tokenDecisions (prev : Bool) : Token → List (Ctx × Bool)
  | .lit r => (.flag prev, false) :: treeDecisions .lit 8 r.toNat
  | .run k =>
    (.flag prev, true) ::
      (treeDecisions .rlen 5 (Nat.log2 k) ++
        (List.range (Nat.log2 k)).reverse.map fun j => (.rbit j, k / 2 ^ j % 2 == 1))

/-- The decisions of a token list (R248); `prev` is 1 after a run. -/
def decisions : Bool → List Token → List (Ctx × Bool)
  | _, [] => []
  | prev, .lit r :: ts => tokenDecisions prev (.lit r) ++ decisions false ts
  | prev, .run k :: ts => tokenDecisions prev (.run k) ++ decisions true ts

/-- The encoder's registers (R242) and context model (R241). -/
structure Encoder where
  low   : Nat
  range : Nat
  cache : Nat
  csize : Nat
  cell  : Ctx → Nat

/-- The encoder at the start of an encode (R242). -/
def Encoder.start : Encoder := ⟨0, 0xFFFFFFFF, 0x00, 1, freshCells⟩

/-- The interval and the cells after `bit` is coded with cell `c`, before the renormalisation of R243: a 1 takes the lower
part of the interval, a 0 the upper part. -/
def Encoder.narrowed (e : Encoder) (c : Ctx) (bit : Bool) : Encoder :=
  let bound := e.range / 2 ^ 12 * e.cell c
  { e with
    low := if bit then e.low else e.low + bound
    range := if bit then bound else e.range - bound
    cell := adapted e.cell c bit }

/-- One `shift_low()` takes the encoder from `e` to `f` and outputs `out` (R244): the held-back bytes, each with the carry
added, or none while the next byte is `0xFF` and may still take a carry. -/
def ShiftsLow (e f : Encoder) (out : List Byte) : Prop :=
  f.range = e.range ∧ f.cell = e.cell ∧ f.low = e.low % 2 ^ 24 * 2 ^ 8 ∧
    if e.low % 2 ^ 32 < 0xFF000000 ∨ 2 ^ 32 ≤ e.low then
      f.cache = e.low / 2 ^ 24 % 2 ^ 8 ∧ f.csize = 1 ∧ out.length = e.csize ∧
        ∀ k, k < e.csize →
          (out.getD k 0).toNat = ((if k = 0 then e.cache else 0xFF) + e.low / 2 ^ 32) % 2 ^ 8
    else f.cache = e.cache ∧ f.csize = e.csize + 1 ∧ out = []

/-- The loop at the end of `encode_bit` (R243) takes the encoder from `e` to `f` and outputs `out`. -/
inductive Renormalises : Encoder → Encoder → List Byte → Prop where
  | done (e : Encoder) : 2 ^ 24 ≤ e.range → Renormalises e e []
  | shift (e f g : Encoder) (out more : List Byte) :
      e.range < 2 ^ 24 → ShiftsLow { e with range := e.range * 2 ^ 8 % 2 ^ 32 } f out → Renormalises f g more →
      Renormalises e g (out ++ more)

/-- Coding decisions, each with its cell, takes the encoder from `e` to `f` and outputs `out` (R243). -/
inductive Encodes : Encoder → List (Ctx × Bool) → Encoder → List Byte → Prop where
  | none (e : Encoder) : Encodes e [] e []
  | bit (e f g : Encoder) (c : Ctx) (b : Bool) (ds : List (Ctx × Bool)) (out more : List Byte) :
      Renormalises (e.narrowed c b) f out → Encodes f ds g more → Encodes e ((c, b) :: ds) g (out ++ more)

/-- `n` calls of `shift_low()` take the encoder from `e` to `f` and output `out` (R245). -/
inductive Flushes : Nat → Encoder → Encoder → List Byte → Prop where
  | done (e : Encoder) : Flushes 0 e e []
  | shift (n : Nat) (e f g : Encoder) (out more : List Byte) :
      ShiftsLow e f out → Flushes n f g more → Flushes (n + 1) e g (out ++ more)

/-- `p` is the payload of the token list `ts` (R248): what its decisions and the five `shift_low()` of R245 output. -/
def IsPayload (ts : List Token) (p : List Byte) : Prop :=
  ∃ e f body tail, Encodes Encoder.start (decisions false ts) e body ∧ Flushes 5 e f tail ∧ p = body ++ tail

/-- The decoder's registers (R246), its context model and the bytes it has not read. -/
structure Decoder where
  range : Nat
  code  : Nat
  cell  : Ctx → Nat
  rest  : List Byte

/-- `decoder_init()` on the payload `p` does not raise and leaves the decoder at `x` (R246). -/
def Starts (p : List Byte) (x : Decoder) : Prop :=
  ∃ (b c d e : Byte) (rest : List Byte), p = 0x00 :: b :: c :: d :: e :: rest ∧
    x = ⟨0xFFFFFFFF, b.toNat * 2 ^ 24 + c.toNat * 2 ^ 16 + d.toNat * 2 ^ 8 + e.toNat, freshCells, rest⟩ ∧
    x.code < x.range

/-- The interval, the code and the cells after the answer `bit` with cell `c`, before the loop of R247. -/
def Decoder.narrowed (x : Decoder) (c : Ctx) (bit : Bool) : Decoder :=
  let bound := x.range / 2 ^ 12 * x.cell c
  { x with
    code := if bit then x.code else x.code - bound
    range := if bit then bound else x.range - bound
    cell := adapted x.cell c bit }

/-- The loop at the end of `decode_bit` (R247) takes the decoder from `x` to `y`, and the bytes it reads are there. -/
inductive Refills : Decoder → Decoder → Prop where
  | done (x : Decoder) : 2 ^ 24 ≤ x.range → Refills x x
  | byte (x y : Decoder) (b : Byte) (rest : List Byte) :
      x.range < 2 ^ 24 → x.rest = b :: rest →
      Refills { x with
        range := x.range * 2 ^ 8 % 2 ^ 32, code := (x.code * 2 ^ 8 + b.toNat) % 2 ^ 32, rest := rest } y →
      Refills x y

/-- `decode_bit`, asked for the cells of some decisions in order, answers those decisions and takes the decoder from `x` to
`y` (R247). -/
inductive Answers : Decoder → List (Ctx × Bool) → Decoder → Prop where
  | none (x : Decoder) : Answers x [] x
  | bit (x y z : Decoder) (c : Ctx) (b : Bool) (ds : List (Ctx × Bool)) :
      (b = true ↔ x.code < x.range / 2 ^ 12 * x.cell c) → Refills (x.narrowed c b) y → Answers y ds z →
      Answers x ((c, b) :: ds) z

/-- The decoder on the payload `p` answers the decisions of the tokens `ts` first, and `rest` is unread then: the loop of
45_entropy.md R249 asks for the cells of R248 in R248's order, and its tokens are those whose decisions it gets. -/
def ReadsTokens (p : List Byte) (ts : List Token) (rest : List Byte) : Prop :=
  ∃ x y, Starts p x ∧ Answers x (decisions false ts) y ∧ y.rest = rest

/-- `rc_decode_tokens(p, m)` has written the tokens `ts`, of no more than `m` ranks, and has not raised yet (R249). -/
def HasDecoded (p : List Byte) (m : Nat) (ts : List Token) : Prop :=
  TokensOk ts ∧ (expand ts).length ≤ m ∧ ∃ rest, ReadsTokens p ts rest

/-- `rc_decode_tokens(p, m)` returns the tokens `ts` (R249): `m` ranks, and every byte read. -/
def Decodes (p : List Byte) (m : Nat) (ts : List Token) : Prop :=
  TokensOk ts ∧ (expand ts).length = m ∧ ReadsTokens p ts []

/-- One of the eight rounds of 46_codec.md R270. -/
def crcBit (c : Word) : Word := if c.toNat % 2 = 1 then (c >>> 1) ^^^ 0xEDB88320 else c >>> 1

/-- `c = crc32(s)` (R270): `reg k` is the register after `k` bytes. -/
def IsCrc32 (s : List Byte) (c : Word) : Prop :=
  ∃ reg : Nat → Word, reg 0 = 0xFFFFFFFF ∧
    (∀ k, k < s.length → reg (k + 1) = crcBit^[8] (reg k ^^^ BitVec.ofNat 32 (s.getD k 0).toNat)) ∧
    c = reg s.length ^^^ 0xFFFFFFFF

/-- The `u32` at offset `o` of a byte string (00_scope.md R16). -/
def wordAt (e : List Byte) (o : Nat) : Nat :=
  (e.getD o 0).toNat + (e.getD (o + 1) 0).toNat * 2 ^ 8 + (e.getD (o + 2) 0).toNat * 2 ^ 16 +
    (e.getD (o + 3) 0).toNat * 2 ^ 24

/-- The code of the first check of 46_codec.md R274 that the Encoded Block `e` fails before its payload is decoded, in
the order of R274; `none` when all pass. -/
def headerError (maxBlock cap : Nat) (e : List Byte) : Option Byte :=
  if e.length < 28 then some 0x03
  else if e.take 3 ≠ [0x42, 0x53, 0x43] ∨ e.getD 3 0 ≠ 0x01 then some 0x02
  else if 1 < (e.getD 4 0).toNat ∨ e.getD 5 0 ≠ 0 ∨ e.getD 6 0 ≠ 0 ∨ e.getD 7 0 ≠ 0 then some 0x02
  else if e.length < 28 + wordAt e 24 then some 0x03
  else if wordAt e 8 = 0 then some 0x03
  else if maxBlock < wordAt e 8 then some 0x04
  else if cap < wordAt e 8 then some 0x04
  else if e.getD 4 0 = 0x01 ∧ (wordAt e 12 = 0 ∨ wordAt e 8 ≤ wordAt e 12) then some 0x03
  else if e.getD 4 0 = 0x00 ∧ wordAt e 12 ≠ wordAt e 8 then some 0x03
  else if wordAt e 12 ≤ wordAt e 16 then some 0x03
  else none

/-- The end of R274 for the restored block `b`: it is written when its checksum is the header's, else the stream is
corrupt. -/
def EndsWith (i : Instr) (s : State) (a : Nat) (e b : List Byte) : Prop :=
  ∃ c, IsCrc32 b c ∧
    (c.toNat = wordAt e 20 → Succeeds i s a b (BitVec.ofNat 32 (28 + wordAt e 24))) ∧
    (c.toNat ≠ wordAt e 20 → Fails i s 0x03)

/-! ### Registers -/

/-- The two states agree on everything the spec gives the machine: registers, flags, latches and every byte of
memory. The model's own fields may differ. -/
def SameMachine (t u : State) : Prop :=
  t.busy = u.busy ∧ t.done = u.done ∧ t.err = u.err ∧ t.errCode = u.errCode ∧ t.errOp = u.errOp ∧
    t.irqEn = u.irqEn ∧ t.cmdPtr = u.cmdPtr ∧ t.result0 = u.result0 ∧ t.result1 = u.result1 ∧
    t.errAddr = u.errAddr ∧ t.cmdCount = u.cmdCount ∧ t.caps = u.caps ∧ t.bufSize = u.bufSize ∧
    t.d = u.d ∧ ∀ x, t.mem.byte x = u.mem.byte x

/-- Every register and flag at the value of 10_state.md R41, the parameters `caps` and `size` aside. -/
def AtReset (s : State) : Prop :=
  s.busy = false ∧ s.done = false ∧ s.err = false ∧ s.errCode = 0 ∧ s.errOp = 0 ∧ s.irqEn = false ∧
    s.cmdPtr = 0 ∧ s.result0 = 0 ∧ s.result1 = 0 ∧ s.errAddr = 0 ∧ s.cmdCount = 0

/-- The host's next action is `a`. -/
def HostDoes (s : State) (a : HostAction) : Prop := ∃ rest, s.host = a :: rest

/-- The engine moves next, the host having nothing to do or waiting for one turn, and the run is not one that a host
write leaves unspecified (70_reset_and_hazards.md R345). -/
def EngineMoves (s : State) : Prop :=
  (s.host = [] ∨ ∃ rest, s.host = .engineTurn :: rest) ∧ s.affectedRun = false

/-- The host does nothing from here on, and has not disturbed the run. -/
def HostSilent (s : State) : Prop := (∀ a, a ∈ s.host → a = .engineTurn) ∧ s.affectedRun = false

/-- A byte lies in one of some regions. -/
def InOne (rs : List Region) (x : Nat) : Prop := ∃ r, r ∈ rs ∧ Within r.addr r.len x

/-- The command at `pc` when its fetch succeeds and its descriptor is legal (40_sequencer.md R132). -/
def CommandAt (s : State) (i : Instr) : Prop :=
  s.cmdPtr.toNat % 4 = 0 ∧ s.cmdPtr.toNat + 32 ≤ s.bufSize.toNat ∧
    decode (s.mem.read s.cmdPtr.toNat 32) = .ok i

/-- The legal values of OPCODE (30_encoding.md R95). -/
def opcodes : List Byte :=
  [0x00, 0x01, 0x02, 0x10, 0x11, 0x18, 0x19, 0x20, 0x21, 0x22, 0x23, 0x30, 0x31, 0x38, 0x39, 0x40, 0x41, 0x42]

/-- A descriptor is illegal (30_encoding.md R96). -/
def Illegal (d : Desc) : Prop :=
  d.opcode ∉ opcodes ∨ d.rsvd ≠ 0 ∨
    (if d.opcode = 0x18 ∨ d.opcode = 0x41 then d.flags &&& 0xFE ≠ 0 else d.flags ≠ 0)

/-- The words a command uses (30_encoding.md R93). -/
def usesSrc (op : Byte) : Bool := 0x10 ≤ op.toNat

/-- DST_ADDR and DST_CAP (R93). -/
def usesDst (op : Byte) : Bool := 0x10 ≤ op.toNat && op != 0x11 && op != 0x40

/-- AUX_ADDR (R93). -/
def usesAux (op : Byte) : Bool := op == 0x11 || op == 0x18

/-- PARAM0 (R93). -/
def usesParam0 (op : Byte) : Bool := op == 0x02 || op == 0x19 || op == 0x31 || op == 0x39

/-- Whether the command reads a suffix-order array (R93, R94). -/
def readsOrder : Instr → Bool
  | .saCheck _ _ => true
  | .bwtFwd internal _ _ _ => !internal
  | _ => false

/-- NOP, HALT and JUMP. -/
def IsControl (i : Instr) : Prop := i = .nop ∨ i = .halt ∨ ∃ a, i = .jump a

/-- The codes a command can raise once it is fetched and legal (60_exceptions.md R301). -/
def raises : Instr → List Byte
  | .nop => []
  | .halt => []
  | .jump _ => []
  | .sort _ _ => [0x01, 0x04, 0x11]
  | .saCheck _ _ => [0x01, 0x03, 0x11]
  | .bwtFwd _ _ _ _ => [0x01, 0x04, 0x11]
  | .bwtInv _ _ _ => [0x01, 0x04, 0x11]
  | .mtfEnc _ _ => [0x01, 0x04, 0x11]
  | .mtfDec _ _ => [0x01, 0x04, 0x11]
  | .rleEnc _ _ => [0x01, 0x04, 0x11]
  | .rleDec _ _ => [0x01, 0x03, 0x04, 0x11]
  | .fltEnc _ _ => [0x01, 0x04, 0x11]
  | .fltDec _ _ _ => [0x01, 0x03, 0x04, 0x11]
  | .rcEnc _ _ => [0x01, 0x04, 0x11]
  | .rcDec _ _ _ => [0x01, 0x03, 0x04, 0x11]
  | .crc32 _ => [0x11]
  | .compress _ _ _ => [0x01, 0x04, 0x11]
  | .decompress _ _ => [0x01, 0x02, 0x03, 0x04, 0x11]

/-- `n` steps of the machine. -/
def after : Nat → State → Option State
  | 0, s => some s
  | n + 1, s =>
    match step s with
    | .next t => after n t
    | .fault _ => none
    | .refused _ => none

end Sys2Proof.Claims

open Sys2Proof Sys2Proof.Machine Sys2Proof.Claims

/-! ### Encoding -/

/-- 30_encoding.md R90 to R95: the descriptor of every command, with every operand at every value, decodes to that
command. -/
def Obligations.DecodeEncodeAgree : Prop := ∀ i : Instr, decode (encode i) = .ok i

/-- 30_encoding.md R95: the decoder takes exactly the descriptors whose word 0 some row of the opcode map matches under
its mask. -/
def Obligations.LegalWhenARowMatches : Prop :=
  ∀ d : Desc, (∃ i, decodeDesc d = .ok i) ↔ ∃ r, r ∈ opcodeMap ∧ d.word0 &&& r.mask = r.value

/-- Word 0 written out from 30_encoding.md R95 for each command, and three whole descriptors with distinct operands. -/
def Obligations.WrittenOutWordsDecode : Prop :=
  decodeTableWord 32 0x00000000 = some .nop ∧
  decodeTableWord 32 0x00000001 = some .halt ∧
  decodeTableWord 32 0x00000002 = some (.jump 0) ∧
  decodeTableWord 32 0x00000010 = some (.sort ⟨0, 0⟩ ⟨0, 0⟩) ∧
  decodeTableWord 32 0x00000011 = some (.saCheck ⟨0, 0⟩ 0) ∧
  decodeTableWord 32 0x00000118 = some (.bwtFwd true ⟨0, 0⟩ ⟨0, 0⟩ 0) ∧
  decodeTableWord 32 0x00000020 = some (.mtfEnc ⟨0, 0⟩ ⟨0, 0⟩) ∧
  decodeTableWord 32 0x00000023 = some (.rleDec ⟨0, 0⟩ ⟨0, 0⟩) ∧
  decodeTableWord 32 0x00000030 = some (.fltEnc ⟨0, 0⟩ ⟨0, 0⟩) ∧
  decodeTableWord 32 0x00000038 = some (.rcEnc ⟨0, 0⟩ ⟨0, 0⟩) ∧
  decodeTableWord 32 0x00000141 = some (.compress true ⟨0, 0⟩ ⟨0, 0⟩) ∧
  decodeTableWord 32 0x00000120 = none ∧
  decodeTableWord 32 0x000000FF = none ∧
  decodeTableWord 32 0x00010000 = none ∧
  decode [0x18, 0, 0, 0, 0x01, 0x02, 0, 0, 6, 0, 0, 0, 0x04, 0x03, 0, 0, 7, 0, 0, 0, 0x08, 0x09, 0, 0, 0, 0, 0, 0, 0, 0, 0, 0] =
    .ok (.bwtFwd false ⟨0x201, 6⟩ ⟨0x304, 7⟩ 0x908) ∧
  decode [0x02, 0, 0, 0, 0, 0, 0, 0, 0, 0, 0, 0, 0, 0, 0, 0, 0, 0, 0, 0, 0, 0, 0, 0, 0x78, 0x56, 0x34, 0x12, 0, 0, 0, 0] =
    .ok (.jump 0x12345678) ∧
  decode [0x39, 0, 0, 0, 1, 0, 0, 0, 2, 0, 0, 0, 3, 0, 0, 0, 4, 0, 0, 0, 5, 0, 0, 0, 6, 0, 0, 0, 7, 0, 0, 0] =
    .ok (.rcDec ⟨1, 2⟩ ⟨3, 4⟩ 6)

/-- 30_encoding.md R97: descriptors that agree on word 0 and on the words R93 says the command uses are the same
command; BWT_FWD with INTERNAL_SORT does not depend on AUX_ADDR. -/
def Obligations.IgnoredWordsHaveNoEffect : Prop :=
  (∀ d e : Desc, d.opcode = e.opcode → d.flags = e.flags → d.rsvd = e.rsvd →
    (usesSrc d.opcode = true → d.srcAddr = e.srcAddr ∧ d.srcLen = e.srcLen) →
    (usesDst d.opcode = true → d.dstAddr = e.dstAddr ∧ d.dstCap = e.dstCap) →
    (usesAux d.opcode = true → d.auxAddr = e.auxAddr) →
    (usesParam0 d.opcode = true → d.param0 = e.param0) →
    decodeDesc d = decodeDesc e) ∧
  ∀ src dst a b s, exec (.bwtFwd true src dst a) s = exec (.bwtFwd true src dst b) s

/-- 20_memory.md R62: a `u32` in buffer memory is little-endian. -/
def Obligations.WordsAreLittleEndian : Prop :=
  (∀ (m : Memory) (a : Nat),
    (m.read32 a).toNat =
      (m.byte a).toNat + (m.byte (a + 1)).toNat * 2 ^ 8 + (m.byte (a + 2)).toNat * 2 ^ 16 +
        (m.byte (a + 3)).toNat * 2 ^ 24) ∧
  ∀ (m : Memory) (a : Nat) (w : Word),
    (m.write a (le32 w)).read32 a = w ∧ ((m.write a (le32 w)).byte a).toNat = w.toNat % 256

/-! ### The command cycle -/

/-- 40_sequencer.md R132, with the descriptor latched (30_encoding.md R92) and the model's record of the run (log
entry 6) extended by the regions the command reads and writes: a fetch error, an illegal descriptor, or the command
at `pc`. The host waits: it has no action left, or its next one is a turn for the engine, which the step takes off. -/
def Obligations.StepRunsTheDecodedCommand : Prop :=
  ∀ s : State, s.busy = true → EngineMoves s →
    (s.cmdPtr.toNat % 4 ≠ 0 ∨ s.bufSize.toNat < s.cmdPtr.toNat + 32 →
      step s =
        .next { s with
          host := s.host.tail
          busy := false, err := true, errCode := 0x11, errOp := 0xFF, errAddr := s.cmdPtr }) ∧
    (s.cmdPtr.toNat % 4 = 0 → s.cmdPtr.toNat + 32 ≤ s.bufSize.toNat →
      let d := Desc.ofBytes (s.mem.read s.cmdPtr.toNat 32)
      (∀ e, decode (s.mem.read s.cmdPtr.toNat 32) = .error e →
        step s =
          .next { s with
            host := s.host.tail
            d := d, busy := false, err := true, errCode := 0x10, errOp := d.opcode
            errAddr := s.cmdPtr }) ∧
      ∀ i, decode (s.mem.read s.cmdPtr.toNat 32) = .ok i →
        step s =
          exec i { s with
            host := s.host.tail
            d := d
            runReads := ⟨s.cmdPtr.toNat, 32⟩ :: (s.readBy i ++ s.runReads)
            runWrites := s.writtenBy i :: s.runWrites
            runDests := destination i :: s.runDests })

/-- 30_encoding.md R96: which descriptors are illegal, and that executing one raises ILLEGAL_COMMAND with no other
effect. -/
def Obligations.IllegalDescriptorsTrap : Prop :=
  ∀ s : State, s.busy = true → EngineMoves s → s.cmdPtr.toNat % 4 = 0 →
    s.cmdPtr.toNat + 32 ≤ s.bufSize.toNat →
    let d := Desc.ofBytes (s.mem.read s.cmdPtr.toNat 32)
    (Illegal d →
      ∃ t, step s = .next t ∧
        SameMachine t { s with
          d := d, busy := false, err := true, errCode := 0x10, errOp := d.opcode, errAddr := s.cmdPtr }) ∧
    (¬Illegal d → ∃ i, CommandAt s i ∧ (encodeDesc i).opcode = d.opcode)

/-- 40_sequencer.md R130: an idle engine takes no step, and a run ends only by HALT, by an error or by a reset. A run that
a host write affects may end as if by HALT (70_reset_and_hazards.md R345, log entry 6). -/
def Obligations.RunEndsOnlyAsSpecified : Prop :=
  (∀ s : State, s.busy = false → EngineMoves s → step s = .next { s with host := s.host.tail }) ∧
  ∀ s t : State, s.busy = true → step s = .next t → t.busy = false →
    (t.done = true ∧ (CommandAt s .halt ∨ s.affectedRun = true)) ∨ t.err = true ∨
      (∃ v : Word, HostDoes s (.writeReg 0x04 4 v) ∧ v.getLsbD 1 = true) ∨ HostDoes s .hardReset

/-- 70_reset_and_hazards.md R343: only a host write of START, without SOFT_RESET, ever makes an idle engine run, and the
run starts at the CMD_PTR the host left. -/
def Obligations.OnlyStartBeginsARun : Prop :=
  ∀ s t : State, s.busy = false → step s = .next t → t.busy = true →
    t.cmdPtr = s.cmdPtr ∧
      ∃ v : Word, HostDoes s (.writeReg 0x04 4 v) ∧ v.getLsbD 0 = true ∧ v.getLsbD 1 = false

/-- 40_sequencer.md R142 and R137: a JUMP to itself runs for ever, counting each time. -/
def Obligations.JumpToItselfNeverEnds : Prop :=
  ∀ (s : State) (n : Nat), s.busy = true → HostSilent s → CommandAt s (.jump s.cmdPtr) →
    ∃ t, after n s = some t ∧ t.busy = true ∧ t.err = s.err ∧ t.done = s.done ∧ t.cmdPtr = s.cmdPtr ∧
      t.cmdCount = s.cmdCount + BitVec.ofNat 32 n ∧ t.mem = s.mem

/-! ### Invariants -/

/-- Every step keeps the invariant `State.Inv` (Safety.lean): BUSY excludes DONE and ERR, DONE excludes ERR, ERR_CODE
and ERR_OP are 0 without an error and a code of R300 with one, memory stays inside the buffer, and the parameters
keep their ranges. Two clauses are the model's own: memory keeps the canonical form of log entry 3, and while BUSY = 1
the field `synced` of log entry 6 is false. -/
def Obligations.StepKeepsTheInvariant : Prop :=
  ∀ s t : State, s.Inv → step s = .next t → t.Inv

/-- 10_state.md R41 and 20_memory.md R80: the reset state has the spec's reset values and no written memory, and meets
the invariant. -/
def Obligations.ResetStateMeetsTheInvariant : Prop :=
  AtReset State.reset ∧ State.reset.mem = [] ∧ State.reset.irq = false ∧ State.reset.Inv

/-- 10_state.md R29 and R30: CAPS and BUF_SIZE are constant. -/
def Obligations.ParametersNeverChange : Prop :=
  ∀ s t : State, step s = .next t → t.caps = s.caps ∧ t.bufSize = s.bufSize

/-- 10_state.md R28: ERR_ADDR takes the `pc` of a failing command, is cleared by a reset, and never changes otherwise. Only
in a run that a host write affects is that `pc` not the one before the step (70_reset_and_hazards.md R345, log
entry 6). -/
def Obligations.ErrAddrChangesOnlyByErrorOrReset : Prop :=
  ∀ s t : State, step s = .next t →
    t.errAddr = s.errAddr ∨
    (s.busy = true ∧ t.busy = false ∧ t.err = true ∧ t.errAddr = t.cmdPtr ∧
      (t.cmdPtr = s.cmdPtr ∨ s.affectedRun = true)) ∨
    (t.errAddr = 0 ∧
      (HostDoes s .hardReset ∨ ∃ v : Word, HostDoes s (.writeReg 0x04 4 v) ∧ v.getLsbD 1 = true))

/-! ### Every command -/

/-- 40_sequencer.md R134: a command that fails writes ERR_CODE, ERR_OP, ERR_ADDR, BUSY and ERR, keeps every other
register, and the code is one of 60_exceptions.md R300; bytes outside its destination keep their values
(20_memory.md R69). -/
def Obligations.FailureIsPrecise : Prop :=
  ∀ (i : Instr) (s t : State), s.err = false → exec i s = .next t → t.err = true →
    t.errCode ∈ ([0x01, 0x02, 0x03, 0x04, 0x11] : List Byte) ∧ Fails i s t.errCode

/-- 60_exceptions.md R301: the codes each command can raise. -/
def Obligations.ErrorCodesOfEachCommand : Prop :=
  ∀ (i : Instr) (s t : State), s.err = false → exec i s = .next t → t.err = true → t.errCode ∈ raises i

/-- 20_memory.md R68 and R69: every command ends in a next state, success or failure, and changes no byte outside its
destination region; a command without one changes no byte. -/
def Obligations.OnlyTheDestinationChanges : Prop :=
  ∀ (i : Instr) (s : State), ∃ t, exec i s = .next t ∧
    ∀ x, ¬Within (dstAddr i) (dstCap i) x → t.mem.byte x = s.mem.byte x

/-- 40_sequencer.md R133: what completion does to the registers; a data command that completes also keeps the bytes of
its destination past RESULT0 (20_memory.md R68). -/
def Obligations.CompletionCountsAndAdvances : Prop :=
  ∀ (i : Instr) (s t : State), s.err = false → exec i s = .next t → t.err = false →
    SameMachine t { s with
      cmdCount := s.cmdCount + 1
      cmdPtr := (match i with | .jump a => a | _ => s.cmdPtr + 32)
      busy := s.busy && !decide (i = .halt)
      done := s.done || decide (i = .halt)
      result0 := t.result0, result1 := t.result1, mem := t.mem } ∧
    (IsControl i → t.result0 = s.result0 ∧ t.result1 = s.result1 ∧ t.mem = s.mem) ∧
    (¬IsControl i → t.result0.toNat ≤ dstCap i ∧
      ∀ x, ¬Within (dstAddr i) t.result0.toNat x → t.mem.byte x = s.mem.byte x)

/-- 40_sequencer.md R139: the first check that fails, in the order of R139, is the error the command reports. -/
def Obligations.ChecksFailInOrder : Prop := ∀ (i : Instr) (s : State), ChecksRaise i s

/-- 20_memory.md R63: what a data command does depends on memory only through its source region and its suffix-order
region, and on registers only through the two parameters. -/
def Obligations.CommandsReadOnlyTheirSources : Prop :=
  ∀ (i : Instr) (s u t v : State), 0x10 ≤ (encodeDesc i).opcode.toNat →
    s.caps = u.caps → s.bufSize = u.bufSize → s.err = false → u.err = false →
    (∀ x, Within (encodeDesc i).srcAddr.toNat (encodeDesc i).srcLen.toNat x → s.mem.byte x = u.mem.byte x) →
    (readsOrder i = true →
      ∀ x, Within (encodeDesc i).auxAddr.toNat (4 * (encodeDesc i).srcLen.toNat) x →
        s.mem.byte x = u.mem.byte x) →
    exec i s = .next t → exec i u = .next v →
    t.err = v.err ∧ (t.err = true → t.errCode = v.errCode) ∧
      (t.err = false → t.result0 = v.result0 ∧ t.result1 = v.result1 ∧
        ∀ x, Within (dstAddr i) t.result0.toNat x → t.mem.byte x = v.mem.byte x)

/-! ### Control commands -/

/-- 40_sequencer.md R135. -/
def Obligations.NopOnlyCountsAndAdvances : Prop :=
  ∀ s : State, exec .nop s = .next { s with cmdPtr := s.cmdPtr + 32, cmdCount := s.cmdCount + 1 }

/-- 40_sequencer.md R136. -/
def Obligations.HaltStopsTheSequencer : Prop :=
  ∀ s : State, exec .halt s =
    .next { s with
      cmdPtr := s.cmdPtr + 32, cmdCount := s.cmdCount + 1, busy := false, done := true }

/-- 40_sequencer.md R137: JUMP takes any target, and a bad one is the next fetch's error. -/
def Obligations.JumpTakesItsTargetUnchecked : Prop :=
  (∀ (a : Word) (s : State), exec (.jump a) s = .next { s with cmdPtr := a, cmdCount := s.cmdCount + 1 }) ∧
  ∀ (a : Word) (s : State), s.busy = true → HostSilent s →
    (a.toNat % 4 ≠ 0 ∨ s.bufSize.toNat < a.toNat + 32) → CommandAt s (.jump a) →
    ∃ t, after 2 s = some t ∧ t.busy = false ∧ t.err = true ∧ t.errCode = 0x11 ∧ t.errOp = 0xFF ∧
      t.errAddr = a ∧ t.cmdCount = s.cmdCount + 1

/-! ### Suffix sorter -/

/-- 41_suffix_sort.md R152, with the order of R150 and the array of 30_encoding.md R105. -/
def Obligations.SortWritesTheSuffixOrder : Prop :=
  ∀ (src dst : Span) (s : State), ChecksRaise (.sort src dst) s ∧
    (firstError (.sort src dst) s = none →
      ∃ sa, IsSuffixOrder (s.source src) sa ∧ (orderBytes sa).length = 4 * src.len.toNat ∧
        Succeeds (.sort src dst) s dst.addr.toNat (orderBytes sa) 0)

/-- 41_suffix_sort.md R153: SA_CHECK completes when the array is the suffix order, and raises CorruptStream when it is
not. -/
def Obligations.SaCheckVerifiesTheSuffixOrder : Prop :=
  ∀ (src : Span) (aux : Word) (s : State), ChecksRaise (.saCheck src aux) s ∧
    (firstError (.saCheck src aux) s = none →
      (IsSuffixOrder (s.source src) (orderIn s aux src.len.toNat) →
        SucceedsQuietly (.saCheck src aux) s 0) ∧
      (¬IsSuffixOrder (s.source src) (orderIn s aux src.len.toNat) → Fails (.saCheck src aux) s 0x03))

/-- 41_suffix_sort.md R151: the checks of SA_CHECK accept exactly the order that SORT computes. -/
def Obligations.SaCheckAcceptsExactlyWhatSortWrites : Prop :=
  ∀ (b : List Byte) (a : List Nat), a.length = b.length →
    ((isPermutation b.length [] a && inSuffixOrder b a) = true ↔ a = suffixOrder b)

/-! ### Block transform -/

/-- 42_bwt.md R172 with the functions of R170 and 41_suffix_sort.md R150. -/
def Obligations.BwtFwdWritesTheTransform : Prop :=
  ∀ (src dst : Span) (aux : Word) (s : State),
    (ChecksRaise (.bwtFwd true src dst aux) s ∧
      (firstError (.bwtFwd true src dst aux) s = none →
        ∃ sa l p, IsSuffixOrder (s.source src) sa ∧ IsBwt (s.source src) sa l p ∧
          Succeeds (.bwtFwd true src dst aux) s dst.addr.toNat l (BitVec.ofNat 32 p))) ∧
    (ChecksRaise (.bwtFwd false src dst aux) s ∧
      (firstError (.bwtFwd false src dst aux) s = none →
        ((∃ x, x ∈ orderIn s aux src.len.toNat ∧ src.len.toNat ≤ x) →
          Fails (.bwtFwd false src dst aux) s 0x01) ∧
        ((∀ x, x ∈ orderIn s aux src.len.toNat → x ≠ 0) → Fails (.bwtFwd false src dst aux) s 0x01) ∧
        ((∀ x, x ∈ orderIn s aux src.len.toNat → x < src.len.toNat) →
          0 ∈ orderIn s aux src.len.toNat →
          ∃ l p, IsBwt (s.source src) (orderIn s aux src.len.toNat) l p ∧
            Succeeds (.bwtFwd false src dst aux) s dst.addr.toNat l (BitVec.ofNat 32 p))))

/-- 42_bwt.md R173 with the walk of R171. -/
def Obligations.BwtInvWritesTheBlock : Prop :=
  ∀ (src dst : Span) (p : Word) (s : State), ChecksRaise (.bwtInv src dst p) s ∧
    (firstError (.bwtInv src dst p) s = none →
      ∃ b, IsInverseBwt (s.source src) p.toNat b ∧ Succeeds (.bwtInv src dst p) s dst.addr.toNat b 0)

/-- 42_bwt.md R174: the inverse transform undoes the transform, for every block, periodic ones included. -/
def Obligations.BwtRoundTrip : Prop :=
  ∀ b : List Byte, 1 ≤ b.length →
    bwtInverse (bwtForward b (suffixOrder b)).1 (bwtForward b (suffixOrder b)).2 = b

/-! ### Rank/Run stage -/

/-- 43_rank_run.md R193 with R190 and R191. -/
def Obligations.MtfEncWritesTheRanks : Prop :=
  ∀ (src dst : Span) (s : State), ChecksRaise (.mtfEnc src dst) s ∧
    (firstError (.mtfEnc src dst) s = none →
      ∃ r, IsMtf (s.source src) r ∧ Succeeds (.mtfEnc src dst) s dst.addr.toNat r 0)

/-- 43_rank_run.md R194. -/
def Obligations.MtfDecWritesTheBytes : Prop :=
  ∀ (src dst : Span) (s : State), ChecksRaise (.mtfDec src dst) s ∧
    (firstError (.mtfDec src dst) s = none →
      ∃ x, IsMtf x (s.source src) ∧ Succeeds (.mtfDec src dst) s dst.addr.toNat x 0)

/-- 43_rank_run.md R192, last sentence: encoder and decoder are inverse to each other. -/
def Obligations.MtfRoundTrip : Prop :=
  ∀ s : List Byte, mtfDecode (mtfEncode s) = s ∧ mtfEncode (mtfDecode s) = s

/-- 43_rank_run.md R197 with R195: the canonical token stream of the ranks, or CapacityExceeded when it does not
fit. -/
def Obligations.RleEncWritesTheCanonicalStream : Prop :=
  ∀ (src dst : Span) (s : State), ChecksRaise (.rleEnc src dst) s ∧
    (firstError (.rleEnc src dst) s = none →
      ∃ ts, TokensOk ts ∧ Canonical ts ∧ expand ts = s.source src ∧
        ((tokenBytes ts).length ≤ dst.len.toNat →
          Succeeds (.rleEnc src dst) s dst.addr.toNat (tokenBytes ts) (BitVec.ofNat 32 ts.length)) ∧
        (dst.len.toNat < (tokenBytes ts).length → Fails (.rleEnc src dst) s 0x04))

/-- 43_rank_run.md R198: the expansion of every token stream, canonical or not; CorruptStream at a malformed token
whose prefix fits; CapacityExceeded when a prefix does not fit. -/
def Obligations.RleDecWritesTheExpansion : Prop :=
  ∀ (src dst : Span) (s : State) (ts : List Token), TokensOk ts → ChecksRaise (.rleDec src dst) s ∧
    (firstError (.rleDec src dst) s = none →
      (s.source src = tokenBytes ts → (expand ts).length ≤ dst.len.toNat →
        Succeeds (.rleDec src dst) s dst.addr.toNat (expand ts) 0) ∧
      (∀ bad, Malformed bad → s.source src = tokenBytes ts ++ bad →
        (expand ts).length ≤ dst.len.toNat → Fails (.rleDec src dst) s 0x03) ∧
      (∀ rest, s.source src = tokenBytes ts ++ rest → dst.len.toNat < (expand ts).length →
        Fails (.rleDec src dst) s 0x04))

/-- 43_rank_run.md R196, last sentence: decoding the encoder's stream gives the ranks back. -/
def Obligations.RleRoundTrip : Prop :=
  ∀ r : List Byte, r.length < 2 ^ 32 → rleDecode (rleEncode r).1 = .ok r

/-! ### Pre-filter -/

/-- 44_prefilter.md R224, with the loop of R222. -/
def Obligations.FltEncWritesTheFilteredBlock : Prop :=
  ∀ (src dst : Span) (s : State), ChecksRaise (.fltEnc src dst) s ∧
    (firstError (.fltEnc src dst) s = none →
      ∃ f, FilteredFrom (s.source src) (fun _ => none) 0 f ∧
        (f.length ≤ dst.len.toNat → Succeeds (.fltEnc src dst) s dst.addr.toNat f 0) ∧
        (dst.len.toNat < f.length → Fails (.fltEnc src dst) s 0x04))

/-- 44_prefilter.md R225 with the loop of R223: FLT_DEC writes the block that `flt_dec` returns, and raises CorruptStream
at an escape at the end, a match with no prediction, a match past `n`, input left over, or an output too short. The
last two clauses tie the model's function to that. -/
def Obligations.FltDecWritesTheBlock : Prop :=
  ∀ (src dst : Span) (n : Word) (s : State), ChecksRaise (.fltDec src dst n) s ∧
    (firstError (.fltDec src dst n) s = none →
      (∃ r, Unfiltered n.toNat (fun _ => none) [] (s.source src) r) ∧
      (∀ b, Unfiltered n.toNat (fun _ => none) [] (s.source src) (some b) →
        b.length = n.toNat ∧ Succeeds (.fltDec src dst n) s dst.addr.toNat b 0) ∧
      (Unfiltered n.toNat (fun _ => none) [] (s.source src) none → Fails (.fltDec src dst n) s 0x03) ∧
      (∀ b, fltDecode (s.source src) n.toNat = .ok b →
        b.length = n.toNat ∧ Succeeds (.fltDec src dst n) s dst.addr.toNat b 0) ∧
      (∀ e, fltDecode (s.source src) n.toNat = .error e → Fails (.fltDec src dst n) s 0x03))

/-- 44_prefilter.md R223, last sentence: the decoder undoes the filter for every block. -/
def Obligations.FilterRoundTrip : Prop :=
  ∀ b : List Byte, fltDecode (fltEncode b) b.length = .ok b

/-- 44_prefilter.md R227: the size bounds of the filter. -/
def Obligations.FilterSizeBounds : Prop :=
  ∀ b : List Byte, 1 ≤ b.length → 1 ≤ (fltEncode b).length ∧ (fltEncode b).length ≤ 2 * b.length

/-! ### Entropy coder -/

/-- 45_entropy.md R240: the update of a cell, and that a cell that starts at 2048 stays in `[31, 4065]` whatever is coded
with it. -/
def Obligations.ProbabilityStaysInRange : Prop :=
  (∀ (p : Nat) (bit : Bool), updateProb p bit = updated p bit) ∧
  ∀ bits : List Bool, 31 ≤ bits.foldl updated 2048 ∧ bits.foldl updated 2048 ≤ 4065

/-- 45_entropy.md R250 with the coder of R240 to R245 and R248: the payload of a token stream whose rank count is in
range; for a rank count that passes MAX_BLOCK_SIZE with the token `t`, InvalidInput when what is output up to and
including `t` fits, CapacityExceeded when it does not; InvalidInput for a malformed stream. `rcEncode` is the model's
function. -/
def Obligations.RcEncWritesThePayload : Prop :=
  ∀ (src dst : Span) (s : State) (ts : List Token), TokensOk ts → ChecksRaise (.rcEnc src dst) s ∧
    (firstError (.rcEnc src dst) s = none →
      (s.source src = tokenBytes ts → (expand ts).length ≤ s.caps.toNat →
        ∃ p, IsPayload ts p ∧ rcEncode s.caps.toNat none ts = .ok (p, (expand ts).length) ∧ 5 ≤ p.length ∧
          (p.length ≤ dst.len.toNat →
            Succeeds (.rcEnc src dst) s dst.addr.toNat p (BitVec.ofNat 32 (expand ts).length)) ∧
          (dst.len.toNat < p.length → Fails (.rcEnc src dst) s 0x04)) ∧
      (∀ (pre post : List Token) (t : Token), s.source src = tokenBytes ts → ts = pre ++ t :: post →
        (expand pre).length ≤ s.caps.toNat → s.caps.toNat < (expand (pre ++ [t])).length →
        ∃ e out, Encodes Encoder.start (decisions false (pre ++ [t])) e out ∧
          (out.length ≤ dst.len.toNat → Fails (.rcEnc src dst) s 0x01) ∧
          (dst.len.toNat < out.length → Fails (.rcEnc src dst) s 0x04)) ∧
      (∀ bad, Malformed bad → s.source src = tokenBytes ts ++ bad → Fails (.rcEnc src dst) s 0x01))

/-- 45_entropy.md R251 with the decoder of R240, R241, R246, R247 and R249: the token stream of a payload, of exactly `m`
ranks, or an error. A payload the decoder refuses fails with CorruptStream, unless the tokens before the refusal
overflow DST_CAP; the refusals: fewer than five bytes, a first byte that is not 0, a code that is not below the range,
reading past the end, a literal 0 or a run past `m` after the tokens `pre`, and bytes left over. The clauses on
`rcDecode` tie the model's function to that. -/
def Obligations.RcDecWritesTheTokenStream : Prop :=
  ∀ (src dst : Span) (m : Word) (s : State), ChecksRaise (.rcDec src dst m) s ∧
    (firstError (.rcDec src dst m) s = none →
      (∀ ts, Decodes (s.source src) m.toNat ts →
        rcDecode none (s.source src) m.toNat = .ok (tokenBytes ts) ∧
        ((tokenBytes ts).length ≤ dst.len.toNat →
          Succeeds (.rcDec src dst m) s dst.addr.toNat (tokenBytes ts) src.len) ∧
        (dst.len.toNat < (tokenBytes ts).length → Fails (.rcDec src dst m) s 0x04)) ∧
      ((∀ ts, ¬Decodes (s.source src) m.toNat ts) →
        (∀ ts, HasDecoded (s.source src) m.toNat ts → (tokenBytes ts).length ≤ dst.len.toNat) →
        Fails (.rcDec src dst m) s 0x03) ∧
      (∀ ts, HasDecoded (s.source src) m.toNat ts → dst.len.toNat < (tokenBytes ts).length →
        Fails (.rcDec src dst m) s 0x04) ∧
      (∀ t, rcDecode none (s.source src) m.toNat = .ok t →
        (∃ ts, Decodes (s.source src) m.toNat ts ∧ t = tokenBytes ts) ∧
        (t.length ≤ dst.len.toNat → Succeeds (.rcDec src dst m) s dst.addr.toNat t src.len) ∧
        (dst.len.toNat < t.length → Fails (.rcDec src dst m) s 0x04)) ∧
      (∀ e, rcDecode none (s.source src) m.toNat = .error e →
        (∀ ts, ¬Decodes (s.source src) m.toNat ts) ∧
        (Fails (.rcDec src dst m) s 0x03 ∨ Fails (.rcDec src dst m) s 0x04) ∧
        (5 * m.toNat ≤ dst.len.toNat → Fails (.rcDec src dst m) s 0x03)) ∧
      (src.len.toNat < 5 → Fails (.rcDec src dst m) s 0x03) ∧
      ((s.source src).getD 0 0 ≠ 0 → Fails (.rcDec src dst m) s 0x03) ∧
      ((s.source src).take 5 = [0x00, 0xFF, 0xFF, 0xFF, 0xFF] → Fails (.rcDec src dst m) s 0x03) ∧
      (∀ p t k, rcDecode none p m.toNat = .ok t → k < p.length → s.source src = p.take k →
        t.length ≤ dst.len.toNat → Fails (.rcDec src dst m) s 0x03) ∧
      (∀ (k : Nat) (pre post : List Token) (bad : Token) (p : List Byte), TokensOk pre → TokensOk post →
        (expand pre).length < m.toNat →
        (bad = .lit 0 ∨ (bad = .run k ∧ k < 2 ^ 32 ∧ m.toNat < (expand pre).length + k)) →
        IsPayload (pre ++ bad :: post) p → s.source src = p →
        ((tokenBytes pre).length ≤ dst.len.toNat → Fails (.rcDec src dst m) s 0x03) ∧
        (dst.len.toNat < (tokenBytes pre).length → Fails (.rcDec src dst m) s 0x04)) ∧
      (∀ p t rest, rcDecode none p m.toNat = .ok t → rest ≠ [] → s.source src = p ++ rest →
        (t.length ≤ dst.len.toNat → Fails (.rcDec src dst m) s 0x03) ∧
        (dst.len.toNat < t.length → Fails (.rcDec src dst m) s 0x04)))

/-- 45_entropy.md R249, last sentence: decoding the encoder's payload with the rank count returns the tokens and
consumes every byte; for the payload and the decoder as R240 to R248 define them, and for the model's functions. -/
def Obligations.RangeCoderRoundTrip : Prop :=
  ∀ (maxBlock : Nat) (ts : List Token), TokensOk ts → (expand ts).length ≤ maxBlock →
    ∃ p, IsPayload ts p ∧ Decodes p (expand ts).length ts ∧
      rcEncode maxBlock none ts = .ok (p, (expand ts).length) ∧
      rcDecode none p (expand ts).length = .ok (tokenBytes ts)

/-! ### Codec -/

/-- 46_codec.md R271 with R270. -/
def Obligations.Crc32GivesTheChecksum : Prop :=
  ∀ (src : Span) (s : State), ChecksRaise (.crc32 src) s ∧
    (firstError (.crc32 src) s = none →
      ∃ c, IsCrc32 (s.source src) c ∧ SucceedsQuietly (.crc32 src) s c)

/-- 46_codec.md R273: every block compresses, and the Encoded Block is written when it fits. -/
def Obligations.CompressWritesTheEncodedBlock : Prop :=
  ∀ (tf : Bool) (src dst : Span) (s : State), ChecksRaise (.compress tf src dst) s ∧
    (firstError (.compress tf src dst) s = none →
      ∃ e, compressBlock s.caps.toNat (s.source src) tf = .ok e ∧
        (e.length ≤ dst.len.toNat →
          Succeeds (.compress tf src dst) s dst.addr.toNat e (BitVec.ofNat 32 (e.getD 4 0).toNat)) ∧
        (dst.len.toNat < e.length → Fails (.compress tf src dst) s 0x04))

/-- 46_codec.md R272 and R276, 30_encoding.md R115: what an Encoded Block is made of. -/
def Obligations.EncodedBlockLayout : Prop :=
  ∀ (maxBlock : Nat) (b : List Byte) (tf : Bool) (e : List Byte), maxBlock < 2 ^ 30 →
    1 ≤ b.length → b.length ≤ maxBlock → compressBlock maxBlock b tf = .ok e →
    ∃ (f x l r payload : List Byte) (flags : Byte) (sa : List Nat) (primary : Nat) (ts : List Token) (c : Word),
      FilteredFrom b (fun _ => none) 0 f ∧
      (tf = true ∧ f.length < b.length → x = f ∧ flags = 0x01) ∧
      (¬(tf = true ∧ f.length < b.length) → x = b ∧ flags = 0x00) ∧
      IsSuffixOrder x sa ∧ IsBwt x sa l primary ∧ IsMtf l r ∧
      TokensOk ts ∧ Canonical ts ∧ expand ts = r ∧
      IsPayload ts payload ∧ rcEncode maxBlock none ts = .ok (payload, x.length) ∧ IsCrc32 b c ∧
      e = [0x42, 0x53, 0x43, 0x01, flags, 0x00, 0x00, 0x00] ++
        le32 (BitVec.ofNat 32 b.length) ++ le32 (BitVec.ofNat 32 x.length) ++
        le32 (BitVec.ofNat 32 primary) ++ le32 c ++ le32 (BitVec.ofNat 32 payload.length) ++ payload

/-- 46_codec.md R275 with the stages of R274: once the header is good, the payload's tokens, their ranks, the inverse
transform, the inverse filter where the header says so, and the checksum decide; the first two clauses say that
DECOMPRESS writes the block the model's `decompressBlock` returns, and raises the error it raises. -/
def Obligations.DecompressWritesTheBlock : Prop :=
  ∀ (src dst : Span) (s : State), ChecksRaise (.decompress src dst) s ∧
    (firstError (.decompress src dst) s = none →
      (∀ b used, decompressBlock s.caps.toNat (s.source src) dst.len.toNat = .ok (b, used) →
        Succeeds (.decompress src dst) s dst.addr.toNat b (BitVec.ofNat 32 used)) ∧
      (∀ e, decompressBlock s.caps.toNat (s.source src) dst.len.toNat = .error e →
        Fails (.decompress src dst) s e.code) ∧
      (headerError s.caps.toNat dst.len.toNat (s.source src) = none →
        let e := s.source src
        let payload := (e.drop 28).take (wordAt e 24)
        ((∀ ts, ¬Decodes payload (wordAt e 12) ts) → Fails (.decompress src dst) s 0x03) ∧
        (∀ x, rcDecode none payload (wordAt e 12) = .error x → Fails (.decompress src dst) s 0x03) ∧
        (∀ ts, Decodes payload (wordAt e 12) ts → rcDecode none payload (wordAt e 12) = .ok (tokenBytes ts)) ∧
        ∀ t, rcDecode none payload (wordAt e 12) = .ok t →
          ∃ ts l x, Decodes payload (wordAt e 12) ts ∧ t = tokenBytes ts ∧
            IsMtf l (expand ts) ∧ IsInverseBwt l (wordAt e 16) x ∧
            (e.getD 4 0 = 0x00 → EndsWith (.decompress src dst) s dst.addr.toNat e x) ∧
            (e.getD 4 0 = 0x01 →
              (Unfiltered (wordAt e 8) (fun _ => none) [] x none → Fails (.decompress src dst) s 0x03) ∧
              ∀ b, Unfiltered (wordAt e 8) (fun _ => none) [] x (some b) →
                b.length = wordAt e 8 ∧ EndsWith (.decompress src dst) s dst.addr.toNat e b)))

/-- 46_codec.md R274, its header checks in order, with 30_encoding.md R116 and R117: DECOMPRESS refuses a source without room
for a header, a header it does not know, a payload past the source, a block length of 0, above MAX_BLOCK_SIZE or above
DST_CAP, a stage length that does not go with it, and a primary index outside the stage block. -/
def Obligations.UnknownHeadersAreRefused : Prop :=
  ∀ (src dst : Span) (s : State), firstError (.decompress src dst) s = none →
    (∀ code, headerError s.caps.toNat dst.len.toNat (s.source src) = some code →
      Fails (.decompress src dst) s code) ∧
    (src.len.toNat < 28 → Fails (.decompress src dst) s 0x03) ∧
    (28 ≤ src.len.toNat →
      (s.source src).take 3 ≠ [0x42, 0x53, 0x43] ∨ (s.source src).getD 3 0 ≠ 0x01 ∨
        1 < ((s.source src).getD 4 0).toNat ∨ (s.source src).getD 5 0 ≠ 0 ∨
        (s.source src).getD 6 0 ≠ 0 ∨ (s.source src).getD 7 0 ≠ 0 →
      Fails (.decompress src dst) s 0x02)

/-- 46_codec.md R274: DECOMPRESS never completes with a block that disagrees with its header in length or
checksum. -/
def Obligations.DecompressAgreesWithTheHeader : Prop :=
  ∀ (src dst : Span) (s t : State), s.err = false → exec (.decompress src dst) s = .next t → t.err = false →
    28 ≤ src.len.toNat ∧ t.result0 = s.mem.read32 (src.addr.toNat + 8) ∧
      t.result1.toNat = 28 + (s.mem.read32 (src.addr.toNat + 24)).toNat ∧
      1 ≤ t.result0.toNat ∧ t.result0.toNat ≤ s.caps.toNat ∧
      IsCrc32 (t.mem.read dst.addr.toNat t.result0.toNat) (s.mem.read32 (src.addr.toNat + 20))

/-- 46_codec.md R277 and 30_encoding.md R118: decompressing an Encoded Block, alone or followed by other bytes, gives
the block back and the number of bytes used. -/
def Obligations.CodecRoundTrip : Prop :=
  ∀ (maxBlock : Nat) (b : List Byte) (tf : Bool) (e rest : List Byte) (cap : Nat), maxBlock < 2 ^ 30 →
    1 ≤ b.length → b.length ≤ maxBlock → b.length ≤ cap → compressBlock maxBlock b tf = .ok e →
    e.length < 2 ^ 32 → decompressBlock maxBlock (e ++ rest) cap = .ok (b, e.length)

/-! ### The register window, resets and the interrupt -/

/-- 40_sequencer.md R131: START while idle, and START while BUSY. -/
def Obligations.StartBeginsARun : Prop :=
  ∀ (s : State) (v : Word), HostDoes s (.writeReg 0x04 4 v) → v.getLsbD 0 = true → v.getLsbD 1 = false →
    ∃ t, step s = .next t ∧
      (s.busy = false →
        SameMachine t { s with
          irqEn := v.getLsbD 2, done := false, err := false, errCode := 0, errOp := 0, cmdCount := 0
          busy := true }) ∧
      (s.busy = true → SameMachine t { s with irqEn := v.getLsbD 2 })

/-- 10_state.md R25: the layout of STATUS, and its write-1-to-clear bits. -/
def Obligations.StatusReadsAndClears : Prop :=
  (∀ s : State, HostDoes s (.readReg 0x08 4) →
    ∃ t, step s = .next t ∧ SameMachine t s ∧
      t.hostData.toNat =
        s.busy.toNat + 2 * s.done.toNat + 4 * s.err.toNat + 2 ^ 8 * s.errCode.toNat +
          2 ^ 16 * s.errOp.toNat) ∧
  ∀ (s : State) (v : Word), HostDoes s (.writeReg 0x08 4 v) →
    ∃ t, step s = .next t ∧
      (s.busy = true → SameMachine t s) ∧
      (s.busy = false →
        SameMachine t { s with
          done := s.done && !v.getLsbD 1
          err := s.err && !v.getLsbD 2
          errCode := if v.getLsbD 2 then 0 else s.errCode
          errOp := if v.getLsbD 2 then 0 else s.errOp })

/-- 10_state.md R23, R29, R30, R32: what every aligned 32-bit read of the window returns, without a side effect, and
that a write to any register but CTRL, STATUS and CMD_PTR is ignored. -/
def Obligations.RegisterWindow : Prop :=
  (∀ (s : State) (o : Nat), o < 256 → o % 4 = 0 → HostDoes s (.readReg o 4) →
    ∃ t, step s = .next t ∧ SameMachine t s ∧
      (o = 0x00 → t.hostData = 0x01435342) ∧
      (o = 0x04 → t.hostData = if s.irqEn then 4 else 0) ∧
      (o = 0x0C → t.hostData = s.cmdPtr) ∧
      (o = 0x10 → t.hostData = s.result0) ∧
      (o = 0x14 → t.hostData = s.result1) ∧
      (o = 0x18 → t.hostData = s.errAddr) ∧
      (o = 0x1C → t.hostData = s.cmdCount) ∧
      (o = 0x20 → t.hostData.toNat = s.caps.toNat) ∧
      (o = 0x24 → t.hostData = s.bufSize) ∧
      (0x28 ≤ o → t.hostData = 0)) ∧
  ∀ (s : State) (o : Nat) (v : Word), o < 256 → o % 4 = 0 → o ≠ 0x04 → o ≠ 0x08 → o ≠ 0x0C →
    HostDoes s (.writeReg o 4 v) → ∃ t, step s = .next t ∧ SameMachine t s

/-- 10_state.md R26 and 70_reset_and_hazards.md R346: CMD_PTR takes any value while idle and ignores writes while
BUSY; a CTRL write without START and SOFT_RESET changes IRQ_EN alone, at any time. -/
def Obligations.CmdPtrAndIrqEnableWrites : Prop :=
  (∀ (s : State) (v : Word), HostDoes s (.writeReg 0x0C 4 v) →
    ∃ t, step s = .next t ∧
      (s.busy = false → SameMachine t { s with cmdPtr := v }) ∧ (s.busy = true → SameMachine t s)) ∧
  ∀ (s : State) (v : Word), HostDoes s (.writeReg 0x04 4 v) → v.getLsbD 0 = false → v.getLsbD 1 = false →
    ∃ t, step s = .next t ∧ SameMachine t { s with irqEn := v.getLsbD 2 }

/-- 10_state.md R33: the model refuses a register access that is not an aligned 32-bit one. -/
def Obligations.OtherRegisterAccessesAreRefused : Prop :=
  ∀ (s : State) (o w : Nat) (v : Word), o < 256 → (w ≠ 4 ∨ o % 4 ≠ 0) →
    HostDoes s (.writeReg o w v) ∨ HostDoes s (.readReg o w) → step s = .refused .registerAccess

/-- 70_reset_and_hazards.md R341: soft reset, at any time; START in the same write does nothing. Only the destination
of the command it aborts, the one at CMD_PTR of a running engine (log entry 10), is left open, and in a run that a host
write affects the run's destinations (R345, log entry 6). -/
def Obligations.SoftResetResetsEveryRegister : Prop :=
  ∀ (s : State) (v : Word), HostDoes s (.writeReg 0x04 4 v) → v.getLsbD 1 = true →
    ∃ t, step s = .next t ∧ AtReset t ∧ t.caps = s.caps ∧ t.bufSize = s.bufSize ∧
      ∀ x, (∀ i, s.busy = true → CommandAt s i → ¬Within (dstAddr i) (dstCap i) x) →
        (s.affectedRun = true → ¬InOne s.openRegions x) → t.mem.byte x = s.mem.byte x

/-- 70_reset_and_hazards.md R340: hardware reset, at any time, and memory is not changed (log entry 10), but for the
destinations of a run that a host write affects (R345, log entry 6). -/
def Obligations.HardwareResetResetsEveryRegister : Prop :=
  ∀ s : State, HostDoes s .hardReset →
    ∃ t, step s = .next t ∧ AtReset t ∧ t.caps = s.caps ∧ t.bufSize = s.bufSize ∧ t.irq = false ∧
      (s.affectedRun = false → t.mem = s.mem) ∧ ∀ x, ¬InOne s.openRegions x → t.mem.byte x = s.mem.byte x

/-- 10_state.md R36: the interrupt output the host's controller sees. -/
def Obligations.InterruptOutput : Prop :=
  (∀ s : State, HostDoes s .sampleIrq →
    ∃ t, step s = .next t ∧ SameMachine t s ∧
      t.hostData = if s.irqEn = true ∧ (s.done = true ∨ s.err = true) then 1 else 0) ∧
  State.reset.irq = false

/-- 20_memory.md R60, R75 and R76: the host's accesses to buffer memory while the engine is idle, and reads of a byte
that is settled. A byte of the destination of the running command, or of a command of the run, is not settled before
the host has seen the end of the run (70_reset_and_hazards.md R346, R347); neither a START nor a host write, in the
descriptor of the running command among them, settles it; a read of STATUS with BUSY = 0 and a sampled interrupt, and
nothing else, settle every byte (R75); an unsettled byte reads as a free byte. The fault outside the buffer is the model's choice (log
entry 7), and `unsettled` its record (log entry 6). -/
def Obligations.IdleHostMemoryAccess : Prop :=
  (∀ (s : State) (a : Nat) (bs : List Byte), HostDoes s (.writeBuf a bs) → s.busy = false →
    a + bs.length ≤ s.bufSize.toNat →
    ∃ t, step s = .next t ∧ SameMachine t { s with mem := t.mem } ∧ Stored s.mem t.mem a bs) ∧
  (∀ (s : State) (a : Nat), HostDoes s (.readBuf a) → (s.synced = true ∨ s.unsettled a = false) →
    a < s.bufSize.toNat →
    ∃ t, step s = .next t ∧ SameMachine t s ∧ t.hostData.toNat = (s.mem.byte a).toNat) ∧
  (∀ (s : State) (v : Word) (a : Nat), HostDoes s (.writeReg 0x04 4 v) → v.getLsbD 0 = true →
    v.getLsbD 1 = false → s.unsettled a = true → ∃ t, step s = .next t ∧ t.unsettled a = true) ∧
  (∀ (s : State) (a : Nat) (bs : List Byte) (x : Nat), HostDoes s (.writeBuf a bs) →
    a + bs.length ≤ s.bufSize.toNat → x < s.bufSize.toNat → s.unsettled x = true →
    ∃ t, step s = .next t ∧ t.unsettled x = true) ∧
  (∀ (s : State) (i : Instr) (x : Nat), s.synced = false → x < s.bufSize.toNat →
    (s.busy = true ∧ CommandAt s i ∧ Within (dstAddr i) (dstCap i) x) ∨ InOne s.runDests x →
    s.unsettled x = true) ∧
  (∀ s : State, (HostDoes s (.readReg 0x08 4) ∧ s.busy = false) ∨ (HostDoes s .sampleIrq ∧ s.irq = true) →
    ∃ t, step s = .next t ∧ SameMachine t s ∧ t.synced = true ∧ ∀ a, t.unsettled a = false) ∧
  (∀ s t : State, s.synced = false → step s = .next t → t.synced = true →
    (HostDoes s (.readReg 0x08 4) ∧ s.busy = false) ∨ (HostDoes s .sampleIrq ∧ s.irq = true)) ∧
  (∀ (s : State) (a : Nat), HostDoes s (.readBuf a) → s.unsettled a = true → a < s.bufSize.toNat →
    ∃ t, step s = .next t ∧ SameMachine t s ∧ t.hostData = (Config.freeByte s.draws).setWidth 32) ∧
  (∀ (s : State) (a : Nat), HostDoes s (.readBuf a) → s.bufSize.toNat ≤ a →
    step s = .fault .hostOutsideBuffer) ∧
  ∀ (s : State) (a : Nat) (bs : List Byte), HostDoes s (.writeBuf a bs) →
    s.bufSize.toNat < a + bs.length → step s = .fault .hostOutsideBuffer

/-- 70_reset_and_hazards.md R345 as the model takes it (log entry 6): a host write during a run is done; it affects the
run when it touches a byte that the run has read or written, or that the command at `pc` reads or writes: its
descriptor and, when it passes the checks of R139, its sources and what it writes. What an affected run leaves to rely on: it goes on, halts or fails; IRQ_EN and the parameters are
kept, and every byte outside its destinations. -/
def Obligations.RacingHostWriteLeavesTheRunOpen : Prop :=
  (∀ (s : State) (a : Nat) (bs : List Byte), HostDoes s (.writeBuf a bs) → s.busy = true →
    a + bs.length ≤ s.bufSize.toNat →
    ∃ t, step s = .next t ∧ Stored s.mem t.mem a bs ∧
      SameMachine t { s with mem := t.mem, result0 := t.result0, result1 := t.result1 } ∧
      (t.affectedRun = false → t.result0 = s.result0 ∧ t.result1 = s.result1) ∧
      (∀ x, x ∈ t.hostWrote ↔ Within a bs.length x ∨ x ∈ s.hostWrote) ∧
      (t.affected = true ↔
        s.affected = true ∨ ∃ x, Within a bs.length x ∧ InOne (s.runReads ++ s.runWrites) x)) ∧
  (∀ (s : State) (i : Instr), s.busy = true → s.affected = false → CommandAt s i →
    (s.affectedRun = true ↔
      ∃ x, x ∈ s.hostWrote ∧
        (Within s.cmdPtr.toNat 32 x ∨
          (firstError i s = none ∧ (InOne (reads i) x ∨ Within (s.writtenBy i).addr (s.writtenBy i).len x))))) ∧
  ∀ s : State, s.busy = true → s.done = false → s.err = false →
    (s.host = [] ∨ ∃ rest, s.host = .engineTurn :: rest) → s.affectedRun = true →
    ∃ t, step s = .next t ∧ t.irqEn = s.irqEn ∧ t.caps = s.caps ∧ t.bufSize = s.bufSize ∧
      ((t.busy = true ∧ t.done = false ∧ t.err = false) ∨ (t.busy = false ∧ t.done = true ∧ t.err = false) ∨
        (t.busy = false ∧ t.done = false ∧ t.err = true ∧ t.errCode ∈ errorCodes ∧ t.errAddr = t.cmdPtr)) ∧
      ∀ x, ¬InOne s.openRegions x → t.mem.byte x = s.mem.byte x
end

