-- ==== Sys2Proof/Laws/Decode.lean ====
section
/-! SUPPORT. Bytes, words and descriptors there and back (20_memory.md R62, 30_encoding.md R91, R92). -/

namespace Sys2Proof

/-- The four bytes of a word put together give the word. -/
theorem ofLe32_le32 (w : Word) :
    ofLe32 (w.extractLsb' 0 8) (w.extractLsb' 8 8) (w.extractLsb' 16 8) (w.extractLsb' 24 8) = w := by
  unfold ofLe32
  ext i hi
  simp only [BitVec.getElem_append, BitVec.getElem_extractLsb']
  split
  · simp [BitVec.getLsbD_eq_getElem, hi]
  · split
    · rw [← BitVec.getLsbD_eq_getElem hi]; congr 1; omega
    · split
      · rw [← BitVec.getLsbD_eq_getElem hi]; congr 1; omega
      · rw [← BitVec.getLsbD_eq_getElem hi]; congr 1; omega

/-- The byte fields of a word put together from four bytes. -/
theorem extract_ofLe32 (a b c d : Byte) :
    (ofLe32 a b c d).extractLsb' 0 8 = a ∧ (ofLe32 a b c d).extractLsb' 8 8 = b ∧
      (ofLe32 a b c d).extractLsb' 16 8 = c ∧ (ofLe32 a b c d).extractLsb' 24 8 = d := by
  unfold ofLe32
  refine ⟨?_, ?_, ?_, ?_⟩ <;> ext i hi <;>
    simp only [BitVec.getElem_extractLsb', BitVec.getLsbD_append] <;>
    grind

/-- The bytes of a word built from four bytes are those bytes. -/
theorem le32_ofLe32 (a b c d : Byte) : le32 (ofLe32 a b c d) = [a, b, c, d] := by
  obtain ⟨h1, h2, h3, h4⟩ := extract_ofLe32 a b c d
  simp [le32, h1, h2, h3, h4]

@[simp] theorem le32_length (w : Word) : (le32 w).length = 4 := rfl

/-- A word stored at the head of a string reads back. -/
theorem le32At_head (w : Word) (s : List Byte) : le32At (le32 w ++ s) 0 = w := by
  simpa [le32At, le32] using ofLe32_le32 w

/-- Reading past a prefix. -/
theorem le32At_append (p s : List Byte) (o : Nat) :
    le32At (p ++ s) (p.length + o) = le32At s o := by
  simp only [le32At, List.getD_eq_getElem?_getD, Nat.add_assoc]
  simp [List.getElem?_append_right]

@[simp] theorem Desc.bytes_length (d : Desc) : d.bytes.length = 32 := rfl

/-- The low and high bytes of a 16-bit half. -/
theorem half_bytes (r : BitVec 16) : r.extractLsb' 8 8 ++ r.extractLsb' 0 8 = r := by
  ext i hi
  simp only [BitVec.getElem_append, BitVec.getElem_extractLsb']
  split
  · simp [BitVec.getLsbD_eq_getElem, hi]
  · rw [← BitVec.getLsbD_eq_getElem hi]; congr 1; omega

/-- The bytes of word 0 are OPCODE, FLAGS and the two bytes of RSVD (R91). -/
theorem word0_bytes (d : Desc) :
    le32 d.word0 = [d.opcode, d.flags, d.rsvd.extractLsb' 0 8, d.rsvd.extractLsb' 8 8] := by
  have h : d.word0 = ofLe32 d.opcode d.flags (d.rsvd.extractLsb' 0 8) (d.rsvd.extractLsb' 8 8) := by
    unfold Desc.word0 ofLe32
    rw [half_bytes]
  rw [h, le32_ofLe32]

/-- Latching the bytes of a descriptor gives the descriptor. -/
theorem Desc.ofBytes_bytes (d : Desc) : Desc.ofBytes d.bytes = d := by
  unfold Desc.ofBytes Desc.bytes
  rw [word0_bytes]
  simp only [le32At, le32, List.cons_append, List.nil_append, List.getD_cons_succ,
    List.getD_cons_zero, ofLe32_le32, half_bytes]

end Sys2Proof
end

