-- ==== Sys2Proof/Laws/Memory.lean ====
section
/-! SUPPORT. The laws of buffer memory: a read after a write to the same place gives the value written, a write
leaves every other place alone, and every write keeps the canonical form. -/

namespace Sys2Proof.Machine

/-! ### What is written -/

theorem written_filter (p : Nat → Bool) (m : Memory) (x : Nat) :
    Memory.written (m.filter fun c => p c.1) x = if p x then m.written x else none := by
  induction m with
  | nil => simp [Memory.written]
  | cons c r ih =>
    obtain ⟨y, b⟩ := c
    simp only [List.filter_cons]
    by_cases hy : p y <;> by_cases hx : y = x <;> simp_all [Memory.written]

theorem written_append (m m' : Memory) (x : Nat) :
    Memory.written (m ++ m') x = (m.written x).or (Memory.written m' x) := by
  induction m with
  | nil => simp [Memory.written]
  | cons c r ih =>
    obtain ⟨y, b⟩ := c
    by_cases hx : y = x <;> simp_all [Memory.written]

theorem written_cellsAt (a : Nat) (s : List Byte) (x : Nat) :
    (cellsAt a s).written x = if a ≤ x then s[x - a]? else none := by
  induction s generalizing a with
  | nil => simp [cellsAt, Memory.written]
  | cons b bs ih =>
    simp only [cellsAt, Memory.written, ih]
    by_cases h : a = x
    · simp [h]
    · by_cases h' : a ≤ x
      · have h1 : a + 1 ≤ x := by omega
        have h2 : x - a = (x - (a + 1)) + 1 := by omega
        simp [h, h', h1, h2]
      · have h1 : ¬ a + 1 ≤ x := by omega
        simp [h, h', h1]

/-- What is written after a write: the new byte inside the range, what was there outside it. -/
theorem written_write (m : Memory) (a : Nat) (s : List Byte) (x : Nat) :
    (m.write a s).written x =
      if a ≤ x ∧ x < a + s.length then s[x - a]? else m.written x := by
  have hlow := written_filter (fun y => decide (y < a)) m x
  have hhigh := written_filter (fun y => decide (a + s.length ≤ y)) m x
  simp only [Memory.write, written_append, written_cellsAt, hlow, hhigh]
  by_cases h1 : x < a
  · have h2 : ¬ a ≤ x := by omega
    have h3 : ¬ a + s.length ≤ x := by omega
    simp [h1, h2, h3]
  · by_cases h2 : a + s.length ≤ x
    · have h3 : ¬ x < a + s.length := by omega
      have h4 : s[x - a]? = none := List.getElem?_eq_none (by omega)
      simp [h1, h2, h3, h4]
    · have h3 : a ≤ x := by omega
      have h4 : x < a + s.length := by omega
      simp [h1, h2, h3, h4]

/-! ### Bytes -/

theorem byte_write_inside (m : Memory) (a k : Nat) (s : List Byte) (h : k < s.length) :
    (m.write a s).byte (a + k) = s.getD k 0 := by
  simp [Memory.byte, written_write, h]

theorem byte_write_outside (m : Memory) (a x : Nat) (s : List Byte)
    (h : x < a ∨ a + s.length ≤ x) : (m.write a s).byte x = m.byte x := by
  have h' : ¬(a ≤ x ∧ x < a + s.length) := by omega
  simp only [Memory.byte, written_write, h', if_false]

@[simp] theorem byte_write_nil (m : Memory) (a x : Nat) : (m.write a []).byte x = m.byte x :=
  byte_write_outside m a x [] (by simp; omega)

@[simp] theorem read_length (m : Memory) (a k : Nat) : (m.read a k).length = k := by
  induction k generalizing a with
  | zero => rfl
  | succ k ih => simp [Memory.read, ih]

theorem read_getD (m : Memory) (a k j : Nat) (h : j < k) :
    (m.read a k).getD j 0 = m.byte (a + j) := by
  induction k generalizing a j with
  | zero => omega
  | succ k ih =>
    cases j with
    | zero => simp [Memory.read]
    | succ j =>
      have := ih (a + 1) j (by omega)
      simp only [Memory.read, List.getD_cons_succ, this]
      congr 1
      omega

/-- Memories that agree on a range read the same there. -/
theorem read_congr (m m' : Memory) (a k : Nat)
    (h : ∀ x, a ≤ x → x < a + k → m.byte x = m'.byte x) : m.read a k = m'.read a k := by
  induction k generalizing a with
  | zero => rfl
  | succ k ih =>
    simp only [Memory.read]
    rw [h a (by omega) (by omega), ih (a + 1) fun x h1 h2 => h x (by omega) (by omega)]

/-- `MemRead` after a `MemWrite` to the same range gives the string written. -/
theorem read_write_same (m : Memory) (a : Nat) (s : List Byte) :
    (m.write a s).read a s.length = s := by
  apply List.ext_getElem (by simp)
  intro j h1 h2
  have h3 : j < s.length := h2
  have := read_getD (m.write a s) a s.length j h3
  rw [byte_write_inside m a j s h3] at this
  simpa [List.getD_eq_getElem?_getD, h3] using this

theorem read_write_outside (m : Memory) (a b k : Nat) (s : List Byte)
    (h : b + k ≤ a ∨ a + s.length ≤ b) : (m.write a s).read b k = m.read b k :=
  read_congr _ _ _ _ fun x h1 h2 => byte_write_outside m a x s (by omega)

/-! ### Canonical form -/

theorem cellsAt_low (a : Nat) (s : List Byte) : ∀ c ∈ cellsAt a s, a ≤ c.1 ∧ c.1 < a + s.length := by
  induction s generalizing a with
  | nil => simp [cellsAt]
  | cons b bs ih =>
    intro c hc
    simp only [cellsAt, List.mem_cons] at hc
    rcases hc with rfl | hc
    · simp
    · have := ih (a + 1) c hc
      simp only [List.length_cons]
      omega

theorem cellsAt_wf (a : Nat) (s : List Byte) : (cellsAt a s).wf := by
  induction s generalizing a with
  | nil => simp [cellsAt, Memory.wf]
  | cons b bs ih =>
    simp only [cellsAt, Memory.wf, List.pairwise_cons]
    exact ⟨fun c hc => Nat.lt_of_succ_le (cellsAt_low (a + 1) bs c hc).1, ih (a + 1)⟩

/-- Every write keeps the canonical form. -/
theorem write_wf (m : Memory) (a : Nat) (s : List Byte) (h : m.wf) : (m.write a s).wf := by
  unfold Memory.write Memory.wf at *
  rw [List.pairwise_append, List.pairwise_append]
  refine ⟨⟨h.filter _, cellsAt_wf a s, ?_⟩, h.filter _, ?_⟩
  · intro x hx y hy
    have h1 := (List.mem_filter.mp hx).2
    have h2 := cellsAt_low a s y hy
    simp only [decide_eq_true_eq] at h1
    omega
  · intro x hx y hy
    have h2 := (List.mem_filter.mp hy).2
    simp only [decide_eq_true_eq] at h2
    rcases List.mem_append.mp hx with hx | hx
    · have h1 := (List.mem_filter.mp hx).2
      simp only [decide_eq_true_eq] at h1
      omega
    · have h1 := cellsAt_low a s x hx
      omega

/-- A write inside the buffer lists only bytes inside it. -/
theorem write_keeps_inside (m : Memory) (a size : Nat) (s : List Byte) (h : m.inside size)
    (ha : a + s.length ≤ size ∨ s = []) : (m.write a s).inside size := by
  intro c hc
  unfold Memory.write at hc
  rcases List.mem_append.mp hc with hc | hc
  · rcases List.mem_append.mp hc with hc | hc
    · exact h c (List.mem_filter.mp hc).1
    · have := cellsAt_low a s c hc
      rcases ha with ha | rfl
      · omega
      · simp [cellsAt] at hc
  · exact h c (List.mem_filter.mp hc).1

@[simp] theorem freeBytes_length (n k : Nat) : (freeBytes n k).length = k := by
  induction k generalizing n with
  | zero => rfl
  | succ k ih => simp [freeBytes, ih]

theorem clipped_le (r : Region) (size : Nat) : r.clipped size ≤ r.len := by
  unfold Region.clipped; omega

/-- Scrambling a region leaves every byte outside it alone. -/
theorem byte_scramble_outside (s : State) (r : Region) (x : Nat) (h : r.has x = false) :
    (s.scramble r).mem.byte x = s.mem.byte x := by
  apply byte_write_outside
  have hc := clipped_le r s.bufSize.toNat
  simp only [Region.has, Bool.and_eq_false_iff, decide_eq_false_iff_not] at h
  simp only [freeBytes_length]
  omega

theorem scramble_keeps_wf (s : State) (r : Region) (h : s.mem.wf) : (s.scramble r).mem.wf :=
  write_wf _ _ _ h

theorem scramble_keeps_inside (s : State) (r : Region) (h : s.mem.inside s.size) :
    (s.scramble r).mem.inside s.size := by
  apply write_keeps_inside _ _ _ _ h
  by_cases hk : r.clipped s.bufSize.toNat = 0
  · right
    simp [hk, freeBytes]
  · left
    simp only [freeBytes_length]
    unfold Region.clipped State.size at *
    omega

end Sys2Proof.Machine
end

