-- ==== Sys2Proof/Laws/State.lean ====
section
/-! SUPPORT. What each state update does to each field, so that no proof unfolds a record update. -/

namespace Sys2Proof.Machine.State

variable (s : State)

/-! ### `latch` -/

@[simp] theorem latch_busy : s.latch.busy = s.busy := rfl
@[simp] theorem latch_done : s.latch.done = s.done := rfl
@[simp] theorem latch_err : s.latch.err = s.err := rfl
@[simp] theorem latch_errCode : s.latch.errCode = s.errCode := rfl
@[simp] theorem latch_errOp : s.latch.errOp = s.errOp := rfl
@[simp] theorem latch_irqEn : s.latch.irqEn = s.irqEn := rfl
@[simp] theorem latch_cmdPtr : s.latch.cmdPtr = s.cmdPtr := rfl
@[simp] theorem latch_result0 : s.latch.result0 = s.result0 := rfl
@[simp] theorem latch_result1 : s.latch.result1 = s.result1 := rfl
@[simp] theorem latch_errAddr : s.latch.errAddr = s.errAddr := rfl
@[simp] theorem latch_cmdCount : s.latch.cmdCount = s.cmdCount := rfl
@[simp] theorem latch_caps : s.latch.caps = s.caps := rfl
@[simp] theorem latch_bufSize : s.latch.bufSize = s.bufSize := rfl
@[simp] theorem latch_d : s.latch.d = s.fetchDesc := rfl
@[simp] theorem latch_mem : s.latch.mem = s.mem := rfl
@[simp] theorem latch_draws : s.latch.draws = s.draws := rfl
@[simp] theorem latch_host : s.latch.host = s.host := rfl
@[simp] theorem latch_hostData : s.latch.hostData = s.hostData := rfl
@[simp] theorem latch_synced : s.latch.synced = s.synced := rfl
@[simp] theorem latch_runReads : s.latch.runReads = s.runReads := rfl
@[simp] theorem latch_runWrites : s.latch.runWrites = s.runWrites := rfl
@[simp] theorem latch_runDests : s.latch.runDests = s.runDests := rfl
@[simp] theorem latch_hostWrote : s.latch.hostWrote = s.hostWrote := rfl
@[simp] theorem latch_affected : s.latch.affected = s.affected := rfl
@[simp] theorem latch_unseen : s.latch.unseen = s.unseen := rfl

/-! ### `noteRun` -/

@[simp] theorem noteRun_busy (i : Instr) : (s.noteRun i).busy = s.busy := rfl
@[simp] theorem noteRun_done (i : Instr) : (s.noteRun i).done = s.done := rfl
@[simp] theorem noteRun_err (i : Instr) : (s.noteRun i).err = s.err := rfl
@[simp] theorem noteRun_errCode (i : Instr) : (s.noteRun i).errCode = s.errCode := rfl
@[simp] theorem noteRun_errOp (i : Instr) : (s.noteRun i).errOp = s.errOp := rfl
@[simp] theorem noteRun_irqEn (i : Instr) : (s.noteRun i).irqEn = s.irqEn := rfl
@[simp] theorem noteRun_cmdPtr (i : Instr) : (s.noteRun i).cmdPtr = s.cmdPtr := rfl
@[simp] theorem noteRun_result0 (i : Instr) : (s.noteRun i).result0 = s.result0 := rfl
@[simp] theorem noteRun_result1 (i : Instr) : (s.noteRun i).result1 = s.result1 := rfl
@[simp] theorem noteRun_errAddr (i : Instr) : (s.noteRun i).errAddr = s.errAddr := rfl
@[simp] theorem noteRun_cmdCount (i : Instr) : (s.noteRun i).cmdCount = s.cmdCount := rfl
@[simp] theorem noteRun_caps (i : Instr) : (s.noteRun i).caps = s.caps := rfl
@[simp] theorem noteRun_bufSize (i : Instr) : (s.noteRun i).bufSize = s.bufSize := rfl
@[simp] theorem noteRun_d (i : Instr) : (s.noteRun i).d = s.d := rfl
@[simp] theorem noteRun_mem (i : Instr) : (s.noteRun i).mem = s.mem := rfl
@[simp] theorem noteRun_draws (i : Instr) : (s.noteRun i).draws = s.draws := rfl
@[simp] theorem noteRun_host (i : Instr) : (s.noteRun i).host = s.host := rfl
@[simp] theorem noteRun_hostData (i : Instr) : (s.noteRun i).hostData = s.hostData := rfl
@[simp] theorem noteRun_synced (i : Instr) : (s.noteRun i).synced = s.synced := rfl
@[simp] theorem noteRun_runReads (i : Instr) : (s.noteRun i).runReads = s.fetchRegion :: (s.readBy i ++ s.runReads) := rfl
@[simp] theorem noteRun_runWrites (i : Instr) : (s.noteRun i).runWrites = s.writtenBy i :: s.runWrites := rfl
@[simp] theorem noteRun_runDests (i : Instr) : (s.noteRun i).runDests = destination i :: s.runDests := rfl
@[simp] theorem noteRun_hostWrote (i : Instr) : (s.noteRun i).hostWrote = s.hostWrote := rfl
@[simp] theorem noteRun_affected (i : Instr) : (s.noteRun i).affected = s.affected := rfl
@[simp] theorem noteRun_unseen (i : Instr) : (s.noteRun i).unseen = s.unseen := rfl

/-! ### `putBytes` -/

@[simp] theorem putBytes_busy (a : Nat) (bs : List Byte) : (s.putBytes a bs).busy = s.busy := rfl
@[simp] theorem putBytes_done (a : Nat) (bs : List Byte) : (s.putBytes a bs).done = s.done := rfl
@[simp] theorem putBytes_err (a : Nat) (bs : List Byte) : (s.putBytes a bs).err = s.err := rfl
@[simp] theorem putBytes_errCode (a : Nat) (bs : List Byte) : (s.putBytes a bs).errCode = s.errCode := rfl
@[simp] theorem putBytes_errOp (a : Nat) (bs : List Byte) : (s.putBytes a bs).errOp = s.errOp := rfl
@[simp] theorem putBytes_irqEn (a : Nat) (bs : List Byte) : (s.putBytes a bs).irqEn = s.irqEn := rfl
@[simp] theorem putBytes_cmdPtr (a : Nat) (bs : List Byte) : (s.putBytes a bs).cmdPtr = s.cmdPtr := rfl
@[simp] theorem putBytes_result0 (a : Nat) (bs : List Byte) : (s.putBytes a bs).result0 = s.result0 := rfl
@[simp] theorem putBytes_result1 (a : Nat) (bs : List Byte) : (s.putBytes a bs).result1 = s.result1 := rfl
@[simp] theorem putBytes_errAddr (a : Nat) (bs : List Byte) : (s.putBytes a bs).errAddr = s.errAddr := rfl
@[simp] theorem putBytes_cmdCount (a : Nat) (bs : List Byte) : (s.putBytes a bs).cmdCount = s.cmdCount := rfl
@[simp] theorem putBytes_caps (a : Nat) (bs : List Byte) : (s.putBytes a bs).caps = s.caps := rfl
@[simp] theorem putBytes_bufSize (a : Nat) (bs : List Byte) : (s.putBytes a bs).bufSize = s.bufSize := rfl
@[simp] theorem putBytes_d (a : Nat) (bs : List Byte) : (s.putBytes a bs).d = s.d := rfl
@[simp] theorem putBytes_mem (a : Nat) (bs : List Byte) : (s.putBytes a bs).mem = s.mem.write a bs := rfl
@[simp] theorem putBytes_draws (a : Nat) (bs : List Byte) : (s.putBytes a bs).draws = s.draws := rfl
@[simp] theorem putBytes_host (a : Nat) (bs : List Byte) : (s.putBytes a bs).host = s.host := rfl
@[simp] theorem putBytes_hostData (a : Nat) (bs : List Byte) : (s.putBytes a bs).hostData = s.hostData := rfl
@[simp] theorem putBytes_synced (a : Nat) (bs : List Byte) : (s.putBytes a bs).synced = s.synced := rfl
@[simp] theorem putBytes_runReads (a : Nat) (bs : List Byte) : (s.putBytes a bs).runReads = s.runReads := rfl
@[simp] theorem putBytes_runWrites (a : Nat) (bs : List Byte) : (s.putBytes a bs).runWrites = s.runWrites := rfl
@[simp] theorem putBytes_runDests (a : Nat) (bs : List Byte) : (s.putBytes a bs).runDests = s.runDests := rfl
@[simp] theorem putBytes_hostWrote (a : Nat) (bs : List Byte) : (s.putBytes a bs).hostWrote = s.hostWrote := rfl
@[simp] theorem putBytes_affected (a : Nat) (bs : List Byte) : (s.putBytes a bs).affected = s.affected := rfl
@[simp] theorem putBytes_unseen (a : Nat) (bs : List Byte) : (s.putBytes a bs).unseen = s.unseen := rfl

/-! ### `putResults` -/

@[simp] theorem putResults_busy (x : Done) : (s.putResults x).busy = s.busy := rfl
@[simp] theorem putResults_done (x : Done) : (s.putResults x).done = s.done := rfl
@[simp] theorem putResults_err (x : Done) : (s.putResults x).err = s.err := rfl
@[simp] theorem putResults_errCode (x : Done) : (s.putResults x).errCode = s.errCode := rfl
@[simp] theorem putResults_errOp (x : Done) : (s.putResults x).errOp = s.errOp := rfl
@[simp] theorem putResults_irqEn (x : Done) : (s.putResults x).irqEn = s.irqEn := rfl
@[simp] theorem putResults_cmdPtr (x : Done) : (s.putResults x).cmdPtr = s.cmdPtr := rfl
@[simp] theorem putResults_result0 (x : Done) : (s.putResults x).result0 = BitVec.ofNat 32 x.out.length := rfl
@[simp] theorem putResults_result1 (x : Done) : (s.putResults x).result1 = x.r1 := rfl
@[simp] theorem putResults_errAddr (x : Done) : (s.putResults x).errAddr = s.errAddr := rfl
@[simp] theorem putResults_cmdCount (x : Done) : (s.putResults x).cmdCount = s.cmdCount := rfl
@[simp] theorem putResults_caps (x : Done) : (s.putResults x).caps = s.caps := rfl
@[simp] theorem putResults_bufSize (x : Done) : (s.putResults x).bufSize = s.bufSize := rfl
@[simp] theorem putResults_d (x : Done) : (s.putResults x).d = s.d := rfl
@[simp] theorem putResults_mem (x : Done) : (s.putResults x).mem = s.mem := rfl
@[simp] theorem putResults_draws (x : Done) : (s.putResults x).draws = s.draws := rfl
@[simp] theorem putResults_host (x : Done) : (s.putResults x).host = s.host := rfl
@[simp] theorem putResults_hostData (x : Done) : (s.putResults x).hostData = s.hostData := rfl
@[simp] theorem putResults_synced (x : Done) : (s.putResults x).synced = s.synced := rfl
@[simp] theorem putResults_runReads (x : Done) : (s.putResults x).runReads = s.runReads := rfl
@[simp] theorem putResults_runWrites (x : Done) : (s.putResults x).runWrites = s.runWrites := rfl
@[simp] theorem putResults_runDests (x : Done) : (s.putResults x).runDests = s.runDests := rfl
@[simp] theorem putResults_hostWrote (x : Done) : (s.putResults x).hostWrote = s.hostWrote := rfl
@[simp] theorem putResults_affected (x : Done) : (s.putResults x).affected = s.affected := rfl
@[simp] theorem putResults_unseen (x : Done) : (s.putResults x).unseen = s.unseen := rfl

/-! ### `completeAt` -/

@[simp] theorem completeAt_busy (n : Word) : (s.completeAt n).busy = s.busy := rfl
@[simp] theorem completeAt_done (n : Word) : (s.completeAt n).done = s.done := rfl
@[simp] theorem completeAt_err (n : Word) : (s.completeAt n).err = s.err := rfl
@[simp] theorem completeAt_errCode (n : Word) : (s.completeAt n).errCode = s.errCode := rfl
@[simp] theorem completeAt_errOp (n : Word) : (s.completeAt n).errOp = s.errOp := rfl
@[simp] theorem completeAt_irqEn (n : Word) : (s.completeAt n).irqEn = s.irqEn := rfl
@[simp] theorem completeAt_cmdPtr (n : Word) : (s.completeAt n).cmdPtr = n := rfl
@[simp] theorem completeAt_result0 (n : Word) : (s.completeAt n).result0 = s.result0 := rfl
@[simp] theorem completeAt_result1 (n : Word) : (s.completeAt n).result1 = s.result1 := rfl
@[simp] theorem completeAt_errAddr (n : Word) : (s.completeAt n).errAddr = s.errAddr := rfl
@[simp] theorem completeAt_cmdCount (n : Word) : (s.completeAt n).cmdCount = s.cmdCount + 1 := rfl
@[simp] theorem completeAt_caps (n : Word) : (s.completeAt n).caps = s.caps := rfl
@[simp] theorem completeAt_bufSize (n : Word) : (s.completeAt n).bufSize = s.bufSize := rfl
@[simp] theorem completeAt_d (n : Word) : (s.completeAt n).d = s.d := rfl
@[simp] theorem completeAt_mem (n : Word) : (s.completeAt n).mem = s.mem := rfl
@[simp] theorem completeAt_draws (n : Word) : (s.completeAt n).draws = s.draws := rfl
@[simp] theorem completeAt_host (n : Word) : (s.completeAt n).host = s.host := rfl
@[simp] theorem completeAt_hostData (n : Word) : (s.completeAt n).hostData = s.hostData := rfl
@[simp] theorem completeAt_synced (n : Word) : (s.completeAt n).synced = s.synced := rfl
@[simp] theorem completeAt_runReads (n : Word) : (s.completeAt n).runReads = s.runReads := rfl
@[simp] theorem completeAt_runWrites (n : Word) : (s.completeAt n).runWrites = s.runWrites := rfl
@[simp] theorem completeAt_runDests (n : Word) : (s.completeAt n).runDests = s.runDests := rfl
@[simp] theorem completeAt_hostWrote (n : Word) : (s.completeAt n).hostWrote = s.hostWrote := rfl
@[simp] theorem completeAt_affected (n : Word) : (s.completeAt n).affected = s.affected := rfl
@[simp] theorem completeAt_unseen (n : Word) : (s.completeAt n).unseen = s.unseen := rfl

/-! ### `advance` -/

@[simp] theorem advance_busy : s.advance.busy = s.busy := rfl
@[simp] theorem advance_done : s.advance.done = s.done := rfl
@[simp] theorem advance_err : s.advance.err = s.err := rfl
@[simp] theorem advance_errCode : s.advance.errCode = s.errCode := rfl
@[simp] theorem advance_errOp : s.advance.errOp = s.errOp := rfl
@[simp] theorem advance_irqEn : s.advance.irqEn = s.irqEn := rfl
@[simp] theorem advance_cmdPtr : s.advance.cmdPtr = s.cmdPtr + 32 := rfl
@[simp] theorem advance_result0 : s.advance.result0 = s.result0 := rfl
@[simp] theorem advance_result1 : s.advance.result1 = s.result1 := rfl
@[simp] theorem advance_errAddr : s.advance.errAddr = s.errAddr := rfl
@[simp] theorem advance_cmdCount : s.advance.cmdCount = s.cmdCount + 1 := rfl
@[simp] theorem advance_caps : s.advance.caps = s.caps := rfl
@[simp] theorem advance_bufSize : s.advance.bufSize = s.bufSize := rfl
@[simp] theorem advance_d : s.advance.d = s.d := rfl
@[simp] theorem advance_mem : s.advance.mem = s.mem := rfl
@[simp] theorem advance_draws : s.advance.draws = s.draws := rfl
@[simp] theorem advance_host : s.advance.host = s.host := rfl
@[simp] theorem advance_hostData : s.advance.hostData = s.hostData := rfl
@[simp] theorem advance_synced : s.advance.synced = s.synced := rfl
@[simp] theorem advance_runReads : s.advance.runReads = s.runReads := rfl
@[simp] theorem advance_runWrites : s.advance.runWrites = s.runWrites := rfl
@[simp] theorem advance_runDests : s.advance.runDests = s.runDests := rfl
@[simp] theorem advance_hostWrote : s.advance.hostWrote = s.hostWrote := rfl
@[simp] theorem advance_affected : s.advance.affected = s.affected := rfl
@[simp] theorem advance_unseen : s.advance.unseen = s.unseen := rfl

/-! ### `haltFlags` -/

@[simp] theorem haltFlags_busy : s.haltFlags.busy = false := rfl
@[simp] theorem haltFlags_done : s.haltFlags.done = true := rfl
@[simp] theorem haltFlags_err : s.haltFlags.err = s.err := rfl
@[simp] theorem haltFlags_errCode : s.haltFlags.errCode = s.errCode := rfl
@[simp] theorem haltFlags_errOp : s.haltFlags.errOp = s.errOp := rfl
@[simp] theorem haltFlags_irqEn : s.haltFlags.irqEn = s.irqEn := rfl
@[simp] theorem haltFlags_cmdPtr : s.haltFlags.cmdPtr = s.cmdPtr := rfl
@[simp] theorem haltFlags_result0 : s.haltFlags.result0 = s.result0 := rfl
@[simp] theorem haltFlags_result1 : s.haltFlags.result1 = s.result1 := rfl
@[simp] theorem haltFlags_errAddr : s.haltFlags.errAddr = s.errAddr := rfl
@[simp] theorem haltFlags_cmdCount : s.haltFlags.cmdCount = s.cmdCount := rfl
@[simp] theorem haltFlags_caps : s.haltFlags.caps = s.caps := rfl
@[simp] theorem haltFlags_bufSize : s.haltFlags.bufSize = s.bufSize := rfl
@[simp] theorem haltFlags_d : s.haltFlags.d = s.d := rfl
@[simp] theorem haltFlags_mem : s.haltFlags.mem = s.mem := rfl
@[simp] theorem haltFlags_draws : s.haltFlags.draws = s.draws := rfl
@[simp] theorem haltFlags_host : s.haltFlags.host = s.host := rfl
@[simp] theorem haltFlags_hostData : s.haltFlags.hostData = s.hostData := rfl
@[simp] theorem haltFlags_synced : s.haltFlags.synced = s.synced := rfl
@[simp] theorem haltFlags_runReads : s.haltFlags.runReads = s.runReads := rfl
@[simp] theorem haltFlags_runWrites : s.haltFlags.runWrites = s.runWrites := rfl
@[simp] theorem haltFlags_runDests : s.haltFlags.runDests = s.runDests := rfl
@[simp] theorem haltFlags_hostWrote : s.haltFlags.hostWrote = s.hostWrote := rfl
@[simp] theorem haltFlags_affected : s.haltFlags.affected = s.affected := rfl
@[simp] theorem haltFlags_unseen : s.haltFlags.unseen = s.unseen := rfl

/-! ### `scramble` -/

@[simp] theorem scramble_busy (r : Region) : (s.scramble r).busy = s.busy := rfl
@[simp] theorem scramble_done (r : Region) : (s.scramble r).done = s.done := rfl
@[simp] theorem scramble_err (r : Region) : (s.scramble r).err = s.err := rfl
@[simp] theorem scramble_errCode (r : Region) : (s.scramble r).errCode = s.errCode := rfl
@[simp] theorem scramble_errOp (r : Region) : (s.scramble r).errOp = s.errOp := rfl
@[simp] theorem scramble_irqEn (r : Region) : (s.scramble r).irqEn = s.irqEn := rfl
@[simp] theorem scramble_cmdPtr (r : Region) : (s.scramble r).cmdPtr = s.cmdPtr := rfl
@[simp] theorem scramble_result0 (r : Region) : (s.scramble r).result0 = s.result0 := rfl
@[simp] theorem scramble_result1 (r : Region) : (s.scramble r).result1 = s.result1 := rfl
@[simp] theorem scramble_errAddr (r : Region) : (s.scramble r).errAddr = s.errAddr := rfl
@[simp] theorem scramble_cmdCount (r : Region) : (s.scramble r).cmdCount = s.cmdCount := rfl
@[simp] theorem scramble_caps (r : Region) : (s.scramble r).caps = s.caps := rfl
@[simp] theorem scramble_bufSize (r : Region) : (s.scramble r).bufSize = s.bufSize := rfl
@[simp] theorem scramble_d (r : Region) : (s.scramble r).d = s.d := rfl
@[simp] theorem scramble_mem (r : Region) : (s.scramble r).mem = s.mem.write r.addr (freeBytes s.draws (r.clipped s.bufSize.toNat)) := rfl
@[simp] theorem scramble_draws (r : Region) : (s.scramble r).draws = s.draws + r.clipped s.bufSize.toNat := rfl
@[simp] theorem scramble_host (r : Region) : (s.scramble r).host = s.host := rfl
@[simp] theorem scramble_hostData (r : Region) : (s.scramble r).hostData = s.hostData := rfl
@[simp] theorem scramble_synced (r : Region) : (s.scramble r).synced = s.synced := rfl
@[simp] theorem scramble_runReads (r : Region) : (s.scramble r).runReads = s.runReads := rfl
@[simp] theorem scramble_runWrites (r : Region) : (s.scramble r).runWrites = s.runWrites := rfl
@[simp] theorem scramble_runDests (r : Region) : (s.scramble r).runDests = s.runDests := rfl
@[simp] theorem scramble_hostWrote (r : Region) : (s.scramble r).hostWrote = s.hostWrote := rfl
@[simp] theorem scramble_affected (r : Region) : (s.scramble r).affected = s.affected := rfl
@[simp] theorem scramble_unseen (r : Region) : (s.scramble r).unseen = s.unseen := rfl

/-! ### `fail` -/

@[simp] theorem fail_busy (e : Err) (op : Byte) : (s.fail e op).busy = false := rfl
@[simp] theorem fail_done (e : Err) (op : Byte) : (s.fail e op).done = s.done := rfl
@[simp] theorem fail_err (e : Err) (op : Byte) : (s.fail e op).err = true := rfl
@[simp] theorem fail_errCode (e : Err) (op : Byte) : (s.fail e op).errCode = e.code := rfl
@[simp] theorem fail_errOp (e : Err) (op : Byte) : (s.fail e op).errOp = op := rfl
@[simp] theorem fail_irqEn (e : Err) (op : Byte) : (s.fail e op).irqEn = s.irqEn := rfl
@[simp] theorem fail_cmdPtr (e : Err) (op : Byte) : (s.fail e op).cmdPtr = s.cmdPtr := rfl
@[simp] theorem fail_result0 (e : Err) (op : Byte) : (s.fail e op).result0 = s.result0 := rfl
@[simp] theorem fail_result1 (e : Err) (op : Byte) : (s.fail e op).result1 = s.result1 := rfl
@[simp] theorem fail_errAddr (e : Err) (op : Byte) : (s.fail e op).errAddr = s.cmdPtr := rfl
@[simp] theorem fail_cmdCount (e : Err) (op : Byte) : (s.fail e op).cmdCount = s.cmdCount := rfl
@[simp] theorem fail_caps (e : Err) (op : Byte) : (s.fail e op).caps = s.caps := rfl
@[simp] theorem fail_bufSize (e : Err) (op : Byte) : (s.fail e op).bufSize = s.bufSize := rfl
@[simp] theorem fail_d (e : Err) (op : Byte) : (s.fail e op).d = s.d := rfl
@[simp] theorem fail_mem (e : Err) (op : Byte) : (s.fail e op).mem = s.mem := rfl
@[simp] theorem fail_draws (e : Err) (op : Byte) : (s.fail e op).draws = s.draws := rfl
@[simp] theorem fail_host (e : Err) (op : Byte) : (s.fail e op).host = s.host := rfl
@[simp] theorem fail_hostData (e : Err) (op : Byte) : (s.fail e op).hostData = s.hostData := rfl
@[simp] theorem fail_synced (e : Err) (op : Byte) : (s.fail e op).synced = s.synced := rfl
@[simp] theorem fail_runReads (e : Err) (op : Byte) : (s.fail e op).runReads = s.runReads := rfl
@[simp] theorem fail_runWrites (e : Err) (op : Byte) : (s.fail e op).runWrites = s.runWrites := rfl
@[simp] theorem fail_runDests (e : Err) (op : Byte) : (s.fail e op).runDests = s.runDests := rfl
@[simp] theorem fail_hostWrote (e : Err) (op : Byte) : (s.fail e op).hostWrote = s.hostWrote := rfl
@[simp] theorem fail_affected (e : Err) (op : Byte) : (s.fail e op).affected = s.affected := rfl
@[simp] theorem fail_unseen (e : Err) (op : Byte) : (s.fail e op).unseen = s.unseen := rfl

/-! ### `startRun` -/

@[simp] theorem startRun_busy : s.startRun.busy = true := rfl
@[simp] theorem startRun_done : s.startRun.done = false := rfl
@[simp] theorem startRun_err : s.startRun.err = false := rfl
@[simp] theorem startRun_errCode : s.startRun.errCode = 0 := rfl
@[simp] theorem startRun_errOp : s.startRun.errOp = 0 := rfl
@[simp] theorem startRun_irqEn : s.startRun.irqEn = s.irqEn := rfl
@[simp] theorem startRun_cmdPtr : s.startRun.cmdPtr = s.cmdPtr := rfl
@[simp] theorem startRun_result0 : s.startRun.result0 = s.result0 := rfl
@[simp] theorem startRun_result1 : s.startRun.result1 = s.result1 := rfl
@[simp] theorem startRun_errAddr : s.startRun.errAddr = s.errAddr := rfl
@[simp] theorem startRun_cmdCount : s.startRun.cmdCount = 0 := rfl
@[simp] theorem startRun_caps : s.startRun.caps = s.caps := rfl
@[simp] theorem startRun_bufSize : s.startRun.bufSize = s.bufSize := rfl
@[simp] theorem startRun_d : s.startRun.d = s.d := rfl
@[simp] theorem startRun_mem : s.startRun.mem = s.mem := rfl
@[simp] theorem startRun_draws : s.startRun.draws = s.draws := rfl
@[simp] theorem startRun_host : s.startRun.host = s.host := rfl
@[simp] theorem startRun_hostData : s.startRun.hostData = s.hostData := rfl
@[simp] theorem startRun_synced : s.startRun.synced = false := rfl
@[simp] theorem startRun_runReads : s.startRun.runReads = [] := rfl
@[simp] theorem startRun_runWrites : s.startRun.runWrites = [] := rfl
@[simp] theorem startRun_runDests : s.startRun.runDests = [] := rfl
@[simp] theorem startRun_hostWrote : s.startRun.hostWrote = [] := rfl
@[simp] theorem startRun_affected : s.startRun.affected = false := rfl
@[simp] theorem startRun_unseen : s.startRun.unseen = if s.synced then [] else s.runDests ++ s.unseen := rfl

/-! ### `openResults` -/

@[simp] theorem openResults_busy : s.openResults.busy = s.busy := rfl
@[simp] theorem openResults_done : s.openResults.done = s.done := rfl
@[simp] theorem openResults_err : s.openResults.err = s.err := rfl
@[simp] theorem openResults_errCode : s.openResults.errCode = s.errCode := rfl
@[simp] theorem openResults_errOp : s.openResults.errOp = s.errOp := rfl
@[simp] theorem openResults_irqEn : s.openResults.irqEn = s.irqEn := rfl
@[simp] theorem openResults_cmdPtr : s.openResults.cmdPtr = s.cmdPtr := rfl
@[simp] theorem openResults_result0 : s.openResults.result0 = freeWord s.draws := rfl
@[simp] theorem openResults_result1 : s.openResults.result1 = freeWord (s.draws + 4) := rfl
@[simp] theorem openResults_errAddr : s.openResults.errAddr = s.errAddr := rfl
@[simp] theorem openResults_cmdCount : s.openResults.cmdCount = s.cmdCount := rfl
@[simp] theorem openResults_caps : s.openResults.caps = s.caps := rfl
@[simp] theorem openResults_bufSize : s.openResults.bufSize = s.bufSize := rfl
@[simp] theorem openResults_d : s.openResults.d = s.d := rfl
@[simp] theorem openResults_mem : s.openResults.mem = s.mem := rfl
@[simp] theorem openResults_draws : s.openResults.draws = s.draws + 8 := rfl
@[simp] theorem openResults_host : s.openResults.host = s.host := rfl
@[simp] theorem openResults_hostData : s.openResults.hostData = s.hostData := rfl
@[simp] theorem openResults_synced : s.openResults.synced = s.synced := rfl
@[simp] theorem openResults_runReads : s.openResults.runReads = s.runReads := rfl
@[simp] theorem openResults_runWrites : s.openResults.runWrites = s.runWrites := rfl
@[simp] theorem openResults_runDests : s.openResults.runDests = s.runDests := rfl
@[simp] theorem openResults_hostWrote : s.openResults.hostWrote = s.hostWrote := rfl
@[simp] theorem openResults_affected : s.openResults.affected = s.affected := rfl
@[simp] theorem openResults_unseen : s.openResults.unseen = s.unseen := rfl

/-! ### `openControl` -/

@[simp] theorem openControl_busy : s.openControl.busy = s.busy := rfl
@[simp] theorem openControl_done : s.openControl.done = s.done := rfl
@[simp] theorem openControl_err : s.openControl.err = s.err := rfl
@[simp] theorem openControl_errCode : s.openControl.errCode = s.errCode := rfl
@[simp] theorem openControl_errOp : s.openControl.errOp = s.errOp := rfl
@[simp] theorem openControl_irqEn : s.openControl.irqEn = s.irqEn := rfl
@[simp] theorem openControl_cmdPtr : s.openControl.cmdPtr = freeWord (s.draws + 32) := rfl
@[simp] theorem openControl_result0 : s.openControl.result0 = s.result0 := rfl
@[simp] theorem openControl_result1 : s.openControl.result1 = s.result1 := rfl
@[simp] theorem openControl_errAddr : s.openControl.errAddr = s.errAddr := rfl
@[simp] theorem openControl_cmdCount : s.openControl.cmdCount = freeWord (s.draws + 36) := rfl
@[simp] theorem openControl_caps : s.openControl.caps = s.caps := rfl
@[simp] theorem openControl_bufSize : s.openControl.bufSize = s.bufSize := rfl
@[simp] theorem openControl_d : s.openControl.d = Desc.ofBytes (freeBytes s.draws 32) := rfl
@[simp] theorem openControl_mem : s.openControl.mem = s.mem := rfl
@[simp] theorem openControl_draws : s.openControl.draws = s.draws + 40 := rfl
@[simp] theorem openControl_host : s.openControl.host = s.host := rfl
@[simp] theorem openControl_hostData : s.openControl.hostData = s.hostData := rfl
@[simp] theorem openControl_synced : s.openControl.synced = s.synced := rfl
@[simp] theorem openControl_runReads : s.openControl.runReads = s.runReads := rfl
@[simp] theorem openControl_runWrites : s.openControl.runWrites = s.runWrites := rfl
@[simp] theorem openControl_runDests : s.openControl.runDests = s.runDests := rfl
@[simp] theorem openControl_hostWrote : s.openControl.hostWrote = s.hostWrote := rfl
@[simp] theorem openControl_affected : s.openControl.affected = s.affected := rfl
@[simp] theorem openControl_unseen : s.openControl.unseen = s.unseen := rfl

/-! ### `writeDuringRun` -/

@[simp] theorem writeDuringRun_busy (a : Nat) (bs : List Byte) : (s.writeDuringRun a bs).busy = s.busy := rfl
@[simp] theorem writeDuringRun_done (a : Nat) (bs : List Byte) : (s.writeDuringRun a bs).done = s.done := rfl
@[simp] theorem writeDuringRun_err (a : Nat) (bs : List Byte) : (s.writeDuringRun a bs).err = s.err := rfl
@[simp] theorem writeDuringRun_errCode (a : Nat) (bs : List Byte) : (s.writeDuringRun a bs).errCode = s.errCode := rfl
@[simp] theorem writeDuringRun_errOp (a : Nat) (bs : List Byte) : (s.writeDuringRun a bs).errOp = s.errOp := rfl
@[simp] theorem writeDuringRun_irqEn (a : Nat) (bs : List Byte) : (s.writeDuringRun a bs).irqEn = s.irqEn := rfl
@[simp] theorem writeDuringRun_cmdPtr (a : Nat) (bs : List Byte) : (s.writeDuringRun a bs).cmdPtr = s.cmdPtr := rfl
@[simp] theorem writeDuringRun_result0 (a : Nat) (bs : List Byte) : (s.writeDuringRun a bs).result0 = s.result0 := rfl
@[simp] theorem writeDuringRun_result1 (a : Nat) (bs : List Byte) : (s.writeDuringRun a bs).result1 = s.result1 := rfl
@[simp] theorem writeDuringRun_errAddr (a : Nat) (bs : List Byte) : (s.writeDuringRun a bs).errAddr = s.errAddr := rfl
@[simp] theorem writeDuringRun_cmdCount (a : Nat) (bs : List Byte) : (s.writeDuringRun a bs).cmdCount = s.cmdCount := rfl
@[simp] theorem writeDuringRun_caps (a : Nat) (bs : List Byte) : (s.writeDuringRun a bs).caps = s.caps := rfl
@[simp] theorem writeDuringRun_bufSize (a : Nat) (bs : List Byte) : (s.writeDuringRun a bs).bufSize = s.bufSize := rfl
@[simp] theorem writeDuringRun_d (a : Nat) (bs : List Byte) : (s.writeDuringRun a bs).d = s.d := rfl
@[simp] theorem writeDuringRun_mem (a : Nat) (bs : List Byte) : (s.writeDuringRun a bs).mem = s.mem.write a bs := rfl
@[simp] theorem writeDuringRun_draws (a : Nat) (bs : List Byte) : (s.writeDuringRun a bs).draws = s.draws := rfl
@[simp] theorem writeDuringRun_host (a : Nat) (bs : List Byte) : (s.writeDuringRun a bs).host = s.host := rfl
@[simp] theorem writeDuringRun_hostData (a : Nat) (bs : List Byte) : (s.writeDuringRun a bs).hostData = s.hostData := rfl
@[simp] theorem writeDuringRun_synced (a : Nat) (bs : List Byte) : (s.writeDuringRun a bs).synced = s.synced := rfl
@[simp] theorem writeDuringRun_runReads (a : Nat) (bs : List Byte) : (s.writeDuringRun a bs).runReads = s.runReads := rfl
@[simp] theorem writeDuringRun_runWrites (a : Nat) (bs : List Byte) : (s.writeDuringRun a bs).runWrites = s.runWrites := rfl
@[simp] theorem writeDuringRun_runDests (a : Nat) (bs : List Byte) : (s.writeDuringRun a bs).runDests = s.runDests := rfl
@[simp] theorem writeDuringRun_hostWrote (a : Nat) (bs : List Byte) : (s.writeDuringRun a bs).hostWrote = addressesFrom a bs.length ++ s.hostWrote := rfl
@[simp] theorem writeDuringRun_affected (a : Nat) (bs : List Byte) : (s.writeDuringRun a bs).affected = (s.affected || (addressesFrom a bs.length).any (covers (s.runReads ++ s.runWrites))) := rfl
@[simp] theorem writeDuringRun_unseen (a : Nat) (bs : List Byte) : (s.writeDuringRun a bs).unseen = s.unseen := rfl

/-! ### `resetRegisters` -/

@[simp] theorem resetRegisters_busy : s.resetRegisters.busy = false := rfl
@[simp] theorem resetRegisters_done : s.resetRegisters.done = false := rfl
@[simp] theorem resetRegisters_err : s.resetRegisters.err = false := rfl
@[simp] theorem resetRegisters_errCode : s.resetRegisters.errCode = 0 := rfl
@[simp] theorem resetRegisters_errOp : s.resetRegisters.errOp = 0 := rfl
@[simp] theorem resetRegisters_irqEn : s.resetRegisters.irqEn = false := rfl
@[simp] theorem resetRegisters_cmdPtr : s.resetRegisters.cmdPtr = 0 := rfl
@[simp] theorem resetRegisters_result0 : s.resetRegisters.result0 = 0 := rfl
@[simp] theorem resetRegisters_result1 : s.resetRegisters.result1 = 0 := rfl
@[simp] theorem resetRegisters_errAddr : s.resetRegisters.errAddr = 0 := rfl
@[simp] theorem resetRegisters_cmdCount : s.resetRegisters.cmdCount = 0 := rfl
@[simp] theorem resetRegisters_caps : s.resetRegisters.caps = s.caps := rfl
@[simp] theorem resetRegisters_bufSize : s.resetRegisters.bufSize = s.bufSize := rfl
@[simp] theorem resetRegisters_d : s.resetRegisters.d = s.d := rfl
@[simp] theorem resetRegisters_mem : s.resetRegisters.mem = s.mem := rfl
@[simp] theorem resetRegisters_draws : s.resetRegisters.draws = s.draws := rfl
@[simp] theorem resetRegisters_host : s.resetRegisters.host = s.host := rfl
@[simp] theorem resetRegisters_hostData : s.resetRegisters.hostData = s.hostData := rfl
@[simp] theorem resetRegisters_synced : s.resetRegisters.synced = s.synced := rfl
@[simp] theorem resetRegisters_runReads : s.resetRegisters.runReads = s.runReads := rfl
@[simp] theorem resetRegisters_runWrites : s.resetRegisters.runWrites = s.runWrites := rfl
@[simp] theorem resetRegisters_runDests : s.resetRegisters.runDests = s.runDests := rfl
@[simp] theorem resetRegisters_hostWrote : s.resetRegisters.hostWrote = s.hostWrote := rfl
@[simp] theorem resetRegisters_affected : s.resetRegisters.affected = s.affected := rfl
@[simp] theorem resetRegisters_unseen : s.resetRegisters.unseen = s.unseen := rfl

end Sys2Proof.Machine.State
end

