-- ==== Sys2Proof/Laws/Ops.lean ====
section
/-! SUPPORT. One lemma for each shared operation: the checks of R139, `emit`, and the two ways a command ends. -/

namespace Sys2Proof.Machine

/-! ### Errors and checks -/

theorem code_mem_errorCodes (e : Err) : e.code ∈ errorCodes := by cases e <;> decide

/-- A bind succeeds exactly when both parts do. -/
theorem bind_ok_iff {α β : Type} (x : Except Err α) (f : α → Except Err β) (b : β) :
    (x >>= f) = .ok b ↔ ∃ a, x = .ok a ∧ f a = .ok b := by
  cases x <;> simp [bind, Except.bind]

/-- A check yields nothing but its passing. -/
theorem exists_unit (p : Unit → Prop) : (∃ u, p u) ↔ p () := ⟨fun ⟨_, h⟩ => h, fun h => ⟨(), h⟩⟩

/-- A bind fails in its first part, or after that succeeded in its second. -/
theorem bind_error_iff {α β : Type} (x : Except Err α) (f : α → Except Err β) (e : Err) :
    (x >>= f) = .error e ↔ x = .error e ∨ ∃ a, x = .ok a ∧ f a = .error e := by
  cases x <;> simp [bind, Except.bind]

@[simp] theorem ok_bind {α β : Type} (a : α) (f : α → Except Err β) :
    ((Except.ok a : Except Err α) >>= f) = f a := rfl

@[simp] theorem error_bind {α β : Type} (e : Err) (f : α → Except Err β) :
    ((Except.error e : Except Err α) >>= f) = .error e := rfl

@[simp] theorem needLen_ok (v lo hi : Nat) : needLen v lo hi = .ok () ↔ lo ≤ v ∧ v ≤ hi := by
  unfold needLen; split <;> simp <;> omega

theorem needLen_error (v lo hi : Nat) (e : Err) :
    needLen v lo hi = .error e ↔ e = .invalidInput ∧ (v < lo ∨ hi < v) := by
  unfold needLen; split <;> simp <;> grind

@[simp] theorem needRegion_ok (size : Nat) (r : Region) (al : Nat) :
    needRegion size r al = .ok () ↔ r.addr % al = 0 ∧ r.addr + r.len ≤ size := by
  unfold needRegion; split <;> simp <;> omega

theorem needRegion_error (size : Nat) (r : Region) (al : Nat) (e : Err) :
    needRegion size r al = .error e ↔
      e = .addressError ∧ (r.addr % al ≠ 0 ∨ size < r.addr + r.len) := by
  unfold needRegion; split <;> simp <;> grind

/-- Two regions overlap exactly when they share a byte (20_memory.md R67). -/
theorem overlaps_iff (r q : Region) :
    r.overlaps q = true ↔ ∃ a, r.has a = true ∧ q.has a = true := by
  simp only [Region.overlaps, Region.has, Bool.and_eq_true, decide_eq_true_eq]
  constructor
  · rintro ⟨⟨⟨h1, h2⟩, h3⟩, h4⟩
    by_cases h : r.addr ≤ q.addr
    · exact ⟨q.addr, by omega, by omega⟩
    · exact ⟨r.addr, by omega, by omega⟩
  · rintro ⟨a, ⟨h1, h2⟩, h3, h4⟩
    omega

@[simp] theorem noOverlap_ok (r q : Region) : noOverlap r q = .ok () ↔ r.overlaps q = false := by
  unfold noOverlap; split <;> simp_all

theorem noOverlap_error (r q : Region) (e : Err) :
    noOverlap r q = .error e ↔ e = .invalidInput ∧ r.overlaps q = true := by
  unfold noOverlap; split <;> simp_all; grind

@[simp] theorem needCap_ok (cap k : Nat) : needCap cap k = .ok () ↔ k ≤ cap := by
  unfold needCap; split <;> simp <;> omega

theorem needCap_error (cap k : Nat) (e : Err) :
    needCap cap k = .error e ↔ e = .capacityExceeded ∧ cap < k := by
  unfold needCap; split <;> simp <;> grind

/-! ### `emit` -/

/-- Output to scratch never fails. -/
@[simp] theorem emitAll_scratch (out bs : List Byte) : emitAll none out bs = .ok (out ++ bs) := by
  induction bs generalizing out with
  | nil => simp [emitAll]
  | cons b bs ih => simp [emitAll, emit, ih]

/-- Output to a destination succeeds exactly when it fits, and then appends. -/
theorem emitAll_capped (cap : Nat) (out bs : List Byte) (h : out.length ≤ cap) :
    emitAll (some cap) out bs =
      if out.length + bs.length ≤ cap then .ok (out ++ bs) else .error .capacityExceeded := by
  induction bs generalizing out with
  | nil => simp [emitAll, h]
  | cons b bs ih =>
    unfold emitAll emit
    by_cases hc : cap = out.length
    · simp [hc]
    · have h1 : (out ++ [b]).length ≤ cap := by simp; omega
      simp only [Option.some.injEq, hc, if_false, ih _ h1]
      simp only [List.length_append, List.length_cons, List.length_nil, List.append_assoc,
        List.singleton_append]
      congr 1
      simp; omega

/-- Output in two parts. -/
theorem emitAll_append (cap : Option Nat) (out as bs : List Byte) :
    emitAll cap out (as ++ bs) = emitAll cap out as >>= fun o => emitAll cap o bs := by
  induction as generalizing out with
  | nil => rfl
  | cons a as ih =>
    simp only [List.cons_append, emitAll]
    cases emit cap out a with
    | ok o => simp only [ih]
    | error x => rfl

/-- `repeat k times: emit(0x00)` outputs `k` zero bytes. -/
theorem emitZeros_eq (cap : Option Nat) (out : List Byte) (k : Nat) :
    emitZeros cap out k = emitAll cap out (List.replicate k 0) := by
  induction k generalizing out with
  | zero => rfl
  | succ k ih =>
    simp only [emitZeros, List.replicate_succ, emitAll]
    split <;> simp_all

theorem emitAll_error (cap : Option Nat) (out bs : List Byte) (e : Err)
    (h : emitAll cap out bs = .error e) : e = .capacityExceeded := by
  induction bs generalizing out with
  | nil => simp [emitAll] at h
  | cons b bs ih =>
    simp only [emitAll, emit] at h
    split at h
    · exact ih _ h
    · next h' => split at h' <;> simp_all

/-! ### How a data command ends -/

/-- The two ends of a data command with a destination. -/
theorem conclude_cases (op : Byte) (dst : Region) (r : Except Err Done) (s t : State)
    (h : conclude op dst r s = .next t) :
    (∃ x, r = .ok x ∧ t = ((s.putBytes dst.addr x.out).putResults x).advance) ∨
      (∃ e, r = .error e ∧ t = (s.scramble dst).fail e op) := by
  cases r with
  | ok x => exact .inl ⟨x, rfl, by simpa [conclude] using h.symm⟩
  | error e => exact .inr ⟨e, rfl, by simpa [conclude] using h.symm⟩

/-- The two ends of a data command without a destination. -/
theorem concludeNoDst_cases (op : Byte) (r : Except Err Word) (s t : State)
    (h : concludeNoDst op r s = .next t) :
    (∃ w, r = .ok w ∧ t = (s.putResults ⟨[], w⟩).advance) ∨
      (∃ e, r = .error e ∧ t = s.fail e op) := by
  cases r with
  | ok w => exact .inl ⟨w, rfl, by simpa [concludeNoDst] using h.symm⟩
  | error e => exact .inr ⟨e, rfl, by simpa [concludeNoDst] using h.symm⟩

end Sys2Proof.Machine
end

