-- ==== Sys2Proof/Laws/Tokens.lean ====
section
/-! SUPPORT. Token streams (30_encoding.md R110, R111): writing a token list and parsing it back, and lengths. -/

namespace Sys2Proof.Machine

/-- A token a stream can hold (R110). -/
def Token.Valid : Token → Prop
  | .lit r => r ≠ 0
  | .run k => 1 ≤ k ∧ k < 2 ^ 32

/-- The rank count of a token list (R111). -/
def countAll : List Token → Nat
  | [] => 0
  | t :: ts => t.count + countAll ts

@[simp] theorem tokenBytes_append (ts us : List Token) :
    tokenBytes (ts ++ us) = tokenBytes ts ++ tokenBytes us := by
  induction ts with
  | nil => rfl
  | cons t ts ih => simp [tokenBytes, ih]

@[simp] theorem expand_append (ts us : List Token) : expand (ts ++ us) = expand ts ++ expand us := by
  induction ts with
  | nil => rfl
  | cons t ts ih => simp [expand, ih]

theorem ranks_length (t : Token) : t.ranks.length = t.count := by cases t <;> simp [Token.ranks, Token.count]

/-- The rank count is the length of the expansion (R111). -/
theorem expand_length (ts : List Token) : (expand ts).length = countAll ts := by
  induction ts with
  | nil => rfl
  | cons t ts ih => simp [expand, countAll, ih, ranks_length]

/-! ### One token at the head of a stream -/

theorem parseTokens_lit (e : Err) (b : Byte) (t : List Byte) (hb : b ≠ 0) :
    parseTokens e (b :: t) =
      match parseTokens e t with
      | .ok ts => .ok (.lit b :: ts)
      | .error x => .error x := by
  cases h : parseTokens e t <;> rw [parseTokens.eq_def] <;> simp only [if_pos hb, h]

theorem parseTokens_run (e : Err) (k0 k1 k2 k3 : Byte) (r : List Byte) :
    parseTokens e (0 :: k0 :: k1 :: k2 :: k3 :: r) =
      if ofLe32 k0 k1 k2 k3 = 0 then .error e
      else
        match parseTokens e r with
        | .ok ts => .ok (.run (ofLe32 k0 k1 k2 k3).toNat :: ts)
        | .error x => .error x := by
  cases h : parseTokens e r <;> rw [parseTokens.eq_def] <;> simp [h]

theorem parseTokens_short (e : Err) (t : List Byte) (h : t.length < 4) :
    parseTokens e (0 :: t) = .error e := by
  rcases t with _ | ⟨a, _ | ⟨b, _ | ⟨c, _ | ⟨d, r⟩⟩⟩⟩
  all_goals first
    | (simp only [List.length_cons] at h; omega)
    | (rw [parseTokens.eq_def]; simp only [ne_eq, not_true_eq_false, if_false])

theorem rleDecGo_lit (cap : Option Nat) (out : List Byte) (b : Byte) (t : List Byte) (hb : b ≠ 0) :
    rleDecGo cap out (b :: t) =
      match emit cap out b with
      | .ok out' => rleDecGo cap out' t
      | .error e => .error e := by
  cases h : emit cap out b <;> rw [rleDecGo.eq_def] <;> simp only [if_pos hb, h]

theorem rleDecGo_run (cap : Option Nat) (out : List Byte) (k0 k1 k2 k3 : Byte) (r : List Byte) :
    rleDecGo cap out (0 :: k0 :: k1 :: k2 :: k3 :: r) =
      if ofLe32 k0 k1 k2 k3 = 0 then .error .corruptStream
      else
        match emitZeros cap out (ofLe32 k0 k1 k2 k3).toNat with
        | .ok out' => rleDecGo cap out' r
        | .error e => .error e := by
  cases h : emitZeros cap out (ofLe32 k0 k1 k2 k3).toNat <;> rw [rleDecGo.eq_def] <;> simp [h]

theorem rleDecGo_short (cap : Option Nat) (out t : List Byte) (h : t.length < 4) :
    rleDecGo cap out (0 :: t) = .error .corruptStream := by
  rcases t with _ | ⟨a, _ | ⟨b, _ | ⟨c, _ | ⟨d, r⟩⟩⟩⟩
  all_goals first
    | (simp only [List.length_cons] at h; omega)
    | (rw [rleDecGo.eq_def]; simp only [ne_eq, not_true_eq_false, if_false])

/-- The shapes of a token stream (R111): empty, a literal first, a whole run token first, a cut run token. -/
theorem stream_cases (P : List Byte → Prop) (nil : P [])
    (lit : ∀ b t, b ≠ 0 → P t → P (b :: t))
    (run : ∀ k0 k1 k2 k3 r, P r → P (0 :: k0 :: k1 :: k2 :: k3 :: r))
    (short : ∀ t, t.length < 4 → P (0 :: t)) (s : List Byte) : P s := by
  induction hn : s.length using Nat.strong_induction_on generalizing s with
  | _ n ih =>
    cases s with
    | nil => exact nil
    | cons b t =>
      simp only [List.length_cons] at hn
      by_cases hb : b = 0
      · subst hb
        rcases t with _ | ⟨k0, _ | ⟨k1, _ | ⟨k2, _ | ⟨k3, r⟩⟩⟩⟩
        · exact short _ (by simp)
        · exact short _ (by simp)
        · exact short _ (by simp)
        · exact short _ (by simp)
        · exact run k0 k1 k2 k3 r (ih r.length (by simp only [List.length_cons] at hn; omega) r rfl)
      · exact lit b t hb (ih t.length (by omega) t rfl)

/-! ### Whole streams -/

/-- Parsing one valid token at the head of a stream. -/
theorem parseTokens_cons (e : Err) (t : Token) (h : t.Valid) (s : List Byte) :
    parseTokens e (t.bytes ++ s) =
      match parseTokens e s with
      | .ok ts => .ok (t :: ts)
      | .error x => .error x := by
  cases t with
  | lit r => exact parseTokens_lit e r s h
  | run k =>
    obtain ⟨h1, h2⟩ := h
    have hk : (BitVec.ofNat 32 k).toNat = k := by
      rw [BitVec.toNat_ofNat]; exact Nat.mod_eq_of_lt h2
    have h0 : BitVec.ofNat 32 k ≠ 0 := by
      intro h0
      have h3 := congrArg BitVec.toNat h0
      rw [hk] at h3
      simp at h3
      omega
    simp only [Token.bytes, le32, List.cons_append, List.nil_append, parseTokens_run,
      ofLe32_le32, h0, if_false, hk]

/-- Parsing the bytes of valid tokens gives the tokens back (R110, R111). -/
theorem parseTokens_tokenBytes (e : Err) (ts : List Token) (h : ∀ t ∈ ts, t.Valid) :
    parseTokens e (tokenBytes ts) = .ok ts := by
  induction ts with
  | nil => simp [tokenBytes, parseTokens]
  | cons t ts ih =>
    rw [tokenBytes, parseTokens_cons e t (h t (by simp)), ih fun u hu => h u (by simp [hu])]

/-- Every token parsing finds is valid, and the tokens' bytes are the stream. -/
theorem parseTokens_ok (e : Err) (s : List Byte) (ts : List Token) (h : parseTokens e s = .ok ts) :
    (∀ t ∈ ts, t.Valid) ∧ tokenBytes ts = s := by
  induction s using stream_cases generalizing ts with
  | nil =>
    obtain rfl : [] = ts := by simpa [parseTokens] using h
    simp [tokenBytes]
  | lit b t hb ih =>
    rw [parseTokens_lit e b t hb] at h
    cases hp : parseTokens e t with
    | error x => simp [hp] at h
    | ok us =>
      obtain rfl : _ = ts := by simpa [hp] using h
      obtain ⟨h1, h2⟩ := ih us hp
      refine ⟨?_, by simp [tokenBytes, Token.bytes, h2]⟩
      intro u hu
      rcases List.mem_cons.mp hu with rfl | hu
      · exact hb
      · exact h1 u hu
  | run k0 k1 k2 k3 r ih =>
    rw [parseTokens_run] at h
    by_cases hz : ofLe32 k0 k1 k2 k3 = 0
    · simp [hz] at h
    · cases hp : parseTokens e r with
      | error x => rw [if_neg hz, hp] at h; simp at h
      | ok us =>
        rw [if_neg hz, hp] at h
        obtain rfl : _ = ts := by simpa using h
        obtain ⟨h1, h2⟩ := ih us hp
        refine ⟨?_, by simp [tokenBytes, Token.bytes, h2, le32_ofLe32]⟩
        intro u hu
        rcases List.mem_cons.mp hu with rfl | hu
        · refine ⟨?_, (ofLe32 k0 k1 k2 k3).isLt⟩
          by_contra hlt
          exact hz (BitVec.eq_of_toNat_eq (by simp; omega))
        · exact h1 u hu
  | short t ht => rw [parseTokens_short e t ht] at h; simp at h

/-- RLE_DEC's interleaved loop into scratch is parsing followed by expansion (43_rank_run.md R196, R198). -/
theorem rleDecGo_scratch (out s : List Byte) :
    rleDecGo none out s =
      match parseTokens .corruptStream s with
      | .ok ts => .ok (out ++ expand ts)
      | .error e => .error e := by
  induction s using stream_cases generalizing out with
  | nil => simp [rleDecGo, parseTokens, expand]
  | lit b t hb ih =>
    rw [rleDecGo_lit none out b t hb, parseTokens_lit _ b t hb]
    simp only [emit, reduceCtorEq, if_false, ih]
    cases parseTokens .corruptStream t <;> simp [expand, Token.ranks]
  | run k0 k1 k2 k3 r ih =>
    rw [rleDecGo_run, parseTokens_run]
    by_cases hz : ofLe32 k0 k1 k2 k3 = 0
    · simp [hz]
    · simp only [hz, if_false, emitZeros_eq, emitAll_scratch, ih]
      cases parseTokens .corruptStream r <;> simp [expand, Token.ranks]
  | short t ht => rw [rleDecGo_short none out t ht, parseTokens_short _ t ht]

/-! ### Lengths of the stages -/

@[simp] theorem mtfEncGo_length (q x : List Byte) : (mtfEncGo q x).length = x.length := by
  induction x generalizing q with
  | nil => rfl
  | cons b bs ih => simp [mtfEncGo, ih]

@[simp] theorem mtfDecGo_length (q r : List Byte) : (mtfDecGo q r).length = r.length := by
  induction r generalizing q with
  | nil => rfl
  | cons b bs ih => simp [mtfDecGo, ih]

@[simp] theorem mtfEncode_length (x : List Byte) : (mtfEncode x).length = x.length := mtfEncGo_length _ _

@[simp] theorem mtfDecode_length (r : List Byte) : (mtfDecode r).length = r.length := mtfDecGo_length _ _

end Sys2Proof.Machine
end

