-- ==== Sys2Proof/Laws/Entropy.lean ====
section
/-! SUPPORT. The range coder's output (45_entropy.md R244, R248, R249): output to scratch never fails, output to a
destination is the same output when it fits, and never passes the capacity. -/

namespace Sys2Proof.Machine

/-- The encoder with another output capacity. -/
def Enc.capped (e : Enc) (c : Nat) : Enc := { e with cap := some c }

/-- An encoder step that never fails into scratch, only adds output, and does the same into a destination that is large
enough. -/
def Lifts (f : Enc → Except Err Enc) : Prop :=
  ∀ e, e.cap = none → ∃ e', f e = .ok e' ∧ e'.cap = none ∧ e.out.length ≤ e'.out.length ∧
    ∀ c, e'.out.length ≤ c → f (e.capped c) = .ok (e'.capped c)

/-- An encoder step that never passes the capacity of its destination. -/
def Fits (f : Enc → Except Err Enc) : Prop :=
  ∀ e c e', e.cap = some c → e.out.length ≤ c → f e = .ok e' → e'.cap = some c ∧ e'.out.length ≤ c

theorem Lifts.bind {f g : Enc → Except Err Enc} (hf : Lifts f) (hg : Lifts g) :
    Lifts fun e => f e >>= g := by
  intro e he
  obtain ⟨e1, h1, h2, h3, h4⟩ := hf e he
  obtain ⟨e2, k1, k2, k3, k4⟩ := hg e1 h2
  refine ⟨e2, by simp only [h1, ok_bind, k1], k2, by omega, fun c hc => ?_⟩
  simp only [h4 c (by omega), ok_bind, k4 c hc]

theorem Fits.bind {f g : Enc → Except Err Enc} (hf : Fits f) (hg : Fits g) :
    Fits fun e => f e >>= g := by
  intro e c e' h1 h2 h
  obtain ⟨e1, k1, k2⟩ := (bind_ok_iff _ _ _).mp h
  obtain ⟨h3, h4⟩ := hf e c e1 h1 h2 k1
  exact hg e1 c e' h3 h4 k2

theorem lifts_ok : Lifts Except.ok := fun e he => ⟨e, rfl, he, le_rfl, fun _ _ => rfl⟩

theorem fits_ok : Fits Except.ok := by
  intro e c e' h1 h2 h
  obtain rfl : e = e' := by simpa using h
  exact ⟨h1, h2⟩

/-! ### The steps of the encoder -/

/-- `shift_low` on an encoder written out (R244). -/
theorem shiftLow_mk (low range cache csize : Nat) (cells : Cells) (cap : Option Nat) (out : List Byte) :
    shiftLow ⟨low, range, cache, csize, cells, cap, out⟩ =
      if low % 2 ^ 32 < 0xFF000000 ∨ 2 ^ 32 ≤ low then
        match emitAll cap out (heldBytes cache csize (low >>> 32)) with
        | .ok out => .ok ⟨(low % 2 ^ 24) <<< 8, range, (low >>> 24) % 256, 1, cells, cap, out⟩
        | .error x => .error x
      else .ok ⟨(low % 2 ^ 24) <<< 8, range, cache, csize + 1, cells, cap, out⟩ := rfl

theorem shiftLow_lifts : Lifts shiftLow := by
  intro e he
  obtain ⟨low, range, cache, csize, cells, cap, out⟩ := e
  obtain rfl : cap = none := he
  have hcapped : ∀ c, Enc.capped ⟨low, range, cache, csize, cells, none, out⟩ c =
      ⟨low, range, cache, csize, cells, some c, out⟩ := fun _ => rfl
  simp only [hcapped, shiftLow_mk, emitAll_scratch]
  by_cases h : low % 2 ^ 32 < 0xFF000000 ∨ 2 ^ 32 ≤ low
  · simp only [if_pos h]
    refine ⟨_, rfl, rfl, by simp, fun c hc => ?_⟩
    simp only [List.length_append] at hc
    rw [emitAll_capped c _ _ (by omega), if_pos hc]
    rfl
  · simp only [if_neg h]
    exact ⟨_, rfl, rfl, le_rfl, fun c hc => rfl⟩

theorem emitAll_fits (c : Nat) (out bs out' : List Byte) (h : out.length ≤ c)
    (he : emitAll (some c) out bs = .ok out') : out'.length ≤ c := by
  rw [emitAll_capped c out bs h] at he
  split at he
  · simp only [Except.ok.injEq] at he; simp only [← he, List.length_append]; omega
  · simp at he

theorem shiftLow_fits : Fits shiftLow := by
  intro e c e' h1 h2 h
  simp only [shiftLow, h1] at h
  split at h
  · split at h
    · next out ho =>
      simp only [Except.ok.injEq] at h
      subst h
      exact ⟨rfl, emitAll_fits c _ _ _ h2 ho⟩
    · simp at h
  · simp only [Except.ok.injEq] at h
    subst h
    exact ⟨rfl, h2⟩

theorem encRenorm_succ (k : Nat) (e : Enc) :
    encRenorm (k + 1) e =
      if e.range < rcTop then shiftLow { e with range := (e.range <<< 8) % 2 ^ 32 } >>= encRenorm k
      else .ok e := by
  simp only [encRenorm]
  split
  · cases shiftLow { e with range := (e.range <<< 8) % 2 ^ 32 } <;> rfl
  · rfl

theorem encRenorm_lifts (k : Nat) : Lifts (encRenorm k) := by
  induction k with
  | zero => exact lifts_ok
  | succ k ih =>
    intro e he
    simp only [encRenorm_succ]
    by_cases h : e.range < rcTop
    · simpa only [Enc.capped, h, if_true] using
        (shiftLow_lifts.bind ih) { e with range := (e.range <<< 8) % 2 ^ 32 } he
    · simpa only [Enc.capped, h, if_false] using lifts_ok e he

theorem encRenorm_fits (k : Nat) : Fits (encRenorm k) := by
  induction k with
  | zero => exact fits_ok
  | succ k ih =>
    intro e c e' h1 h2 h
    rw [encRenorm_succ] at h
    split at h
    · exact (shiftLow_fits.bind ih) { e with range := (e.range <<< 8) % 2 ^ 32 } c e' h1 h2 h
    · exact fits_ok e c e' h1 h2 h

theorem encodeBit_lifts (c : Ctx) (b : Bool) : Lifts fun e => encodeBit e c b := by
  intro e he
  have h := encRenorm_lifts renormRounds (narrow e c b)
  unfold encodeBit
  cases b <;> simpa [narrow, Enc.capped] using h he

theorem encodeBit_fits (c : Ctx) (b : Bool) : Fits fun e => encodeBit e c b := by
  intro e n e' h1 h2 h
  refine encRenorm_fits renormRounds (narrow e c b) n e' ?_ ?_ h <;> cases b <;> simpa [narrow]

theorem shiftTimes_succ (k : Nat) : shiftTimes (k + 1) = fun e => shiftLow e >>= shiftTimes k := by
  funext e
  simp only [shiftTimes]
  cases shiftLow e <;> rfl

theorem shiftTimes_lifts (k : Nat) : Lifts (shiftTimes k) := by
  induction k with
  | zero => exact lifts_ok
  | succ k ih => rw [shiftTimes_succ]; exact shiftLow_lifts.bind ih

theorem shiftTimes_fits (k : Nat) : Fits (shiftTimes k) := by
  induction k with
  | zero => exact fits_ok
  | succ k ih => rw [shiftTimes_succ]; exact shiftLow_fits.bind ih

theorem encodeTree_succ (mk : Nat → Ctx) (v k node : Nat) :
    encodeTree mk v (k + 1) node = fun e =>
      encodeBit e (mk node) (v.testBit k) >>= encodeTree mk v k (2 * node + (v.testBit k).toNat) := by
  funext e
  simp only [encodeTree]
  cases encodeBit e (mk node) (v.testBit k) <;> rfl

theorem encodeTree_lifts (mk : Nat → Ctx) (v k node : Nat) : Lifts (encodeTree mk v k node) := by
  induction k generalizing node with
  | zero => exact lifts_ok
  | succ k ih => rw [encodeTree_succ]; exact (encodeBit_lifts _ _).bind (ih _)

theorem encodeTree_fits (mk : Nat → Ctx) (v k node : Nat) : Fits (encodeTree mk v k node) := by
  induction k generalizing node with
  | zero => exact fits_ok
  | succ k ih => rw [encodeTree_succ]; exact (encodeBit_fits _ _).bind (ih _)

theorem encodeLowBits_succ (v k : Nat) :
    encodeLowBits v (k + 1) = fun e => encodeBit e (.rbit k) (v.testBit k) >>= encodeLowBits v k := by
  funext e
  simp only [encodeLowBits]
  cases encodeBit e (.rbit k) (v.testBit k) <;> rfl

theorem encodeLowBits_lifts (v k : Nat) : Lifts (encodeLowBits v k) := by
  induction k with
  | zero => exact lifts_ok
  | succ k ih => rw [encodeLowBits_succ]; exact (encodeBit_lifts _ _).bind ih

theorem encodeLowBits_fits (v k : Nat) : Fits (encodeLowBits v k) := by
  induction k with
  | zero => exact fits_ok
  | succ k ih => rw [encodeLowBits_succ]; exact (encodeBit_fits _ _).bind ih

theorem encodeToken_lifts (prev : Bool) (t : Token) : Lifts fun e => encodeToken e prev t := by
  cases t with
  | lit r => exact (encodeBit_lifts _ _).bind (encodeTree_lifts _ _ _ _)
  | run k =>
    exact (encodeBit_lifts _ _).bind ((encodeTree_lifts _ _ _ _).bind (encodeLowBits_lifts _ _))

theorem encodeToken_fits (prev : Bool) (t : Token) : Fits fun e => encodeToken e prev t := by
  cases t with
  | lit r => exact (encodeBit_fits _ _).bind (encodeTree_fits _ _ _ _)
  | run k =>
    exact (encodeBit_fits _ _).bind ((encodeTree_fits _ _ _ _).bind (encodeLowBits_fits _ _))

/-! ### The token loop and the whole encoder -/

/-- The token loop into scratch fails only on the rank count (R248). -/
theorem encodeTokensGo_scratch (maxBlock : Nat) (ts : List Token) (e : Enc) (prev : Bool) (m : Nat)
    (he : e.cap = none) (hm : m + countAll ts ≤ maxBlock) :
    ∃ e', encodeTokensGo maxBlock e prev m ts = .ok (e', m + countAll ts) ∧ e'.cap = none ∧
      e.out.length ≤ e'.out.length ∧
      ∀ c, e'.out.length ≤ c →
        encodeTokensGo maxBlock (e.capped c) prev m ts = .ok (e'.capped c, m + countAll ts) := by
  induction ts generalizing e prev m with
  | nil => exact ⟨e, rfl, he, le_rfl, fun c hc => rfl⟩
  | cons t ts ih =>
    simp only [countAll] at hm ⊢
    obtain ⟨e1, h1, h2, h3, h4⟩ := encodeToken_lifts prev t e he
    obtain ⟨e2, k1, k2, k3, k4⟩ := ih e1 t.isRun (m + t.count) h2 (by omega)
    have hno : ¬ m + t.count > maxBlock := by omega
    rw [Nat.add_assoc] at k1 k4
    refine ⟨e2, ?_, k2, by omega, fun c hc => ?_⟩
    · simp only [encodeTokensGo, h1, hno, if_false, k1]
    · simp only [encodeTokensGo, h4 c (by omega), hno, if_false, k4 c hc]

/-- Encoding a token list whose rank count is in range: it succeeds into scratch, and gives the same payload into every
destination that holds it (R248, R250). -/
theorem rcEncode_ok (maxBlock : Nat) (ts : List Token) (hm : countAll ts ≤ maxBlock) :
    ∃ p, rcEncode maxBlock none ts = .ok (p, countAll ts) ∧
      ∀ c, p.length ≤ c → rcEncode maxBlock (some c) ts = .ok (p, countAll ts) := by
  obtain ⟨e1, h1, h2, h3, h4⟩ :=
    encodeTokensGo_scratch maxBlock ts (Enc.init none) false 0 rfl (by omega)
  obtain ⟨e2, k1, k2, k3, k4⟩ := shiftTimes_lifts 5 e1 h2
  rw [Nat.zero_add] at h1 h4
  refine ⟨e2.out, ?_, fun c hc => ?_⟩
  · simp only [rcEncode, h1, flushEnc, k1]
  · have hi : Enc.init (some c) = (Enc.init none).capped c := rfl
    simp only [rcEncode, hi, h4 c (by omega), flushEnc, k4 c hc]
    rfl

theorem encodeTokensGo_fits (maxBlock c : Nat) (ts : List Token) (e e' : Enc) (prev : Bool) (m m' : Nat)
    (h1 : e.cap = some c) (h2 : e.out.length ≤ c)
    (h : encodeTokensGo maxBlock e prev m ts = .ok (e', m')) :
    e'.cap = some c ∧ e'.out.length ≤ c := by
  induction ts generalizing e prev m with
  | nil =>
    simp only [encodeTokensGo, Except.ok.injEq, Prod.mk.injEq] at h
    exact h.1 ▸ ⟨h1, h2⟩
  | cons t ts ih =>
    simp only [encodeTokensGo] at h
    split at h
    · next e1 he1 =>
      obtain ⟨k1, k2⟩ := encodeToken_fits prev t e c e1 h1 h2 he1
      split at h
      · simp at h
      · exact ih e1 _ _ k1 k2 h
    · simp at h

/-- A payload never passes the capacity of its destination. -/
theorem rcEncode_fits (maxBlock c m : Nat) (ts : List Token) (p : List Byte)
    (h : rcEncode maxBlock (some c) ts = .ok (p, m)) : p.length ≤ c := by
  simp only [rcEncode] at h
  split at h
  · simp at h
  · next e m' he =>
    split at h
    · next e' hf =>
      simp only [Except.ok.injEq, Prod.mk.injEq] at h
      obtain ⟨k1, k2⟩ := encodeTokensGo_fits maxBlock c ts (Enc.init (some c)) e false 0 m' rfl (by simp [Enc.init]) he
      exact h.1 ▸ (shiftTimes_fits 5 e c e' k1 k2 hf).2
    · simp at h

/-! ### The decoder's output -/

/-- The token loop of R249 into a destination that holds its output does as into scratch. -/
theorem decodeTokensGo_capped (c fuel room : Nat) (x x' : Dec) (prev : Bool) (out out' : List Byte)
    (h : decodeTokensGo none fuel x prev room out = .ok (out', x')) (hc : out'.length ≤ c) :
    out.length ≤ out'.length ∧ decodeTokensGo (some c) fuel x prev room out = .ok (out', x') := by
  induction fuel generalizing room x prev out with
  | zero => simp_all [decodeTokensGo]
  | succ fuel ih =>
    simp only [decodeTokensGo] at h ⊢
    split at h
    · simp_all
    · next h0 =>
      simp only [h0, if_false]
      split at h
      · simp at h
      · next t x1 ht =>
        simp only [emitAll_scratch] at h
        obtain ⟨k1, k2⟩ := ih _ _ _ _ h
        simp only [List.length_append] at k1
        refine ⟨by omega, ?_⟩
        rw [emitAll_capped c out _ (by omega), if_pos (by omega)]
        exact k2

/-- A payload that decodes into scratch decodes alike into every destination that holds the stream (R251). -/
theorem rcDecode_capped (c m : Nat) (payload t : List Byte) (h : rcDecode none payload m = .ok t)
    (hc : t.length ≤ c) : rcDecode (some c) payload m = .ok t := by
  simp only [rcDecode] at h ⊢
  split at h
  · simp at h
  · next x hx =>
    split at h
    · simp at h
    · next out x' ho =>
      split at h
      · next hr =>
        simp only [Except.ok.injEq] at h
        subst h
        simp [(decodeTokensGo_capped c m m x x' false [] out ho hc).2, hr]
      · simp at h

theorem decodeTokensGo_fits (c fuel room : Nat) (x x' : Dec) (prev : Bool) (out out' : List Byte)
    (h : decodeTokensGo (some c) fuel x prev room out = .ok (out', x')) (ho : out.length ≤ c) :
    out'.length ≤ c := by
  induction fuel generalizing room x prev out with
  | zero => simp_all [decodeTokensGo]
  | succ fuel ih =>
    simp only [decodeTokensGo] at h
    split at h
    · simp_all
    · split at h
      · simp at h
      · split at h
        · next out1 h1 => exact ih _ _ _ _ h (emitAll_fits c _ _ _ ho h1)
        · simp at h

/-- A decoded token stream never passes the capacity of its destination. -/
theorem rcDecode_fits (c m : Nat) (payload t : List Byte) (h : rcDecode (some c) payload m = .ok t) :
    t.length ≤ c := by
  simp only [rcDecode] at h
  split at h
  · simp at h
  · split at h
    · simp at h
    · next out x' ho =>
      split at h
      · simp only [Except.ok.injEq] at h
        exact h ▸ decodeTokensGo_fits c _ _ _ _ _ _ _ ho (by simp)
      · simp at h

/-! ### RLE_DEC's output -/

theorem rleDecGo_fits (c : Nat) (out s out' : List Byte) (h : rleDecGo (some c) out s = .ok out')
    (ho : out.length ≤ c) : out'.length ≤ c := by
  induction s using stream_cases generalizing out with
  | nil => simp_all [rleDecGo]
  | lit b t hb ih =>
    rw [rleDecGo_lit _ _ _ _ hb] at h
    cases he : emit (some c) out b with
    | error e => simp [he] at h
    | ok o =>
      simp only [he] at h
      refine ih o h ?_
      simp only [emit] at he
      split at he
      · simp at he
      · next hne =>
        simp only [Except.ok.injEq] at he
        simp only [Option.some.injEq] at hne
        simp only [← he, List.length_append, List.length_cons, List.length_nil]
        omega
  | run k0 k1 k2 k3 r ih =>
    rw [rleDecGo_run] at h
    split at h
    · simp at h
    · rw [emitZeros_eq] at h
      cases he : emitAll (some c) out (List.replicate (ofLe32 k0 k1 k2 k3).toNat 0) with
      | error e => simp only [he] at h; simp at h
      | ok o => simp only [he] at h; exact ih o h (emitAll_fits c _ _ _ ho he)
  | short t ht => rw [rleDecGo_short _ _ _ ht] at h; simp at h

/-- RLE_DEC into a destination that holds the expansion does as into scratch (43_rank_run.md R198). -/
theorem rleDecGo_capped (c : Nat) (out s out' : List Byte) (h : rleDecGo none out s = .ok out')
    (hc : out'.length ≤ c) : out.length ≤ out'.length ∧ rleDecGo (some c) out s = .ok out' := by
  induction s using stream_cases generalizing out with
  | nil => simp_all [rleDecGo]
  | lit b t hb ih =>
    rw [rleDecGo_lit _ _ _ _ hb] at h ⊢
    simp only [emit, reduceCtorEq, if_false] at h
    obtain ⟨k1, k2⟩ := ih _ h
    simp only [List.length_append, List.length_cons, List.length_nil] at k1
    refine ⟨by omega, ?_⟩
    have hne : ¬ c = out.length := by omega
    simp only [emit, Option.some.injEq, hne, if_false, k2]
  | run k0 k1 k2 k3 r ih =>
    rw [rleDecGo_run] at h ⊢
    split at h
    · simp at h
    · next hz =>
      rw [emitZeros_eq, emitAll_scratch] at h
      obtain ⟨k1, k2⟩ := ih _ h
      rw [List.length_append] at k1
      refine ⟨by omega, ?_⟩
      rw [if_neg hz, emitZeros_eq, emitAll_capped c out _ (by omega), if_pos (by omega)]
      exact k2
  | short t ht => rw [rleDecGo_short _ _ _ ht] at h; simp at h

end Sys2Proof.Machine
end

