-- ==== Sys2Proof/Laws/Stages.lean ====
section
/-! SUPPORT. What each stage's output looks like: its length, and the tokens a decoded payload holds. -/

namespace Sys2Proof.Machine

/-! ### Suffix order -/

@[simp] theorem positionsFrom_length (i k : Nat) : (positionsFrom i k).length = k := by
  induction k generalizing i with
  | zero => rfl
  | succ k ih => simp [positionsFrom, ih]

theorem positionsFrom_eq_range (i k : Nat) : positionsFrom i k = List.range' i k := by
  induction k generalizing i with
  | zero => rfl
  | succ k ih => simp [positionsFrom, ih, List.range'_succ]

theorem insertPosition_perm (b : List Byte) (i : Nat) (js : List Nat) :
    (insertPosition b i js).Perm (i :: js) := by
  induction js with
  | nil => simp [insertPosition]
  | cons j js ih =>
    simp only [insertPosition]
    split
    · exact .refl _
    · exact (ih.cons j).trans (.swap i j js)

theorem sortPositions_perm (b : List Byte) (is : List Nat) : (sortPositions b is).Perm is := by
  induction is with
  | nil => simp [sortPositions]
  | cons i is ih => exact (insertPosition_perm b i _).trans (ih.cons i)

/-- The suffix order has one entry for each position. -/
@[simp] theorem suffixOrder_length (b : List Byte) : (suffixOrder b).length = b.length := by
  simpa [suffixOrder] using (sortPositions_perm b (positionsFrom 0 b.length)).length_eq

@[simp] theorem arrayBytes_length (xs : List Nat) : (arrayBytes xs).length = 4 * xs.length := by
  induction xs with
  | nil => rfl
  | cons x xs ih => simp [arrayBytes, ih]; omega

@[simp] theorem array_length (s : State) (a n : Nat) : (s.array a n).length = n := by
  induction n generalizing a with
  | zero => rfl
  | succ n ih => simp [State.array, ih]

@[simp] theorem source_length (s : State) (p : Span) : (s.source p).length = p.len.toNat := by
  simp [State.source]

/-! ### Block transform -/

@[simp] theorem bwtForward_length (b : List Byte) (order : List Nat) :
    (bwtForward b order).1.length = order.length := by simp [bwtForward]

theorem walkBack_length (l : List Byte) (table : List Nat) (k p : Nat) (placed : List Byte) :
    (walkBack l table k p placed).length = k + placed.length := by
  induction k generalizing p placed with
  | zero => simp [walkBack]
  | succ k ih => simp only [walkBack, ih, List.length_cons]; omega

@[simp] theorem bwtInverse_length (l : List Byte) (p : Nat) : (bwtInverse l p).length = l.length := by
  simp [bwtInverse, walkBack_length]

/-! ### Pre-filter -/

@[simp] theorem copyMatch_length (out : List Byte) (p k : Nat) :
    (copyMatch out p k).length = out.length + k := by
  induction k generalizing out p with
  | zero => rfl
  | succ k ih => simp only [copyMatch, ih, List.length_append, List.length_cons, List.length_nil]; omega

/-- A filter decoding that succeeds has exactly the expected length (44_prefilter.md R223). -/
theorem fltDecGo_length (n : Nat) (t : FilterTable) (out s r : List Byte)
    (h : fltDecGo n t out s = .ok r) : r.length = n := by
  induction hn : s.length using Nat.strong_induction_on generalizing t out s with
  | _ k ih =>
    rw [fltDecGo.eq_def] at h
    split at h
    · split at h <;> simp_all
    · next b s' =>
      simp only [List.length_cons] at hn
      split at h
      · simp at h
      · split at h
        · exact ih _ (by omega) _ _ _ h rfl
        · split at h
          · simp at h
          · next c r' =>
            simp only [List.length_cons] at hn
            split at h
            · exact ih _ (by omega) _ _ _ h rfl
            · split at h
              · simp at h
              · split at h
                · simp at h
                · exact ih _ (by omega) _ _ _ h rfl

theorem fltDecode_length (s r : List Byte) (n : Nat) (h : fltDecode s n = .ok r) : r.length = n :=
  fltDecGo_length n [] [] s r h

/-! ### Decoded payloads -/

/-- A bit-tree walk of `k` decisions stays below its node. -/
theorem decodeTree_bounds (mk : Nat → Ctx) (k node node' : Nat) (x x' : Dec)
    (h : decodeTree mk k node x = .ok (node', x')) :
    node * 2 ^ k ≤ node' ∧ node' < (node + 1) * 2 ^ k := by
  induction k generalizing node x with
  | zero =>
    simp only [decodeTree, Except.ok.injEq, Prod.mk.injEq] at h
    omega
  | succ k ih =>
    simp only [decodeTree] at h
    split at h
    · next b x1 hb =>
      have := ih _ _ h
      have hp : 2 ^ (k + 1) = 2 * 2 ^ k := by rw [Nat.pow_succ]; omega
      cases b <;> simp only [Bool.toNat_false, Bool.toNat_true] at this <;> rw [hp] <;>
        constructor <;> nlinarith [this.1, this.2]
    · simp at h

theorem decodeLowBits_pos (k v v' : Nat) (x x' : Dec) (h : decodeLowBits k v x = .ok (v', x')) :
    v ≤ v' := by
  induction k generalizing v x with
  | zero => simp_all [decodeLowBits]
  | succ k ih =>
    simp only [decodeLowBits] at h
    split at h
    · next b x1 hb => have := ih _ _ h; omega
    · simp at h

/-- What one round of the token loop yields: a token a stream can hold, taking at least one and at most `room` ranks
(45_entropy.md R249). -/
theorem decodeToken_ok (x x' : Dec) (prev : Bool) (room : Nat) (t : Token)
    (hr : 1 ≤ room) (hroom : room < 2 ^ 32) (h : decodeToken x prev room = .ok (t, x')) :
    t.Valid ∧ 1 ≤ t.count ∧ t.count ≤ room := by
  simp only [decodeToken, bind_ok_iff] at h
  obtain ⟨⟨isRun, x1⟩, -, h⟩ := h
  cases isRun
  · simp only [Bool.false_eq_true, if_false, bind_ok_iff] at h
    obtain ⟨⟨node, x2⟩, h2, h⟩ := h
    have hb := decodeTree_bounds _ _ _ _ _ _ h2
    simp only at h
    split at h
    · simp at h
    · next hne =>
      simp only [Except.ok.injEq, Prod.mk.injEq] at h
      obtain ⟨rfl, -⟩ := h
      refine ⟨?_, by simp [Token.count], by simpa [Token.count] using hr⟩
      intro h0
      have h1 := congrArg BitVec.toNat h0
      simp at h1
      omega
  · simp only [if_true, bind_ok_iff] at h
    obtain ⟨⟨node, x2⟩, h2, ⟨k, x3⟩, h3, h⟩ := h
    have hb := decodeLowBits_pos _ _ _ _ _ h3
    simp only at h
    split at h
    · simp at h
    · simp only [Except.ok.injEq, Prod.mk.injEq] at h
      obtain ⟨rfl, -⟩ := h
      simp only [Token.Valid, Token.count]
      omega

/-- What the token loop appends to scratch: the bytes of valid tokens that stand for exactly the ranks still to come
(R249, 46_codec.md R274). -/
theorem decodeTokensGo_ok (fuel room : Nat) (x x' : Dec) (prev : Bool) (out out' : List Byte)
    (hf : room ≤ fuel) (hroom : room < 2 ^ 32)
    (h : decodeTokensGo none fuel x prev room out = .ok (out', x')) :
    ∃ ts, (∀ t ∈ ts, t.Valid) ∧ countAll ts = room ∧ out' = out ++ tokenBytes ts := by
  induction fuel generalizing room x prev out with
  | zero =>
    simp only [decodeTokensGo, Except.ok.injEq, Prod.mk.injEq] at h
    exact ⟨[], by simp, by simp [countAll]; omega, by simp [tokenBytes, h.1]⟩
  | succ fuel ih =>
    simp only [decodeTokensGo] at h
    split at h
    · next h0 =>
      simp only [Except.ok.injEq, Prod.mk.injEq] at h
      exact ⟨[], by simp, by simp [countAll, h0], by simp [tokenBytes, h.1]⟩
    · next h0 =>
      split at h
      · simp at h
      · next t x1 ht =>
        obtain ⟨hv, h1, h2⟩ := decodeToken_ok x x1 prev room t (by omega) hroom ht
        simp only [emitAll_scratch] at h
        obtain ⟨ts, hts, hc, ho⟩ := ih (room - t.count) x1 t.isRun _ (by omega) (by omega) h
        refine ⟨t :: ts, ?_, by simp only [countAll]; omega, by simp [ho, tokenBytes]⟩
        intro u hu
        rcases List.mem_cons.mp hu with rfl | hu
        · exact hv
        · exact hts u hu

/-- A payload that decodes into scratch gives the stream of valid tokens of rank count `m` (R249). -/
theorem rcDecode_scratch_ok (payload t : List Byte) (m : Nat) (hm : m < 2 ^ 32)
    (h : rcDecode none payload m = .ok t) :
    ∃ ts, (∀ u ∈ ts, u.Valid) ∧ countAll ts = m ∧ t = tokenBytes ts := by
  simp only [rcDecode] at h
  split at h
  · simp at h
  · next x hx =>
    split at h
    · simp at h
    · next out x' ho =>
      split at h
      · simp only [Except.ok.injEq] at h
        obtain ⟨ts, h1, h2, h3⟩ := decodeTokensGo_ok m m x x' false [] out le_rfl hm ho
        exact ⟨ts, h1, h2, by simpa [h] using h3⟩
      · simp at h

/-- The block DECOMPRESS produces has the header's `original_length` (46_codec.md R274). -/
theorem decodeBlock_length (filtered : Bool) (n m primary : Nat) (payload b : List Byte)
    (hm : m < 2 ^ 32) (hn : filtered = false → m = n)
    (h : decodeBlock filtered n m primary payload = .ok b) : b.length = n := by
  simp only [decodeBlock, bind_ok_iff] at h
  obtain ⟨t, ht, toks, hp, h⟩ := h
  obtain ⟨ts, hv, hc, rfl⟩ := rcDecode_scratch_ok payload t m hm ht
  rw [parseTokens_tokenBytes _ ts hv] at hp
  obtain rfl : ts = toks := by simpa using hp
  cases filtered
  · simp only [Bool.false_eq_true, if_false, Except.ok.injEq] at h
    rw [← h]
    simp [expand_length, hc, hn rfl]
  · simp only [if_true] at h
    exact fltDecode_length _ _ _ h

end Sys2Proof.Machine
end

