-- ==== Sys2Proof/Laws/Exec.lean ====
section
/-! SUPPORT. Everything a command can do, said once: which function computes its result, how it ends, and that a result
fits its destination region. -/

namespace Sys2Proof.Machine

/-- What a command with a destination computes; `none` for the other commands. -/
def dataResult : Instr → State → Option (Except Err Done)
  | .nop, _ => none
  | .halt, _ => none
  | .jump _, _ => none
  | .sort src dst, s => some (sortResult src dst s)
  | .saCheck _ _, _ => none
  | .bwtFwd internal src dst aux, s => some (bwtFwdResult internal src dst aux s)
  | .bwtInv src dst p, s => some (bwtInvResult src dst p s)
  | .mtfEnc src dst, s => some (mapResult mtfEncode src dst s)
  | .mtfDec src dst, s => some (mapResult mtfDecode src dst s)
  | .rleEnc src dst, s => some (rleEncResult src dst s)
  | .rleDec src dst, s => some (rleDecResult src dst s)
  | .fltEnc src dst, s => some (fltEncResult src dst s)
  | .fltDec src dst n, s => some (fltDecResult src dst n s)
  | .rcEnc src dst, s => some (rcEncResult src dst s)
  | .rcDec src dst m, s => some (rcDecResult src dst m s)
  | .crc32 _, _ => none
  | .compress tf src dst, s => some (compressResult tf src dst s)
  | .decompress src dst, s => some (decompressResult src dst s)

/-- What a data command without a destination computes; `none` for the other commands. -/
def scalarResult : Instr → State → Option (Except Err Word)
  | .saCheck src aux, s => some (saCheckResult src aux s)
  | .crc32 src, s => some (crcResult src s)
  | _, _ => none

theorem exec_data (i : Instr) (s : State) (r : Except Err Done) (h : dataResult i s = some r) :
    exec i s = conclude i.opcode (destination i) r s := by
  cases i <;> simp only [dataResult, Option.some.injEq, reduceCtorEq] at h <;> subst h <;> rfl

theorem exec_scalar (i : Instr) (s : State) (r : Except Err Word) (h : scalarResult i s = some r) :
    exec i s = concludeNoDst i.opcode r s := by
  cases i <;> simp only [scalarResult, Option.some.injEq, reduceCtorEq] at h <;> subst h <;> rfl

/-- Everything a command can do. -/
theorem exec_cases (i : Instr) (s t : State) (h : exec i s = .next t) :
    (i = .nop ∧ t = s.advance) ∨
    (i = .halt ∧ t = s.advance.haltFlags) ∨
    (∃ a, i = .jump a ∧ t = s.completeAt a) ∨
    (∃ x, dataResult i s = some (.ok x) ∧
      t = ((s.putBytes (destination i).addr x.out).putResults x).advance) ∨
    (∃ e, dataResult i s = some (.error e) ∧ t = (s.scramble (destination i)).fail e i.opcode) ∨
    (∃ w, scalarResult i s = some (.ok w) ∧ t = (s.putResults ⟨[], w⟩).advance) ∨
    (∃ e, scalarResult i s = some (.error e) ∧ t = s.fail e i.opcode) := by
  by_cases hd : (dataResult i s).isSome
  · obtain ⟨r, hr⟩ := Option.isSome_iff_exists.mp hd
    rw [exec_data i s r hr] at h
    rcases conclude_cases _ _ _ _ _ h with ⟨x, rfl, ht⟩ | ⟨e, rfl, ht⟩
    · exact .inr (.inr (.inr (.inl ⟨x, hr, ht⟩)))
    · exact .inr (.inr (.inr (.inr (.inl ⟨e, hr, ht⟩))))
  · by_cases hs : (scalarResult i s).isSome
    · obtain ⟨r, hr⟩ := Option.isSome_iff_exists.mp hs
      rw [exec_scalar i s r hr] at h
      rcases concludeNoDst_cases _ _ _ _ h with ⟨x, rfl, ht⟩ | ⟨e, rfl, ht⟩
      · exact .inr (.inr (.inr (.inr (.inr (.inl ⟨x, hr, ht⟩)))))
      · exact .inr (.inr (.inr (.inr (.inr (.inr ⟨e, hr, ht⟩)))))
    · cases i <;> first
        | exact absurd rfl hd
        | exact absurd rfl hs
        | simp only [exec, execNop, execHalt, execJump, Host.Outcome.next.injEq] at h; simp [h]

theorem raiseIf_ok (c : Bool) (e : Err) : raiseIf c e = .ok () ↔ c = false := by
  cases c <;> simp [raiseIf]

/-- A decompressed block never passes the capacity (46_codec.md R274). -/
theorem decompressBlock_fits (maxBlock : Nat) (e : List Byte) (cap : Nat) (r : List Byte × Nat)
    (h : decompressBlock maxBlock e cap = .ok r) : r.1.length ≤ cap := by
  simp only [decompressBlock, exists_unit, bind_ok_iff, raiseIf_ok] at h
  obtain ⟨-, -, -, -, -, -, hcap, hm, -, b, hb, -, h⟩ := h
  obtain rfl := Except.ok.inj h
  have hl := decodeBlock_length _ _ _ _ _ b (BitVec.isLt _) (fun hf => ?_) hb
  · simp only [decide_eq_false_iff_not] at hcap
    simp only
    omega
  · simp only [decide_eq_false_iff_not] at hf
    rw [if_neg hf] at hm
    simpa using hm

/-- A result fits its destination region, and that region lies in the buffer (20_memory.md R64, R68). -/
theorem dataResult_fits (i : Instr) (s : State) (x : Done) (h : dataResult i s = some (.ok x)) :
    x.out.length ≤ (destination i).len ∧ (destination i).addr + (destination i).len ≤ s.size := by
  have hcap : ∀ (cap : Nat) (bs out : List Byte), emitAll (some cap) [] bs = .ok out → out.length ≤ cap :=
    fun cap bs out h => emitAll_fits cap [] bs out (by simp) h
  cases i with
  | nop => simp [dataResult] at h
  | halt => simp [dataResult] at h
  | jump t => simp [dataResult] at h
  | saCheck src aux => simp [dataResult] at h
  | crc32 src => simp [dataResult] at h
  | sort src dst =>
    simp only [dataResult, Option.some.injEq, sortResult, sortChecks, bind_assoc, exists_unit, bind_ok_iff, needRegion_ok, needCap_ok] at h
    obtain ⟨-, -, ⟨-, hr⟩, -, hc, h⟩ := h
    obtain rfl := Except.ok.inj h
    exact ⟨by simpa [destination, Span.region] using hc, hr⟩
  | bwtFwd internal src dst aux =>
    have hx : ∃ order, bwtOrder internal aux (s.source src) s = .ok order ∧ src.len.toNat ≤ dst.len.toNat ∧
        dst.addr.toNat + dst.len.toNat ≤ s.size ∧ x.out = (bwtForward (s.source src) order).1 := by
      simp only [dataResult, Option.some.injEq, bwtFwdResult, bwtFwdChecks, bind_assoc] at h
      cases internal <;>
        simp only [if_true, Bool.false_eq_true, if_false, exists_unit, bind_ok_iff, needRegion_ok,
          needCap_ok] at h
      · obtain ⟨-, -, ⟨-, ⟨-, hr⟩, -, -, hc⟩, order, ho, h⟩ := h
        obtain rfl := Except.ok.inj h
        exact ⟨order, ho, hc, hr, rfl⟩
      · obtain ⟨-, -, ⟨-, ⟨-, hr⟩, -, -, hc⟩, order, ho, h⟩ := h
        obtain rfl := Except.ok.inj h
        exact ⟨order, ho, hc, hr, rfl⟩
    obtain ⟨order, ho, hc, hr, hxo⟩ := hx
    have hl : order.length = src.len.toNat := by
      simp only [bwtOrder] at ho
      split at ho
      · simpa using congrArg List.length (Except.ok.inj ho).symm
      · split at ho
        · simp at ho
        · split at ho
          · simpa using congrArg List.length (Except.ok.inj ho).symm
          · simp at ho
    exact ⟨by simpa [destination, Span.region, hxo, hl] using hc, hr⟩
  | bwtInv src dst p =>
    simp only [dataResult, Option.some.injEq, bwtInvResult, bwtInvChecks, bind_assoc, exists_unit, bind_ok_iff, needRegion_ok, needCap_ok] at h
    obtain ⟨-, -, -, ⟨-, hr⟩, -, hc, h⟩ := h
    obtain rfl := Except.ok.inj h
    exact ⟨by simpa [destination, Span.region] using hc, hr⟩
  | mtfEnc src dst =>
    simp only [dataResult, Option.some.injEq, mapResult, mapChecks, bind_assoc, exists_unit, bind_ok_iff, needRegion_ok, needCap_ok] at h
    obtain ⟨-, -, ⟨-, hr⟩, -, hc, h⟩ := h
    obtain rfl := Except.ok.inj h
    exact ⟨by simpa [destination, Span.region] using hc, hr⟩
  | mtfDec src dst =>
    simp only [dataResult, Option.some.injEq, mapResult, mapChecks, bind_assoc, exists_unit, bind_ok_iff, needRegion_ok, needCap_ok] at h
    obtain ⟨-, -, ⟨-, hr⟩, -, hc, h⟩ := h
    obtain rfl := Except.ok.inj h
    exact ⟨by simpa [destination, Span.region] using hc, hr⟩
  | rleEnc src dst =>
    simp only [dataResult, Option.some.injEq, rleEncResult, rleEncChecks, bind_assoc, exists_unit, bind_ok_iff, needRegion_ok] at h
    obtain ⟨-, -, ⟨-, hr⟩, -, out, he, h⟩ := h
    obtain rfl := Except.ok.inj h
    exact ⟨hcap _ _ _ he, hr⟩
  | rleDec src dst =>
    simp only [dataResult, Option.some.injEq, rleDecResult, rleDecChecks, bind_assoc, exists_unit, bind_ok_iff, needRegion_ok] at h
    obtain ⟨-, -, ⟨-, hr⟩, -, out, he, h⟩ := h
    obtain rfl := Except.ok.inj h
    exact ⟨rleDecGo_fits _ _ _ _ he (by simp), hr⟩
  | fltEnc src dst =>
    simp only [dataResult, Option.some.injEq, fltEncResult, fltEncChecks, bind_assoc, exists_unit, bind_ok_iff, needRegion_ok] at h
    obtain ⟨-, -, ⟨-, hr⟩, -, out, he, h⟩ := h
    obtain rfl := Except.ok.inj h
    exact ⟨hcap _ _ _ he, hr⟩
  | fltDec src dst n =>
    simp only [dataResult, Option.some.injEq, fltDecResult, fltDecChecks, bind_assoc, exists_unit, bind_ok_iff, needRegion_ok, needCap_ok] at h
    obtain ⟨-, -, -, ⟨-, hr⟩, -, hc, out, he, h⟩ := h
    obtain rfl := Except.ok.inj h
    exact ⟨by simpa [destination, Span.region, fltDecode_length _ _ _ he] using hc, hr⟩
  | rcEnc src dst =>
    simp only [dataResult, Option.some.injEq, rcEncResult, rcEncChecks, bind_assoc, exists_unit, bind_ok_iff, needRegion_ok] at h
    obtain ⟨-, -, ⟨-, hr⟩, -, toks, -, r, he, h⟩ := h
    obtain rfl := Except.ok.inj h
    exact ⟨rcEncode_fits s.maxBlock _ r.2 toks r.1 he, hr⟩
  | rcDec src dst m =>
    simp only [dataResult, Option.some.injEq, rcDecResult, rcDecChecks, bind_assoc, exists_unit, bind_ok_iff, needRegion_ok] at h
    obtain ⟨-, -, -, ⟨-, hr⟩, -, out, he, h⟩ := h
    obtain rfl := Except.ok.inj h
    exact ⟨rcDecode_fits _ _ _ _ he, hr⟩
  | compress tf src dst =>
    simp only [dataResult, Option.some.injEq, compressResult, compressChecks, bind_assoc, exists_unit, bind_ok_iff, needRegion_ok] at h
    obtain ⟨-, -, ⟨-, hr⟩, -, e, -, out, he, h⟩ := h
    obtain rfl := Except.ok.inj h
    exact ⟨hcap _ _ _ he, hr⟩
  | decompress src dst =>
    simp only [dataResult, Option.some.injEq, decompressResult, decompressChecks, bind_assoc, exists_unit, bind_ok_iff, needRegion_ok] at h
    obtain ⟨-, -, ⟨-, hr⟩, -, r, he, h⟩ := h
    obtain rfl := Except.ok.inj h
    exact ⟨decompressBlock_fits s.maxBlock (s.source src) _ r he, hr⟩

end Sys2Proof.Machine
end

