-- ==== Sys2Proof/Laws/PerInstr.lean ====
section
/-! SUPPORT. Statements about every instruction as syntax, one lemma for each constructor. -/

namespace Sys2Proof.Laws.LegalEncoding

/-- The descriptor of a command is legal: some row of the opcode map accepts its word 0 (30_encoding.md R94 to R96). -/
def Statement (i : Instr) : Prop := (encodeDesc i).wellFormed = true

/-- OPCODE, FLAGS and RSVD alone decide whether a descriptor is legal. -/
theorem of_fields (d : Desc) (op fl : Byte) (h0 : d.rsvd = 0) (h1 : d.flags = fl) (h2 : d.opcode = op)
    (h : (opcodeMap.any fun r => r.accepts ((0 : BitVec 16) ++ fl ++ op)) = true) : d.wellFormed = true := by
  rw [Desc.wellFormed, Desc.word0, h0, h1, h2]
  exact h

theorem nop : Statement .nop := of_fields _ 0x00 0 rfl rfl rfl (by decide)

theorem halt : Statement .halt := of_fields _ 0x01 0 rfl rfl rfl (by decide)

theorem jump (target : Word) : Statement (.jump target) := of_fields _ 0x02 0 rfl rfl rfl (by decide)

theorem sort (src dst : Span) : Statement (.sort src dst) := of_fields _ 0x10 0 rfl rfl rfl (by decide)

theorem saCheck (src : Span) (aux : Word) : Statement (.saCheck src aux) := of_fields _ 0x11 0 rfl rfl rfl (by decide)

theorem bwtFwd (internalSort : Bool) (src dst : Span) (aux : Word) : Statement (.bwtFwd internalSort src dst aux) := by
  cases internalSort
  · exact of_fields _ 0x18 0 rfl rfl rfl (by decide)
  · exact of_fields _ 0x18 1 rfl rfl rfl (by decide)

theorem bwtInv (src dst : Span) (primary : Word) : Statement (.bwtInv src dst primary) := of_fields _ 0x19 0 rfl rfl rfl (by decide)

theorem mtfEnc (src dst : Span) : Statement (.mtfEnc src dst) := of_fields _ 0x20 0 rfl rfl rfl (by decide)

theorem mtfDec (src dst : Span) : Statement (.mtfDec src dst) := of_fields _ 0x21 0 rfl rfl rfl (by decide)

theorem rleEnc (src dst : Span) : Statement (.rleEnc src dst) := of_fields _ 0x22 0 rfl rfl rfl (by decide)

theorem rleDec (src dst : Span) : Statement (.rleDec src dst) := of_fields _ 0x23 0 rfl rfl rfl (by decide)

theorem fltEnc (src dst : Span) : Statement (.fltEnc src dst) := of_fields _ 0x30 0 rfl rfl rfl (by decide)

theorem fltDec (src dst : Span) (n : Word) : Statement (.fltDec src dst n) := of_fields _ 0x31 0 rfl rfl rfl (by decide)

theorem rcEnc (src dst : Span) : Statement (.rcEnc src dst) := of_fields _ 0x38 0 rfl rfl rfl (by decide)

theorem rcDec (src dst : Span) (m : Word) : Statement (.rcDec src dst m) := of_fields _ 0x39 0 rfl rfl rfl (by decide)

theorem crc32 (src : Span) : Statement (.crc32 src) := of_fields _ 0x40 0 rfl rfl rfl (by decide)

theorem compress (tryFilter : Bool) (src dst : Span) : Statement (.compress tryFilter src dst) := by
  cases tryFilter
  · exact of_fields _ 0x41 0 rfl rfl rfl (by decide)
  · exact of_fields _ 0x41 1 rfl rfl rfl (by decide)

theorem decompress (src dst : Span) : Statement (.decompress src dst) := of_fields _ 0x42 0 rfl rfl rfl (by decide)

end Sys2Proof.Laws.LegalEncoding
end

