-- ==== Sys2Proof/Laws/Race.lean ====
section
/-! SUPPORT. What a run that a host write affects can do (70_reset_and_hazards.md R345), said once: which fields its
destinations, its cycle and its end leave alone. -/

namespace Sys2Proof.Machine

/-- Leaving regions unspecified changes memory, inside them, and the number of draws. -/
theorem scrambleAll_cases (rs : List Region) (s : State) :
    ∃ m k, s.scrambleAll rs = { s with mem := m, draws := k } ∧
      (s.mem.wf → m.wf) ∧ (s.mem.inside s.size → m.inside s.size) ∧
      ∀ x, covers rs x = false → m.byte x = s.mem.byte x := by
  induction rs generalizing s with
  | nil => exact ⟨s.mem, s.draws, rfl, id, id, fun _ _ => rfl⟩
  | cons r rs ih =>
    obtain ⟨m, k, h, hw, hi, hb⟩ := ih (s.scramble r)
    refine ⟨m, k, h, fun h => hw (scramble_keeps_wf s r h), fun h => hi (scramble_keeps_inside s r h), fun x hx => ?_⟩
    simp only [covers, List.any_cons, Bool.or_eq_false_iff] at hx
    rw [hb x hx.2]
    exact byte_scramble_outside s r x hx.1

/-- What the destinations of an affected run leave alone. -/
theorem openDestinations_cases (s : State) :
    ∃ m k, s.openDestinations = { s with mem := m, draws := k, runDests := s.openRegions } ∧
      (s.mem.wf → m.wf) ∧ (s.mem.inside s.size → m.inside s.size) ∧
      ∀ x, covers s.openRegions x = false → m.byte x = s.mem.byte x := by
  obtain ⟨m, k, h, hr⟩ := scrambleAll_cases s.openRegions s
  exact ⟨m, k, by rw [State.openDestinations, h], hr⟩

/-- How a cycle of an affected run ends: it goes on, halts, or fails by the trap path. -/
theorem openEnd_cases (s : State) :
    ∃ k, s.openEnd = { s with draws := k } ∨ s.openEnd = { s with draws := k }.haltFlags ∨
      ∃ e op, s.openEnd = { s with draws := k }.fail e op := by
  refine ⟨s.draws + 3, ?_⟩
  unfold State.openEnd
  simp only []
  split
  · exact .inl rfl
  · exact .inr (.inl rfl)
  · exact .inr (.inr ⟨_, _, rfl⟩)

/-- A cycle of an affected run. -/
theorem openCycle_cases (s : State) :
    ∃ m k desc p n r0 r1,
      let t : State := { s with
        mem := m, draws := k, runDests := s.openRegions, affected := true
        d := desc, cmdPtr := p, cmdCount := n, result0 := r0, result1 := r1 }
      (s.openCycle = t ∨ s.openCycle = t.haltFlags ∨ ∃ e op, s.openCycle = t.fail e op) ∧
      (s.mem.wf → m.wf) ∧ (s.mem.inside s.size → m.inside s.size) ∧
      ∀ x, covers s.openRegions x = false → m.byte x = s.mem.byte x := by
  obtain ⟨m, k, h, hr⟩ := openDestinations_cases s
  obtain ⟨k', hk⟩ := openEnd_cases ({ s.openDestinations with affected := true }.openResults.openControl)
  rw [h] at hk
  refine ⟨m, k', Desc.ofBytes (freeBytes (k + 8) 32), freeWord (k + 8 + 32), freeWord (k + 8 + 36), freeWord k,
    freeWord (k + 4), ?_, hr⟩
  rw [State.openCycle, h]
  exact hk

/-- What a reset leaves of the run it aborts. -/
theorem abandonRun_cases (s : State) :
    ∃ m k w, s.abandonRun = { s with mem := m, draws := k, runDests := w } ∧
      (s.mem.wf → m.wf) ∧ (s.mem.inside s.size → m.inside s.size) ∧
      (s.affectedRun = false → m = s.mem) ∧
      ∀ x, (s.affectedRun = true → covers s.openRegions x = false) → m.byte x = s.mem.byte x := by
  cases ha : s.affectedRun
  · refine ⟨s.mem, s.draws, s.runDests, by simp [State.abandonRun, ha], id, id, fun _ => rfl, fun _ _ => rfl⟩
  · obtain ⟨m, k, h, hw, hi, hb⟩ := openDestinations_cases s
    exact ⟨m, k, s.openRegions, by simp only [State.abandonRun, ha, if_true, h], hw, hi, by simp,
      fun x hx => hb x (hx rfl)⟩

/-- The disturbance of a run does not depend on the host's list. -/
@[simp] theorem affectedRun_host (s : State) (l : List HostAction) :
    ({ s with host := l } : State).affectedRun = s.affectedRun := rfl

end Sys2Proof.Machine
end

