-- ==== Sys2Proof/Laws/RangeCoder.lean ====
section
/-! SUPPORT. The model's range coder against the relations of `Sys2Proof.Claims` (45_entropy.md R240 to R249): what each
part of the encoder outputs, whatever its destination; that the decoder returns what the relations allow, and why it
raises. -/

namespace Sys2Proof.Machine

open Sys2Proof.Claims

/-! ### Cells and intervals -/

/-- The cells hold probabilities a coder reaches (R240). -/
def GoodCells (m : Cells) : Prop := ∀ c, 31 ≤ m.get c ∧ m.get c ≤ 4065

theorem get_set (m : Cells) (c x : Ctx) (p : Nat) : (m.set c p).get x = if x = c then p else m.get x := by
  induction m with
  | nil => simp only [Cells.set, Cells.get, eq_comm]
  | cons a m ih =>
    obtain ⟨c', p'⟩ := a
    simp only [Cells.set, Cells.get]
    split <;> simp only [Cells.get, ih] <;> grind

theorem updateProb_eq (p : Nat) (bit : Bool) : updateProb p bit = updated p bit := by
  cases bit <;> simp [updateProb, updated, rcOne, rcShift, Nat.shiftRight_eq_div_pow]

theorem updated_bounds (p : Nat) (bit : Bool) (h : 31 ≤ p ∧ p ≤ 4065) :
    31 ≤ updated p bit ∧ updated p bit ≤ 4065 := by
  cases bit <;> simp [updated] <;> omega

theorem get_adapted (m : Cells) (c : Ctx) (bit : Bool) :
    (m.set c (updateProb (m.get c) bit)).get = adapted m.get c bit := by
  funext x; rw [get_set, updateProb_eq]; rfl

theorem GoodCells.adapt {m : Cells} (h : GoodCells m) (c : Ctx) (bit : Bool) :
    GoodCells (m.set c (updateProb (m.get c) bit)) := by
  intro x
  rw [get_adapted, adapted]
  split
  · exact updated_bounds _ _ (h c)
  · exact h x

/-- Both parts of an interval of a coder between two decisions hold at least one value (R243). -/
theorem parts_pos (range p : Nat) (hr : 2 ^ 24 ≤ range) (hp : 31 ≤ p ∧ p ≤ 4065) :
    1 ≤ boundOf range p ∧ 1 ≤ range - boundOf range p := by
  simp only [boundOf, Nat.shiftRight_eq_div_pow]
  have hq : 2 ^ 12 ≤ range / 2 ^ 12 := by omega
  have h1 : range / 2 ^ 12 * p ≤ range / 2 ^ 12 * 4065 := Nat.mul_le_mul_left _ hp.2
  exact ⟨Nat.mul_pos (by omega) (by omega), by omega⟩

/-- One round of a renormalisation loses no bit of the range (R243, R247). -/
theorem range_round (range : Nat) (h : range < 2 ^ 24) : (range <<< 8) % 2 ^ 32 = range * 2 ^ 8 := by
  rw [Nat.shiftLeft_eq]; exact Nat.mod_eq_of_lt (by omega)

theorem range_rounds (range k : Nat) : range * 2 ^ 8 * 2 ^ (8 * k) = range * 2 ^ (8 * (k + 1)) := by
  rw [Nat.mul_assoc, ← Nat.pow_add, show 8 + 8 * k = 8 * (k + 1) by ring]

/-! ### Decisions -/

/-- The decisions of the low `k` bits of `w` in a tree of `n` bits. -/
def treePart (mk : Nat → Ctx) (n w k : Nat) : List (Ctx × Bool) :=
  (List.range k).reverse.map fun j => (mk (2 ^ (n - 1 - j) + w / 2 ^ (j + 1)), w / 2 ^ j % 2 == 1)

theorem treePart_succ (mk : Nat → Ctx) (n w k : Nat) (hk : k + 1 ≤ n) :
    treePart mk n w (k + 1) =
      (mk (2 ^ (n - (k + 1)) + w / 2 ^ (k + 1)), w / 2 ^ k % 2 == 1) :: treePart mk n w k := by
  simp only [treePart, List.range_succ, List.reverse_append, List.reverse_singleton, List.singleton_append, List.map_cons,
    show n - 1 - k = n - (k + 1) by omega]

theorem bit_toNat (a : Nat) : (a % 2 == 1).toNat = a % 2 := by
  rcases Nat.mod_two_eq_zero_or_one a with h | h <;> simp [h]

/-- The node after one decision of a bit tree (R248). -/
theorem node_step (n w k : Nat) (hk : k + 1 ≤ n) :
    2 * (2 ^ (n - (k + 1)) + w / 2 ^ (k + 1)) + (w / 2 ^ k % 2 == 1).toNat = 2 ^ (n - k) + w / 2 ^ k := by
  have h1 : 2 ^ (n - k) = 2 * 2 ^ (n - (k + 1)) := by rw [← Nat.pow_succ']; congr 1; omega
  have h2 : w / 2 ^ (k + 1) = w / 2 ^ k / 2 := by rw [Nat.pow_succ, Nat.div_div_eq_div_mul]
  have h3 := bit_toNat (w / 2 ^ k)
  omega

/-- The decisions of the low `k` bits of a run length. -/
def lowPart (w k : Nat) : List (Ctx × Bool) :=
  (List.range k).reverse.map fun j => (Ctx.rbit j, w / 2 ^ j % 2 == 1)

theorem lowPart_succ (w k : Nat) : lowPart w (k + 1) = (.rbit k, w / 2 ^ k % 2 == 1) :: lowPart w k := by
  simp only [lowPart, List.range_succ, List.reverse_append, List.reverse_singleton, List.singleton_append, List.map_cons]

theorem testBit_eq (v k : Nat) : v.testBit k = (v / 2 ^ k % 2 == 1) := by
  rw [Nat.testBit_eq_decide_div_mod_eq]; rfl

theorem decisions_cons (prev : Bool) (t : Token) (ts : List Token) :
    decisions prev (t :: ts) = tokenDecisions prev t ++ decisions t.isRun ts := by cases t <;> rfl

/-- A token that `tokenDecisions` speaks of: R110's, and the literal 0, which no stream holds. -/
def Token.Codable : Token → Prop
  | .lit _ => True
  | .run k => k < 2 ^ 32

theorem log2_lt (k : Nat) (h : k < 2 ^ 32) : Nat.log2 k < 32 := by
  by_cases h0 : k = 0
  · subst h0; decide
  · exact (Nat.log2_lt h0).2 h

/-- A token that R249 refuses after its decisions: the literal 0, and a run past the ranks to come. -/
def Refused (room : Nat) (t : Token) : Prop := t = .lit 0 ∨ ∃ k, t = .run k ∧ room < k

/-! ### The encoder -/

/-- The encoder of the claims that the model's encoder stands for. -/
def Enc.view (e : Enc) : Encoder := ⟨e.low, e.range, e.cache, e.csize, e.cells.get⟩

/-- Between two decisions (R243). -/
structure Enc.Ready (e : Enc) : Prop where
  range : 2 ^ 24 ≤ e.range
  csize : 1 ≤ e.csize
  cells : GoodCells e.cells

/-- `f` takes `e` to `g` and outputs `bs`, whatever the destination (R17). -/
def Outputs (f : Enc → Except Err Enc) (e g : Enc) (bs : List Byte) : Prop :=
  ∀ cap out, f { e with cap := cap, out := out } = emitAll cap out bs >>= fun o => .ok { g with cap := cap, out := o }

theorem Outputs.then {f h : Enc → Except Err Enc} {e g k : Enc} {as bs : List Byte}
    (hf : Outputs f e g as) (hh : Outputs h g k bs) : Outputs (fun e => f e >>= h) e k (as ++ bs) := by
  intro cap out
  simp only [hf cap out, emitAll_append]
  cases emitAll cap out as with
  | ok o => simp only [ok_bind, hh cap o]
  | error x => rfl

theorem outputs_nothing (e : Enc) : Outputs .ok e e [] := fun _ _ => rfl

theorem heldBytes_getD (cache csize carry k : Nat) (h : k < csize) :
    ((heldBytes cache csize carry).getD k 0).toNat = ((if k = 0 then cache else 0xFF) + carry) % 2 ^ 8 := by
  cases k with
  | zero => simp [heldBytes]
  | succ k =>
    have : k < csize - 1 := by omega
    simp [heldBytes, List.getD_eq_getElem?_getD, this]

theorem shiftLow_sim (e : Enc) (h : 1 ≤ e.csize) :
    ∃ g bs, ShiftsLow e.view g.view bs ∧ Outputs shiftLow e g bs ∧ g.range = e.range ∧ g.cells = e.cells ∧
      1 ≤ g.csize := by
  obtain ⟨low, range, cache, csize, cells, cap, out⟩ := e
  simp only at h
  by_cases hc : low % 2 ^ 32 < 0xFF000000 ∨ 2 ^ 32 ≤ low
  · refine ⟨⟨(low % 2 ^ 24) <<< 8, range, (low >>> 24) % 256, 1, cells, cap, out⟩,
      heldBytes cache csize (low >>> 32), ⟨rfl, rfl, ?_, ?_⟩, ?_, rfl, rfl, le_rfl⟩
    · simp [Enc.view, Nat.shiftLeft_eq]
    · simp only [Enc.view, hc, if_true]
      refine ⟨by simp [Nat.shiftRight_eq_div_pow], trivial, by simp [heldBytes]; omega, fun k hk => ?_⟩
      rw [heldBytes_getD _ _ _ _ hk, Nat.shiftRight_eq_div_pow]
    · intro cap out
      simp only [shiftLow_mk, hc, if_true]
      cases emitAll cap out (heldBytes cache csize (low >>> 32)) <;> rfl
  · refine ⟨⟨(low % 2 ^ 24) <<< 8, range, cache, csize + 1, cells, cap, out⟩,
      [], ⟨rfl, rfl, ?_, ?_⟩, ?_, rfl, rfl, by simp⟩
    · simp [Enc.view, Nat.shiftLeft_eq]
    · simp only [Enc.view, hc, if_false]; exact ⟨trivial, trivial, trivial⟩
    · intro cap out
      simp only [shiftLow_mk, hc, if_false]
      rfl

theorem encRenorm_sim (k : Nat) (e : Enc) (h : 1 ≤ e.csize) (hr : 2 ^ 24 ≤ e.range * 2 ^ (8 * k))
    (hc : GoodCells e.cells) :
    ∃ g bs, Renormalises e.view g.view bs ∧ Outputs (encRenorm k) e g bs ∧ g.Ready := by
  induction k generalizing e with
  | zero =>
    simp only [Nat.mul_zero, Nat.pow_zero, Nat.mul_one] at hr
    exact ⟨e, [], .done _ hr, outputs_nothing e, hr, h, hc⟩
  | succ k ih =>
    by_cases hlt : e.range < 2 ^ 24
    · obtain ⟨f, as, h1, h2, h3, h4, h5⟩ := shiftLow_sim { e with range := (e.range <<< 8) % 2 ^ 32 } h
      simp only at h3 h4
      obtain ⟨g, bs, k1, k2, k3⟩ :=
        ih f h5 (by rw [h3, range_round _ hlt, range_rounds]; exact hr) (h4 ▸ hc)
      refine ⟨g, as ++ bs, .shift _ f.view _ _ _ hlt ?_ k1, ?_, k3⟩
      · have := h1
        simp only [Enc.view, Nat.shiftLeft_eq] at this ⊢
        exact this
      · intro cap out
        have := (h2.then k2) cap out
        rw [encRenorm_succ]
        simpa only [show e.range < rcTop from hlt, if_true] using this
    · refine ⟨e, [], .done _ (by simpa [Enc.view] using hlt), ?_, by omega, h, hc⟩
      intro cap out
      rw [encRenorm_succ]
      simp only [show ¬ e.range < rcTop from hlt, if_false]
      rfl

theorem encodeBit_sim (e : Enc) (he : e.Ready) (c : Ctx) (b : Bool) :
    ∃ g bs, Renormalises (e.view.narrowed c b) g.view bs ∧ Outputs (fun e => encodeBit e c b) e g bs ∧ g.Ready := by
  have hv : (narrow e c b).view = e.view.narrowed c b := by
    cases b <;> simp [narrow, Enc.view, Encoder.narrowed, boundOf, Nat.shiftRight_eq_div_pow, get_adapted]
  obtain ⟨g, bs, h1, h2, h3⟩ := encRenorm_sim renormRounds (narrow e c b) (by
      cases b <;> simpa [narrow] using he.csize) (by
      have hp := parts_pos e.range (e.cells.get c) he.range (he.cells c)
      have hpos : 1 ≤ (narrow e c b).range := by
        cases b
        · simpa only [narrow, Bool.false_eq_true, if_false] using hp.2
        · simpa only [narrow, if_true] using hp.1
      simp only [renormRounds]
      omega) (by cases b <;> simpa [narrow] using he.cells.adapt c _)
  refine ⟨g, bs, hv ▸ h1, ?_, h3⟩
  intro cap out
  have := h2 cap out
  unfold encodeBit
  rw [← this]
  cases b <;> rfl

theorem encodes_append {e f g : Encoder} {as bs : List (Ctx × Bool)} {xs ys : List Byte}
    (h : Encodes e as f xs) (k : Encodes f bs g ys) : Encodes e (as ++ bs) g (xs ++ ys) := by
  induction h with
  | none e => exact k
  | bit e f g c b ds out more h1 h2 ih => rw [List.append_assoc]; exact .bit _ _ _ _ _ _ _ _ h1 (ih k)

/-- A part of the model's encoder codes the decisions `ds`. -/
def Codes (f : Enc → Except Err Enc) (ds : List (Ctx × Bool)) : Prop :=
  ∀ e : Enc, e.Ready → ∃ g bs, Encodes e.view ds g.view bs ∧ Outputs f e g bs ∧ g.Ready

theorem encodeBit_codes (c : Ctx) (b : Bool) : Codes (fun e => encodeBit e c b) [(c, b)] := by
  intro e he
  obtain ⟨g, bs, h1, h2, h3⟩ := encodeBit_sim e he c b
  exact ⟨g, bs, by simpa using Encodes.bit _ _ _ _ _ _ _ _ h1 (.none _), h2, h3⟩

theorem Codes.then {f g : Enc → Except Err Enc} {as bs : List (Ctx × Bool)} (hf : Codes f as) (hg : Codes g bs) :
    Codes (fun e => f e >>= g) (as ++ bs) := by
  intro e he
  obtain ⟨e1, xs, h1, h2, h3⟩ := hf e he
  obtain ⟨e2, ys, k1, k2, k3⟩ := hg e1 h3
  exact ⟨e2, xs ++ ys, encodes_append h1 k1, h2.then k2, k3⟩

theorem codes_nothing : Codes .ok [] := fun e he => ⟨e, [], .none _, outputs_nothing e, he⟩

theorem encodeTree_codes (mk : Nat → Ctx) (v n k : Nat) (hk : k ≤ n) :
    Codes (encodeTree mk v k (2 ^ (n - k) + v / 2 ^ k)) (treePart mk n v k) := by
  induction k with
  | zero => exact codes_nothing
  | succ k ih =>
    rw [encodeTree_succ, treePart_succ _ _ _ _ hk, testBit_eq, node_step n v k hk, ← List.singleton_append]
    exact (encodeBit_codes _ _).then (ih (by omega))

theorem encodeLowBits_codes (v k : Nat) : Codes (encodeLowBits v k) (lowPart v k) := by
  induction k with
  | zero => exact codes_nothing
  | succ k ih =>
    rw [encodeLowBits_succ, lowPart_succ, testBit_eq, ← List.singleton_append]
    exact (encodeBit_codes _ _).then ih

theorem tree_codes (mk : Nat → Ctx) (n v : Nat) (hv : v < 2 ^ n) :
    Codes (encodeTree mk v n 1) (treeDecisions mk n v) := by
  have := encodeTree_codes mk v n n le_rfl
  rwa [Nat.sub_self, Nat.pow_zero, Nat.div_eq_of_lt hv, Nat.add_zero] at this

theorem encodeToken_codes (prev : Bool) (t : Token) (h : t.Codable) :
    Codes (fun e => encodeToken e prev t) (tokenDecisions prev t) := by
  cases t with
  | lit r => exact (encodeBit_codes _ _).then (tree_codes _ 8 _ r.isLt)
  | run k =>
    refine (encodeBit_codes _ _).then ?_
    have hb : bitlen k - 1 = Nat.log2 k := by simp [bitlen]
    rw [hb]
    exact (tree_codes _ 5 _ (log2_lt k h)).then (encodeLowBits_codes _ _)

theorem tokens_codes (maxBlock : Nat) (ts : List Token) (h : ∀ t ∈ ts, t.Codable) (prev : Bool) (m : Nat)
    (hm : m + countAll ts ≤ maxBlock) (e : Enc) (he : e.Ready) :
    ∃ (g : Enc) (bs : List Byte), Encodes e.view (decisions prev ts) g.view bs ∧ g.Ready ∧
      ∀ cap out, encodeTokensGo maxBlock { e with cap := cap, out := out } prev m ts =
        emitAll cap out bs >>= fun o => Except.ok ({ g with cap := cap, out := o }, m + countAll ts) := by
  induction ts generalizing prev m e with
  | nil => exact ⟨e, [], .none _, he, fun cap out => rfl⟩
  | cons t ts ih =>
    simp only [countAll] at hm ⊢
    obtain ⟨f, as, h1, h2, h3⟩ := encodeToken_codes prev t (h t (by simp)) e he
    obtain ⟨g, bs, k1, k2, k3⟩ := ih (fun u hu => h u (by simp [hu])) t.isRun (m + t.count) (by omega) f h3
    refine ⟨g, as ++ bs, by rw [decisions_cons]; exact encodes_append h1 k1, k2, fun cap out => ?_⟩
    simp only [encodeTokensGo, h2 cap out, emitAll_append]
    cases emitAll cap out as with
    | error x => rfl
    | ok o =>
      simp only [ok_bind, show ¬ m + t.count > maxBlock by omega, if_false, k3, Nat.add_assoc]

theorem shiftTimes_sim (n : Nat) (e : Enc) (h : 1 ≤ e.csize) :
    ∃ g bs, Flushes n e.view g.view bs ∧ Outputs (shiftTimes n) e g bs := by
  induction n generalizing e with
  | zero => exact ⟨e, [], .done _, outputs_nothing e⟩
  | succ n ih =>
    obtain ⟨f, as, h1, h2, -, -, h5⟩ := shiftLow_sim e h
    obtain ⟨g, bs, k1, k2⟩ := ih f h5
    refine ⟨g, as ++ bs, .shift _ _ _ _ _ _ h1 k1, ?_⟩
    rw [shiftTimes_succ]; exact h2.then k2

theorem init_ready : (Enc.init none).Ready := ⟨by decide, by decide, fun c => by simp [Enc.init, Cells.get, rcPInit]⟩

/-- The encoder of the model outputs the payload of R248. -/
theorem rcEncode_payload (maxBlock : Nat) (ts : List Token) (h : ∀ t ∈ ts, t.Codable) (hm : countAll ts ≤ maxBlock) :
    ∃ p, IsPayload ts p ∧ ∀ cap, rcEncode maxBlock cap ts = emitAll cap [] p >>= fun o => .ok (o, countAll ts) := by
  obtain ⟨g, body, h1, h2, h3⟩ := tokens_codes maxBlock ts h false 0 (by omega) _ init_ready
  obtain ⟨f, tail, k1, k2⟩ := shiftTimes_sim 5 g h2.csize
  refine ⟨body ++ tail, ⟨_, _, _, _, h1, k1, rfl⟩, fun cap => ?_⟩
  have h3' := h3 cap []
  simp only [rcEncode, show Enc.init cap = { Enc.init none with cap := cap, out := [] } from rfl, h3', emitAll_append]
  cases emitAll cap [] body with
  | error x => rfl
  | ok o =>
    simp only [ok_bind, flushEnc, k2 cap o, Nat.zero_add]
    cases emitAll cap o tail <;> rfl

/-- What the model's encoder returns is the payload of R248. -/
theorem rcEncode_isPayload (maxBlock n : Nat) (ts : List Token) (p : List Byte) (h : ∀ t ∈ ts, t.Codable)
    (hm : countAll ts ≤ maxBlock) (he : rcEncode maxBlock none ts = .ok (p, n)) : IsPayload ts p := by
  obtain ⟨q, hq, hr⟩ := rcEncode_payload maxBlock ts h hm
  simp only [hr, emitAll_scratch, ok_bind, List.nil_append, Except.ok.injEq, Prod.mk.injEq] at he
  exact he.1 ▸ hq

/-- The token that passes MAX_BLOCK_SIZE (R248, R250). -/
theorem rcEncode_passes (maxBlock : Nat) (pre post : List Token) (t : Token) (h : ∀ u ∈ pre ++ [t], u.Codable)
    (hm : countAll pre ≤ maxBlock) (ht : maxBlock < countAll pre + t.count) :
    ∃ e out, Encodes Encoder.start (decisions false (pre ++ [t])) e out ∧
      ∀ cap, rcEncode maxBlock cap (pre ++ t :: post) = emitAll cap [] out >>= fun _ => .error .invalidInput := by
  obtain ⟨g, bs, h1, h2, h3⟩ := tokens_codes (countAll pre + t.count) (pre ++ [t]) h false 0 (by
    rw [← expand_length, expand_append, List.length_append, expand_length, expand_length]
    simp only [countAll]; omega) _ init_ready
  refine ⟨_, _, h1, fun cap => ?_⟩
  have key : ∀ (pre : List Token) (e : Enc) (prev : Bool) (m : Nat), m + countAll pre ≤ maxBlock →
      maxBlock < m + countAll pre + t.count →
      encodeTokensGo maxBlock e prev m (pre ++ t :: post) =
        encodeTokensGo (m + countAll pre + t.count) e prev m (pre ++ [t]) >>= fun _ => .error .invalidInput := by
    intro pre
    induction pre with
    | nil =>
      intro e prev m h1 h2
      simp only [List.nil_append, encodeTokensGo, countAll] at *
      cases encodeToken e prev t with
      | error x => rfl
      | ok e' =>
        simp only [show m + t.count > maxBlock by omega, if_true,
          show ¬ m + t.count > m + 0 + t.count by omega, if_false]
        rfl
    | cons u pre ih =>
      intro e prev m h1 h2
      simp only [List.cons_append, encodeTokensGo, countAll] at *
      cases encodeToken e prev u with
      | error x => rfl
      | ok e' =>
        simp only [show ¬ m + u.count > maxBlock by omega, if_false,
          show ¬ m + u.count > m + (u.count + countAll pre) + t.count by omega]
        rw [ih e' u.isRun (m + u.count) (by omega) (by omega)]
        simp only [Nat.add_assoc]
  have h3' := h3 cap []
  simp only [rcEncode, show Enc.init cap = { Enc.init none with cap := cap, out := [] } from rfl]
  rw [key pre _ false 0 (by omega) (by omega), Nat.zero_add, h3']
  cases emitAll cap [] bs <;> rfl

/-! ### The decoder -/

/-- The decoder of the claims that the model's decoder stands for. -/
def Dec.view (x : Dec) : Decoder := ⟨x.range, x.code, x.cells.get, x.rest⟩

/-- Between two decisions (R247). -/
structure Dec.Ready (x : Dec) : Prop where
  range : 2 ^ 24 ≤ x.range
  cells : GoodCells x.cells

theorem decRenorm_refills (k : Nat) (x y : Dec) (hr : 2 ^ 24 ≤ x.range * 2 ^ (8 * k)) (h : decRenorm k x = .ok y) :
    Refills x.view y.view ∧ 2 ^ 24 ≤ y.range ∧ y.cells = x.cells := by
  induction k generalizing x with
  | zero =>
    simp only [Nat.mul_zero, Nat.pow_zero, Nat.mul_one] at hr
    obtain rfl : x = y := by simpa [decRenorm] using h
    exact ⟨.done _ hr, hr, rfl⟩
  | succ k ih =>
    by_cases hlt : x.range < 2 ^ 24
    · have hm := range_round x.range hlt
      simp only [decRenorm, show x.range < rcTop from hlt, if_true, Dec.shiftIn] at h
      obtain ⟨range, code, rest, cells⟩ := x
      simp only at hlt hm h hr
      cases rest with
      | nil => simp at h
      | cons b r =>
        simp only [hm] at h
        obtain ⟨h1, h2, h3⟩ := ih _ (by simpa only [range_rounds] using hr) h
        refine ⟨.byte _ _ b r hlt rfl ?_, h2, h3⟩
        have hmm : range * 2 ^ 8 % 2 ^ 32 = range * 2 ^ 8 := Nat.mod_eq_of_lt (by omega)
        simpa only [Dec.view, hmm, show (256 : Nat) = 2 ^ 8 from rfl] using h1
    · simp only [decRenorm, show ¬ x.range < rcTop from hlt, if_false, Except.ok.injEq] at h
      subst h
      exact ⟨.done _ (by simpa [Dec.view] using hlt), by omega, rfl⟩

theorem refills_decRenorm (k : Nat) (x : Dec) (Y : Decoder) (hr : 2 ^ 24 ≤ x.range * 2 ^ (8 * k))
    (h : Refills x.view Y) : ∃ y, decRenorm k x = .ok y ∧ y.view = Y := by
  induction k generalizing x with
  | zero =>
    simp only [Nat.mul_zero, Nat.pow_zero, Nat.mul_one] at hr
    cases h with
    | done _ _ => exact ⟨x, rfl, rfl⟩
    | byte _ _ b r h1 _ _ => simp only [Dec.view] at h1; omega
  | succ k ih =>
    cases h with
    | done _ h1 =>
      exact ⟨x, by simp [decRenorm, show ¬ x.range < rcTop from by simpa [Dec.view, rcTop] using h1], rfl⟩
    | byte _ _ b r h1 h2 h3 =>
      obtain ⟨range, code, rest, cells⟩ := x
      simp only [Dec.view] at h1 h2 h3
      subst h2
      have hm := range_round range h1
      have hmm : range * 2 ^ 8 % 2 ^ 32 = range * 2 ^ 8 := Nat.mod_eq_of_lt (by omega)
      simp only at hr
      simp only [decRenorm, show range < rcTop from h1, if_true, Dec.shiftIn, hm]
      refine ih _ (by simpa only [range_rounds] using hr) ?_
      simpa only [Dec.view, hmm, show (256 : Nat) = 2 ^ 8 from rfl] using h3

theorem narrow_view (x : Dec) (c : Ctx) (b : Bool) : (x.narrow c b).view = x.view.narrowed c b := by
  cases b <;> simp [Dec.narrow, Dec.view, Decoder.narrowed, boundOf, Nat.shiftRight_eq_div_pow, get_adapted]

theorem narrow_range (x : Dec) (hx : x.Ready) (c : Ctx) (b : Bool) :
    2 ^ 24 ≤ (x.narrow c b).range * 2 ^ (8 * renormRounds) := by
  have hp := parts_pos x.range (x.cells.get c) hx.range (hx.cells c)
  have hpos : 1 ≤ (x.narrow c b).range := by
    cases b
    · simpa only [Dec.narrow, Bool.false_eq_true, if_false] using hp.2
    · simpa only [Dec.narrow, if_true] using hp.1
  simp only [renormRounds]
  omega

theorem narrow_cells (x : Dec) (c : Ctx) (b : Bool) :
    (x.narrow c b).cells = x.cells.set c (updateProb (x.cells.get c) b) := by cases b <;> rfl

theorem decision_iff (x : Dec) (c : Ctx) :
    x.decision c = true ↔ x.view.code < x.view.range / 2 ^ 12 * x.view.cell c := by
  simp [Dec.decision, Dec.view, boundOf, Nat.shiftRight_eq_div_pow]

theorem answers_append {x y z : Decoder} {as bs : List (Ctx × Bool)} (h : Answers x as y) (k : Answers y bs z) :
    Answers x (as ++ bs) z := by
  induction h with
  | none x => exact k
  | bit x y z c b ds h1 h2 _ ih => exact .bit _ _ _ _ _ _ h1 h2 (ih k)

/-- A part of the model's decoder that returns a value answers the decisions of that value. -/
theorem decodeBit_answers (x y : Dec) (hx : x.Ready) (c : Ctx) (b : Bool) (h : decodeBit x c = .ok (b, y)) :
    Answers x.view [(c, b)] y.view ∧ y.Ready := by
  simp only [decodeBit] at h
  split at h
  · next z hz =>
    simp only [Except.ok.injEq, Prod.mk.injEq] at h
    obtain ⟨rfl, rfl⟩ := h
    obtain ⟨h1, h2, h3⟩ := decRenorm_refills _ _ _ (narrow_range x hx c _) hz
    exact ⟨.bit _ _ _ _ _ _ (decision_iff x c) (narrow_view x c _ ▸ h1) (.none _),
      h2, h3 ▸ narrow_cells x c _ ▸ hx.cells.adapt c _⟩
  · simp at h

/-- `decodeBit` answers as the claims' decoder does. -/
theorem answers_decodeBit (x : Dec) (Z : Decoder) (hx : x.Ready) (c : Ctx) (b : Bool) (es : List (Ctx × Bool))
    (h : Answers x.view ((c, b) :: es) Z) : ∃ y, decodeBit x c = .ok (b, y) ∧ y.Ready ∧ Answers y.view es Z := by
  cases h with
  | bit _ Y _ _ _ _ h1 h2 h3 =>
    have hb : x.decision c = b := by
      exact Bool.eq_iff_iff.mpr ((decision_iff x c).trans h1.symm)
    rw [← narrow_view] at h2
    obtain ⟨y, k1, rfl⟩ := refills_decRenorm renormRounds _ _ (narrow_range x hx c b) h2
    have k2 : decodeBit x c = .ok (b, y) := by simp only [decodeBit, hb, k1]
    exact ⟨y, k2, (decodeBit_answers x y hx c b k2).2, h3⟩

theorem bit_of_step (n w k node : Nat) (b : Bool) (hk : k + 1 ≤ n)
    (h : 2 * node + b.toNat = 2 ^ (n - k) + w / 2 ^ k) :
    node = 2 ^ (n - (k + 1)) + w / 2 ^ (k + 1) ∧ b = (w / 2 ^ k % 2 == 1) := by
  have h1 : 2 ^ (n - k) = 2 * 2 ^ (n - (k + 1)) := by rw [← Nat.pow_succ']; congr 1; omega
  have h2 : w / 2 ^ (k + 1) = w / 2 ^ k / 2 := by rw [Nat.pow_succ, Nat.div_div_eq_div_mul]
  cases b <;> simp at h ⊢ <;> omega

theorem decodeTree_answers (mk : Nat → Ctx) (n k node v : Nat) (x y : Dec) (hx : x.Ready) (hk : k ≤ n)
    (hn : 2 ^ (n - k) ≤ node) (h : decodeTree mk k node x = .ok (v, y)) :
    ∃ w, v = 2 ^ n + w ∧ node = 2 ^ (n - k) + w / 2 ^ k ∧ Answers x.view (treePart mk n w k) y.view ∧
      y.Ready := by
  induction k generalizing node x with
  | zero =>
    simp only [decodeTree, Except.ok.injEq, Prod.mk.injEq] at h
    obtain ⟨rfl, rfl⟩ := h
    simp only [Nat.sub_zero] at hn
    exact ⟨node - 2 ^ n, by omega, by simp; omega, .none _, hx⟩
  | succ k ih =>
    simp only [decodeTree] at h
    split at h
    · next b x1 hb =>
      obtain ⟨h1, h2⟩ := decodeBit_answers x x1 hx _ b hb
      obtain ⟨w, k1, k2, k3, k4⟩ := ih _ x1 h2 (by omega) (by
        have : 2 ^ (n - k) = 2 * 2 ^ (n - (k + 1)) := by rw [← Nat.pow_succ']; congr 1; omega
        omega) h
      obtain ⟨e1, e2⟩ := bit_of_step n w k node b hk k2
      refine ⟨w, k1, e1, ?_, k4⟩
      rw [treePart_succ _ _ _ _ hk, ← e1, ← e2]
      exact answers_append h1 k3
    · simp at h

theorem answers_decodeTree (mk : Nat → Ctx) (n w k : Nat) (x : Dec) (Z : Decoder) (es : List (Ctx × Bool))
    (hx : x.Ready) (hk : k ≤ n) (h : Answers x.view (treePart mk n w k ++ es) Z) :
    ∃ y, decodeTree mk k (2 ^ (n - k) + w / 2 ^ k) x = .ok (2 ^ n + w, y) ∧ y.Ready ∧ Answers y.view es Z := by
  induction k generalizing x with
  | zero => exact ⟨x, by simp [decodeTree], hx, h⟩
  | succ k ih =>
    rw [treePart_succ _ _ _ _ hk, List.cons_append] at h
    obtain ⟨x1, h1, h2, h3⟩ := answers_decodeBit x Z hx _ _ _ h
    obtain ⟨y, k1, k2, k3⟩ := ih x1 h2 (by omega) h3
    exact ⟨y, by simp only [decodeTree, h1, node_step n w k hk, k1], k2, k3⟩

theorem decodeLowBits_answers (k v0 v : Nat) (x y : Dec) (hx : x.Ready) (h : decodeLowBits k v0 x = .ok (v, y)) :
    v0 = v / 2 ^ k ∧ Answers x.view (lowPart v k) y.view ∧ y.Ready := by
  induction k generalizing v0 x with
  | zero =>
    simp only [decodeLowBits, Except.ok.injEq, Prod.mk.injEq] at h
    obtain ⟨rfl, rfl⟩ := h
    exact ⟨by simp, .none _, hx⟩
  | succ k ih =>
    simp only [decodeLowBits] at h
    split at h
    · next b x1 hb =>
      obtain ⟨h1, h2⟩ := decodeBit_answers x x1 hx _ b hb
      obtain ⟨k1, k2, k3⟩ := ih _ x1 h2 h
      have h2 : v / 2 ^ (k + 1) = v / 2 ^ k / 2 := by rw [Nat.pow_succ, Nat.div_div_eq_div_mul]
      have hb2 : b = (v / 2 ^ k % 2 == 1) := by rw [← k1]; cases b <;> simp
      refine ⟨?_, ?_, k3⟩
      · rw [h2, ← k1]; cases b <;> simp; omega
      · rw [lowPart_succ, ← hb2]; exact answers_append h1 k2
    · simp at h

theorem answers_decodeLowBits (k v : Nat) (x : Dec) (Z : Decoder) (es : List (Ctx × Bool)) (hx : x.Ready)
    (h : Answers x.view (lowPart v k ++ es) Z) :
    ∃ y, decodeLowBits k (v / 2 ^ k) x = .ok (v, y) ∧ y.Ready ∧ Answers y.view es Z := by
  induction k generalizing x with
  | zero => exact ⟨x, by simp [decodeLowBits], hx, h⟩
  | succ k ih =>
    rw [lowPart_succ, List.cons_append] at h
    obtain ⟨x1, h1, h2, h3⟩ := answers_decodeBit x Z hx _ _ _ h
    obtain ⟨y, k1, k2, k3⟩ := ih x1 h2 h3
    have e : 2 * (v / 2 ^ (k + 1)) + (v / 2 ^ k % 2 == 1).toNat = v / 2 ^ k := by
      have h2 : v / 2 ^ (k + 1) = v / 2 ^ k / 2 := by rw [Nat.pow_succ, Nat.div_div_eq_div_mul]
      have h3 := bit_toNat (v / 2 ^ k)
      omega
    exact ⟨y, by simp only [decodeLowBits, h1, e, k1], k2, k3⟩

theorem log2_of_div (k e : Nat) (h : k / 2 ^ e = 1) : Nat.log2 k = e := by
  have h0 : k ≠ 0 := by rintro rfl; simp at h
  refine (Nat.log2_eq_iff h0).2 ⟨?_, ?_⟩
  · have := Nat.div_mul_le_self k (2 ^ e); rw [h] at this; omega
  · rw [Nat.pow_succ]
    have := Nat.lt_mul_div_succ k (Nat.two_pow_pos e)
    rw [h] at this; omega

theorem div_log2 (k : Nat) (h : 1 ≤ k) : k / 2 ^ Nat.log2 k = 1 := by
  have h1 := Nat.log2_self_le (show k ≠ 0 by omega)
  have h2 := Nat.lt_log2_self (n := k)
  rw [Nat.pow_succ] at h2
  exact Nat.div_eq_of_lt_le (by omega) (by omega)

theorem decodeToken_answers (x y : Dec) (hx : x.Ready) (prev : Bool) (room : Nat) (t : Token)
    (hr : 1 ≤ room) (hroom : room < 2 ^ 32) (h : decodeToken x prev room = .ok (t, y)) :
    t.Valid ∧ 1 ≤ t.count ∧ t.count ≤ room ∧ Answers x.view (tokenDecisions prev t) y.view ∧ y.Ready := by
  have hv := decodeToken_ok x y prev room t hr hroom h
  refine ⟨hv.1, hv.2.1, hv.2.2, ?_⟩
  simp only [decodeToken, bind_ok_iff] at h
  obtain ⟨⟨isRun, x1⟩, h1, h⟩ := h
  obtain ⟨a1, r1⟩ := decodeBit_answers x x1 hx _ _ h1
  cases isRun
  · simp only [Bool.false_eq_true, if_false, bind_ok_iff] at h
    obtain ⟨⟨node, x2⟩, h2, h⟩ := h
    have hb := decodeTree_bounds _ _ _ _ _ _ h2
    obtain ⟨w, k1, -, k3, k4⟩ := decodeTree_answers .lit 8 8 1 node x1 x2 r1 le_rfl (by decide) h2
    simp only at h
    split at h
    · simp at h
    · simp only [Except.ok.injEq, Prod.mk.injEq] at h
      obtain ⟨rfl, rfl⟩ := h
      have hw : (BitVec.ofNat 8 (node - 256)).toNat = w := by
        simp only [BitVec.toNat_ofNat]; omega
      refine ⟨?_, k4⟩
      simp only [tokenDecisions, hw]
      exact answers_append a1 k3
  · simp only [if_true, bind_ok_iff] at h
    obtain ⟨⟨node, x2⟩, h2, ⟨k, x3⟩, h3, h⟩ := h
    obtain ⟨w, k1, -, k3, k4⟩ := decodeTree_answers .rlen 5 5 1 node x1 x2 r1 le_rfl (by decide) h2
    obtain ⟨l1, l2, l3⟩ := decodeLowBits_answers _ _ _ x2 x3 k4 h3
    simp only at h
    split at h
    · simp at h
    · simp only [Except.ok.injEq, Prod.mk.injEq] at h
      obtain ⟨rfl, rfl⟩ := h
      have he : Nat.log2 k = node - 32 := log2_of_div k _ l1.symm
      have hw : node - 32 = w := by omega
      refine ⟨?_, l3⟩
      simp only [tokenDecisions, he]
      rw [hw] at l2 ⊢
      exact answers_append a1 (answers_append k3 l2)

theorem answers_decodeToken (x : Dec) (Z : Decoder) (hx : x.Ready) (prev : Bool) (room : Nat) (t : Token)
    (es : List (Ctx × Bool)) (ht : t.Codable) (h1 : 1 ≤ t.count)
    (h : Answers x.view (tokenDecisions prev t ++ es) Z) :
    ∃ y, y.Ready ∧ Answers y.view es Z ∧
      (Refused room t → decodeToken x prev room = .error .corruptStream) ∧
      (¬Refused room t → decodeToken x prev room = .ok (t, y)) := by
  cases t with
  | lit r =>
    simp only [tokenDecisions, List.cons_append] at h
    obtain ⟨x1, a1, a2, a3⟩ := answers_decodeBit x Z hx _ _ _ h
    obtain ⟨x2, b1, b2, b3⟩ := answers_decodeTree .lit 8 r.toNat 8 x1 Z es a2 le_rfl a3
    have hr := r.isLt
    rw [Nat.div_eq_of_lt hr] at b1
    have b1' : decodeTree .lit 8 1 x1 = .ok (2 ^ 8 + r.toNat, x2) := b1
    have e : 2 ^ 8 + r.toNat - 256 = r.toNat := by omega
    have step : decodeToken x prev room =
        if r.toNat = 0 then .error .corruptStream else .ok (.lit (BitVec.ofNat 8 r.toNat), x2) := by
      simp only [decodeToken, a1, ok_bind, Bool.false_eq_true, if_false, b1', e]
    rw [step]
    refine ⟨x2, b2, b3, fun hR => if_pos ?_, fun hR => ?_⟩
    · rcases hR with h | ⟨k, h, -⟩
      · obtain rfl : r = 0 := by simpa using h
        rfl
      · simp at h
    · have h0 : r.toNat ≠ 0 := fun h0 => hR (.inl (congrArg Token.lit (BitVec.eq_of_toNat_eq h0)))
      rw [if_neg h0, BitVec.ofNat_toNat, BitVec.setWidth_eq]
  | run k =>
    simp only [tokenDecisions, List.cons_append, List.append_assoc] at h
    obtain ⟨x1, a1, a2, a3⟩ := answers_decodeBit x Z hx _ _ _ h
    obtain ⟨x2, b1, b2, b3⟩ := answers_decodeTree .rlen 5 (Nat.log2 k) 5 x1 Z _ a2 le_rfl a3
    obtain ⟨x3, c1, c2, c3⟩ := answers_decodeLowBits (Nat.log2 k) k x2 Z es b2 b3
    have hl : Nat.log2 k < 2 ^ 5 := log2_lt k ht
    rw [Nat.div_eq_of_lt hl] at b1
    rw [div_log2 k h1] at c1
    have b1' : decodeTree .rlen 5 1 x1 = .ok (2 ^ 5 + Nat.log2 k, x2) := b1
    have e : 2 ^ 5 + Nat.log2 k - 32 = Nat.log2 k := by omega
    refine ⟨x3, c2, c3, fun hR => ?_, fun hR => ?_⟩
    · have h0 : room < k := by
        rcases hR with h | ⟨j, h, hj⟩
        · simp at h
        · simp at h; omega
      simp only [decodeToken, a1, ok_bind, if_true, b1', e, c1, h0]
    · have h0 : ¬ room < k := fun h0 => hR (.inr ⟨k, rfl, h0⟩)
      simp only [decodeToken, a1, ok_bind, if_true, b1', e, c1, h0, if_false]

/-! ### Why the decoder raises -/

theorem decRenorm_error (k : Nat) (x : Dec) (e : Err) (h : decRenorm k x = .error e) : e = .corruptStream := by
  induction k generalizing x with
  | zero => simp [decRenorm] at h
  | succ k ih =>
    simp only [decRenorm] at h
    split at h
    · split at h
      · exact ih _ h
      · next h' =>
        simp only [Dec.shiftIn] at h'
        split at h' <;> simp_all
    · simp at h

theorem decodeBit_error (x : Dec) (c : Ctx) (e : Err) (h : decodeBit x c = .error e) : e = .corruptStream := by
  simp only [decodeBit] at h
  split at h
  · simp at h
  · next h' =>
    simp only [Except.error.injEq] at h
    exact h ▸ decRenorm_error _ _ _ h'

theorem decodeTree_error (mk : Nat → Ctx) (k node : Nat) (x : Dec) (e : Err) (h : decodeTree mk k node x = .error e) :
    e = .corruptStream := by
  induction k generalizing node x with
  | zero => simp [decodeTree] at h
  | succ k ih =>
    simp only [decodeTree] at h
    split at h
    · exact ih _ _ h
    · next h' =>
      simp only [Except.error.injEq] at h
      exact h ▸ decodeBit_error _ _ _ h'

theorem decodeLowBits_error (k v : Nat) (x : Dec) (e : Err) (h : decodeLowBits k v x = .error e) :
    e = .corruptStream := by
  induction k generalizing v x with
  | zero => simp [decodeLowBits] at h
  | succ k ih =>
    simp only [decodeLowBits] at h
    split at h
    · exact ih _ _ h
    · next h' =>
      simp only [Except.error.injEq] at h
      exact h ▸ decodeBit_error _ _ _ h'

theorem decodeToken_error (x : Dec) (prev : Bool) (room : Nat) (e : Err) (he : decodeToken x prev room = .error e) :
    e = .corruptStream := by
  simp only [decodeToken, bind_error_iff] at he
  rcases he with he | ⟨⟨isRun, x1⟩, -, he⟩
  · exact decodeBit_error _ _ _ he
  · cases isRun
    · simp only [Bool.false_eq_true, if_false, bind_error_iff] at he
      rcases he with he | ⟨⟨n, x2⟩, -, he⟩
      · exact decodeTree_error _ _ _ _ _ he
      · simp only at he
        split at he <;> simp_all
    · simp only [if_true, bind_error_iff] at he
      rcases he with he | ⟨⟨n, x2⟩, -, he | ⟨⟨k, x3⟩, -, he⟩⟩
      · exact decodeTree_error _ _ _ _ _ he
      · exact decodeLowBits_error _ _ _ _ he
      · simp only at he
        split at he <;> simp_all

/-! ### The token loop and the whole decoder -/

/-- What the token loop of R249 returns: valid tokens of the ranks to come, written through `emit`, whose decisions it has
answered. -/
theorem tokensGo_answers (cap : Option Nat) (fuel room : Nat) (x y : Dec) (prev : Bool) (out out' : List Byte)
    (hx : x.Ready) (hf : room ≤ fuel) (hroom : room < 2 ^ 32)
    (h : decodeTokensGo cap fuel x prev room out = .ok (out', y)) :
    ∃ ts, (∀ t ∈ ts, t.Valid) ∧ countAll ts = room ∧ emitAll cap out (tokenBytes ts) = .ok out' ∧
      Answers x.view (decisions prev ts) y.view := by
  induction fuel generalizing room x prev out with
  | zero =>
    simp only [decodeTokensGo, Except.ok.injEq, Prod.mk.injEq] at h
    obtain ⟨rfl, rfl⟩ := h
    exact ⟨[], by simp, by simp [countAll]; omega, rfl, .none _⟩
  | succ fuel ih =>
    simp only [decodeTokensGo] at h
    split at h
    · next h0 =>
      simp only [Except.ok.injEq, Prod.mk.injEq] at h
      obtain ⟨rfl, rfl⟩ := h
      exact ⟨[], by simp, by simp [countAll, h0], rfl, .none _⟩
    · split at h
      · simp at h
      · next t x1 ht =>
        obtain ⟨v1, v2, v3, v4, v5⟩ := decodeToken_answers x x1 hx prev room t (by omega) hroom ht
        split at h
        · next o ho =>
          obtain ⟨ts, k1, k2, k3, k4⟩ := ih (room - t.count) x1 t.isRun o v5 (by omega) (by omega) h
          refine ⟨t :: ts, by simpa using ⟨v1, k1⟩, by simp only [countAll]; omega, ?_, ?_⟩
          · simp only [tokenBytes, emitAll_append, ho, ok_bind, k3]
          · rw [decisions_cons]; exact answers_append v4 k4
        · simp at h

/-- Why the token loop of R249 raises. -/
theorem tokensGo_error (cap : Option Nat) (fuel room : Nat) (x : Dec) (prev : Bool) (out : List Byte) (e : Err)
    (hx : x.Ready) (hroom : room < 2 ^ 32) (h : decodeTokensGo cap fuel x prev room out = .error e) :
    e = .corruptStream ∨ (e = .capacityExceeded ∧ ∃ ts Y, (∀ t ∈ ts, t.Valid) ∧ countAll ts ≤ room ∧
      emitAll cap out (tokenBytes ts) = .error .capacityExceeded ∧ Answers x.view (decisions prev ts) Y) := by
  induction fuel generalizing room x prev out with
  | zero => simp [decodeTokensGo] at h
  | succ fuel ih =>
    simp only [decodeTokensGo] at h
    split at h
    · simp at h
    · split at h
      · next e1 he =>
        simp only [Except.error.injEq] at h
        exact .inl (h ▸ decodeToken_error _ _ _ _ he)
      · next t x1 ht =>
        obtain ⟨v1, v2, v3, v4, v5⟩ := decodeToken_answers x x1 hx prev room t (by omega) hroom ht
        split at h
        · next o ho =>
          rcases ih (room - t.count) x1 t.isRun o v5 (by omega) h with h | ⟨rfl, ts, Y, k1, k2, k3, k4⟩
          · exact .inl h
          · refine .inr ⟨rfl, t :: ts, Y, by simpa using ⟨v1, k1⟩, by simp only [countAll]; omega, ?_, ?_⟩
            · simp only [tokenBytes, emitAll_append, ho, ok_bind, k3]
            · rw [decisions_cons]; exact answers_append v4 k4
        · next e1 he =>
          simp only [Except.error.injEq] at h
          subst h
          obtain rfl := emitAll_error _ _ _ _ he
          exact .inr ⟨rfl, [t], x1.view, by simpa using v1, by simp [countAll, v3], by simpa [tokenBytes] using he,
            by simpa [decisions_cons, decisions] using v4⟩

/-- Tokens whose decisions the decoder answers are decoded, and written through `emit` (R249). -/
theorem answers_tokensGo (cap : Option Nat) (ts : List Token) (fuel room : Nat) (x : Dec) (prev : Bool)
    (out : List Byte) (Z : Decoder) (es : List (Ctx × Bool)) (hx : x.Ready) (hv : ∀ t ∈ ts, t.Valid)
    (hc : countAll ts ≤ room) (hf : room ≤ fuel) (h : Answers x.view (decisions prev ts ++ es) Z) :
    ∃ y prev' fuel', y.Ready ∧ Answers y.view es Z ∧ room - countAll ts ≤ fuel' ∧
      decodeTokensGo cap fuel x prev room out =
        emitAll cap out (tokenBytes ts) >>= decodeTokensGo cap fuel' y prev' (room - countAll ts) := by
  induction ts generalizing fuel room x prev out with
  | nil => exact ⟨x, prev, fuel, hx, h, by omega, rfl⟩
  | cons t ts ih =>
    simp only [countAll] at hc
    have ht := hv t (by simp)
    have hsmall : t.Codable := by cases t <;> simp_all [Token.Codable, Token.Valid]
    have hcount : 1 ≤ t.count := by cases t <;> simp_all [Token.count, Token.Valid]
    rw [decisions_cons, List.append_assoc] at h
    obtain ⟨y, a1, a2, -, a4⟩ := answers_decodeToken x Z hx prev room t _ hsmall hcount h
    have hno : ¬Refused room t := by
      rintro (rfl | ⟨k, rfl, hk⟩)
      · simp [Token.Valid] at ht
      · simp [Token.count] at hc; omega
    obtain ⟨fuel, rfl⟩ : ∃ f, fuel = f + 1 := ⟨fuel - 1, by omega⟩
    have key : ∀ o, ∃ y' prev' fuel', y'.Ready ∧ Answers y'.view es Z ∧ room - t.count - countAll ts ≤ fuel' ∧
      decodeTokensGo cap fuel y t.isRun (room - t.count) o =
        emitAll cap o (tokenBytes ts) >>= decodeTokensGo cap fuel' y' prev' (room - t.count - countAll ts) := fun o =>
      ih fuel (room - t.count) y t.isRun o a1 (fun u hu => hv u (by simp [hu])) (by omega) (by omega) a2
    simp only [decodeTokensGo, show room ≠ 0 by omega, if_false, a4 hno, tokenBytes, emitAll_append, countAll]
    cases ho : emitAll cap out t.bytes with
    | error e =>
      obtain ⟨y', p', f', b1, b2, b3, -⟩ := key []
      exact ⟨y', p', f', b1, b2, by omega, rfl⟩
    | ok o =>
      obtain ⟨y', p', f', b1, b2, b3, b4⟩ := key o
      rw [Nat.sub_sub] at b4
      exact ⟨y', p', f', b1, b2, by omega, by simpa only [ok_bind] using b4⟩

/-- `decoder_init()` on a payload of at least five bytes (R246). -/
theorem init_five (a b c d e : Byte) (r : List Byte) :
    Dec.init (a :: b :: c :: d :: e :: r) =
      if a ≠ 0 then .error .corruptStream
      else if 0xFFFFFFFF ≤ b.toNat * 2 ^ 24 + c.toNat * 2 ^ 16 + d.toNat * 2 ^ 8 + e.toNat then .error .corruptStream
      else .ok ⟨0xFFFFFFFF, b.toNat * 2 ^ 24 + c.toNat * 2 ^ 16 + d.toNat * 2 ^ 8 + e.toNat, r, []⟩ := by
  have hb := b.isLt; have hc := c.isLt; have hd := d.isLt; have he := e.isLt
  have hv : ((((0 * 256 + b.toNat) % 2 ^ 32 * 256 + c.toNat) % 2 ^ 32 * 256 + d.toNat) % 2 ^ 32 * 256 + e.toNat) %
      2 ^ 32 = b.toNat * 2 ^ 24 + c.toNat * 2 ^ 16 + d.toNat * 2 ^ 8 + e.toNat := by omega
  simp only [Dec.init, shiftInTimes, Dec.shiftIn, hv]

/-- `decoder_init()` raises CorruptStream, and nothing else (R246). -/
theorem init_error (p : List Byte) (e : Err) (h : Dec.init p = .error e) : e = .corruptStream := by
  rcases p with _ | ⟨a, _ | ⟨b, _ | ⟨c, _ | ⟨d, _ | ⟨e, r⟩⟩⟩⟩⟩
  case cons.cons.cons.cons.cons =>
    rw [init_five] at h
    split at h
    · simp_all
    · split at h <;> simp_all
  all_goals simp only [Dec.init, shiftInTimes, Dec.shiftIn] at h
  all_goals first | (split at h <;> simp_all) | simp_all

theorem init_starts (p : List Byte) (x : Dec) (h : Dec.init p = .ok x) : Starts p x.view ∧ x.Ready := by
  rcases p with _ | ⟨a, _ | ⟨b, _ | ⟨c, _ | ⟨d, _ | ⟨e, r⟩⟩⟩⟩⟩
  case cons.cons.cons.cons.cons =>
    rw [init_five] at h
    split at h
    · simp at h
    · next ha =>
      split at h
      · simp at h
      · next h1 =>
        simp only [Except.ok.injEq] at h
        subst h
        exact ⟨⟨b, c, d, e, r, by simpa using ha, rfl, by simp only [Dec.view]; omega⟩,
          by simp only; omega, fun c => by simp [Cells.get, rcPInit]⟩
  all_goals simp only [Dec.init, shiftInTimes, Dec.shiftIn] at h
  all_goals first | (split at h <;> simp_all) | simp_all

theorem starts_init (p : List Byte) (X : Decoder) (h : Starts p X) :
    ∃ x, Dec.init p = .ok x ∧ x.view = X ∧ x.Ready := by
  obtain ⟨b, c, d, e, r, rfl, rfl, hlt⟩ := h
  simp only at hlt
  refine ⟨⟨0xFFFFFFFF, b.toNat * 2 ^ 24 + c.toNat * 2 ^ 16 + d.toNat * 2 ^ 8 + e.toNat, r, []⟩, ?_, rfl,
    by simp only; omega, fun c => by simp [Cells.get, rcPInit]⟩
  rw [init_five, if_neg (by decide), if_neg (by omega)]

theorem tokensOk_iff (ts : List Token) : TokensOk ts ↔ ∀ t ∈ ts, t.Valid := by
  constructor <;> intro h t ht <;> have := h t ht <;> cases t <;> simpa [Token.Valid] using this

/-- What the decoder returns, into any destination (R249). -/
theorem rcDecode_decodes (cap : Option Nat) (p : List Byte) (m : Nat) (hm : m < 2 ^ 32) (out : List Byte)
    (h : rcDecode cap p m = .ok out) : ∃ ts, Decodes p m ts ∧ emitAll cap [] (tokenBytes ts) = .ok out := by
  simp only [rcDecode] at h
  split at h
  · simp at h
  · next x hx =>
    obtain ⟨h1, h2⟩ := init_starts p x hx
    split at h
    · simp at h
    · next o y ho =>
      split at h
      · next hr =>
        simp only [Except.ok.injEq] at h
        subst h
        obtain ⟨ts, k1, k2, k3, k4⟩ := tokensGo_answers cap m m x y false [] o h2 le_rfl hm ho
        exact ⟨ts, ⟨(tokensOk_iff ts).2 k1, by rw [expand_length, k2], x.view, y.view, h1, k4, hr⟩, k3⟩
      · simp at h

/-- A payload that decodes is decoded, into any destination (R249). -/
theorem decodes_rcDecode (cap : Option Nat) (p : List Byte) (m : Nat) (ts : List Token) (h : Decodes p m ts) :
    rcDecode cap p m = emitAll cap [] (tokenBytes ts) := by
  obtain ⟨h1, h2, X, Y, h3, h4, h5⟩ := h
  obtain ⟨x, k1, rfl, k3⟩ := starts_init p X h3
  obtain ⟨y, p', f', b1, b2, b3, b4⟩ := answers_tokensGo cap ts m m x false [] Y [] k3 ((tokensOk_iff ts).1 h1)
    (by rw [← expand_length]; omega) le_rfl (by simpa using h4)
  cases b2
  simp only [Dec.view] at h5
  rw [← expand_length, h2, Nat.sub_self] at b4
  have hz : ∀ o, decodeTokensGo cap f' y p' 0 o = .ok (o, y) := by intro o; cases f' <;> simp [decodeTokensGo]
  simp only [rcDecode, k1, b4]
  cases emitAll cap [] (tokenBytes ts) with
  | error e => rfl
  | ok o => simp only [ok_bind, hz, h5, if_true]

/-- Tokens decoded so far that do not fit raise CapacityExceeded (R249, R251). -/
theorem hasDecoded_overflow (c : Nat) (p : List Byte) (m : Nat) (ts : List Token) (h : HasDecoded p m ts)
    (hc : c < (tokenBytes ts).length) : rcDecode (some c) p m = .error .capacityExceeded := by
  obtain ⟨h1, h2, r, X, Y, h3, h4, -⟩ := h
  obtain ⟨x, k1, rfl, k3⟩ := starts_init p X h3
  obtain ⟨y, p', f', -, -, -, b4⟩ := answers_tokensGo (some c) ts m m x false [] Y [] k3 ((tokensOk_iff ts).1 h1)
    (by rw [← expand_length]; omega) le_rfl (by simpa using h4)
  rw [emitAll_capped c [] _ (by simp), if_neg (by simp; omega)] at b4
  simp only [rcDecode, k1, b4]
  rfl

/-- Why the decoder raises (R246, R249, R251). -/
theorem rcDecode_error (c : Nat) (p : List Byte) (m : Nat) (hm : m < 2 ^ 32) (e : Err)
    (h : rcDecode (some c) p m = .error e) :
    e = .corruptStream ∨
      (e = .capacityExceeded ∧ ∃ ts, HasDecoded p m ts ∧ c < (tokenBytes ts).length) := by
  simp only [rcDecode] at h
  split at h
  · next x hx =>
    simp only [Except.error.injEq] at h
    exact .inl (h ▸ init_error p _ hx)
  · next x hx =>
    obtain ⟨h1, h2⟩ := init_starts p x hx
    split at h
    · next e' he =>
      simp only [Except.error.injEq] at h
      subst h
      rcases tokensGo_error (some c) m m x false [] _ h2 hm he with h | ⟨rfl, ts, Y, k1, k2, k3, k4⟩
      · exact .inl h
      · refine .inr ⟨rfl, ts, ⟨(tokensOk_iff ts).2 k1, by rwa [expand_length], _, _, Y, h1, k4, rfl⟩, ?_⟩
        rw [emitAll_capped c [] _ (by simp)] at k3
        by_contra hlt
        simp at hlt
        simp [hlt] at k3
    · split at h
      · simp at h
      · simp only [Except.error.injEq] at h
        exact .inl h.symm

end Sys2Proof.Machine
end

