-- ==== Sys2Proof/Laws/Step.lean ====
section
/-! SUPPORT. Everything a step can do, said once: whose turn it is, what the engine's turn does, and what each action of
the host does. -/

namespace Sys2Proof.Machine

/-- When a fetch succeeds (40_sequencer.md R132). -/
theorem fetchable_iff (s : State) :
    s.fetchable = true ↔ s.cmdPtr.toNat % 4 = 0 ∧ s.cmdPtr.toNat + 32 ≤ s.bufSize.toNat := by
  unfold State.fetchable
  rw [Bool.and_eq_true, beq_iff_eq, decide_eq_true_eq]
  exact Iff.rfl

/-- A step that goes on takes the host's next action, or the engine's turn when the host has none. -/
theorem step_cases (s t : State) (h : step s = .next t) :
    (s.host = [] ∧ engineTurn s = .next t) ∨
      ∃ a rest, s.host = a :: rest ∧ hostTurn a { s with host := rest } = .next t := by
  unfold step turn at h
  split at h
  · next hh => exact .inl ⟨hh, h⟩
  · next a rest hh => exact .inr ⟨a, rest, hh, h⟩

/-- The engine's turn always goes on: nothing while idle, an unspecified cycle in an affected run, otherwise a fetch error,
an illegal descriptor, or the command at the pc. -/
theorem engineTurn_cases (s t : State) (h : engineTurn s = .next t) :
    (s.busy = false ∧ t = s) ∨
    (s.busy = true ∧ s.affectedRun = true ∧ t = s.openCycle) ∨
    (s.busy = true ∧ s.affectedRun = false ∧
      ((s.fetchable = false ∧ t = s.fail .addressError fetchErrOp) ∨
        (s.fetchable = true ∧ ∃ e, decodeDesc s.fetchDesc = .error e ∧
          t = s.latch.fail .illegalCommand s.fetchDesc.opcode) ∨
        (s.fetchable = true ∧ ∃ i, decodeDesc s.fetchDesc = .ok i ∧
          exec i (s.noteRun i).latch = .next t))) := by
  unfold engineTurn at h
  cases hb : s.busy
  · have ha : s.affectedRun = false := by simp [State.affectedRun, hb]
    simp only [ha, hb, Bool.false_eq_true, if_false, Host.Outcome.next.injEq] at h
    exact .inl ⟨rfl, h.symm⟩
  cases ha : s.affectedRun
  · simp only [ha, hb, Bool.false_eq_true, if_false, if_true, cycle] at h
    refine .inr (.inr ⟨rfl, rfl, ?_⟩)
    cases hf : s.fetchable
    · simp only [hf, Bool.false_eq_true, if_false, Host.Outcome.next.injEq] at h
      exact .inl ⟨rfl, h.symm⟩
    · simp only [hf, if_true] at h
      have hd : s.latch.d = s.fetchDesc := rfl
      rw [hd] at h
      cases hi : decodeDesc s.fetchDesc with
      | ok i =>
        simp only [hi] at h
        exact .inr (.inr ⟨rfl, i, rfl, h⟩)
      | error e =>
        simp only [hi, Host.Outcome.next.injEq] at h
        exact .inr (.inl ⟨rfl, e, rfl, h.symm⟩)
  · simp only [ha, if_true, Host.Outcome.next.injEq] at h
    exact .inr (.inl ⟨rfl, rfl, h.symm⟩)

/-- What each action of the host does when the machine goes on. -/
theorem hostTurn_cases (a : HostAction) (s t : State) (h : hostTurn a s = .next t) :
    (a = .engineTurn ∧ engineTurn s = .next t) ∨
    (∃ o v, a = .writeReg o 4 v ∧ o < 256 ∧ o % 4 = 0 ∧ t = s.writeReg o v) ∨
    (∃ o, a = .readReg o 4 ∧ o < 256 ∧ o % 4 = 0 ∧
      t = { s with hostData := s.readReg o, synced := s.observe o }) ∨
    (∃ x bs, a = .writeBuf x bs ∧ x + bs.length ≤ s.size ∧
      ((s.busy = true ∧ (s.writeDuringRun x bs).affectedRun = false ∧ t = s.writeDuringRun x bs) ∨
        (s.busy = true ∧ (s.writeDuringRun x bs).affectedRun = true ∧ t = (s.writeDuringRun x bs).openResults) ∨
        (s.busy = false ∧ t = { s with mem := s.mem.write x bs }))) ∨
    (∃ x, a = .readBuf x ∧ x < s.size ∧
      ((s.unsettled x = true ∧
          t = { s with hostData := (Config.freeByte s.draws).setWidth 32, draws := s.draws + 1 }) ∨
        (s.unsettled x = false ∧ t = { s with hostData := (s.mem.byte x).setWidth 32 }))) ∨
    (a = .sampleIrq ∧
      t = { s with hostData := (BitVec.ofBool s.irq).setWidth 32, synced := s.synced || s.irq }) ∨
    (a = .hardReset ∧ t = s.hardReset) := by
  have hacc : ∀ o w, accessRefusal o w = none → o < 256 ∧ w = 4 ∧ o % 4 = 0 := by
    intro o w ho
    unfold accessRefusal at ho
    split at ho
    · simp at ho
    · split at ho
      · simp at ho
      · omega
  cases a with
  | engineTurn => exact .inl ⟨rfl, h⟩
  | writeReg o w v =>
    simp only [hostTurn, hostWriteReg] at h
    split at h
    · simp at h
    · next ha =>
      obtain ⟨h1, rfl, h2⟩ := hacc o w ha
      exact .inr (.inl ⟨o, v, rfl, h1, h2, by simpa using h.symm⟩)
  | readReg o w =>
    simp only [hostTurn, hostReadReg] at h
    split at h
    · simp at h
    · next ha =>
      obtain ⟨h1, rfl, h2⟩ := hacc o w ha
      exact .inr (.inr (.inl ⟨o, rfl, h1, h2, by simpa using h.symm⟩))
  | writeBuf x bs =>
    simp only [hostTurn, hostWriteBuf] at h
    refine .inr (.inr (.inr (.inl ⟨x, bs, rfl, ?_⟩)))
    split at h
    · simp at h
    · next hs =>
      refine ⟨by omega, ?_⟩
      split at h
      · next hb =>
        cases ha : (s.writeDuringRun x bs).affectedRun
        · exact .inl ⟨hb, rfl, by simpa [ha] using h.symm⟩
        · exact .inr (.inl ⟨hb, rfl, by simpa [ha] using h.symm⟩)
      · next hb => exact .inr (.inr ⟨by simpa using hb, by simpa using h.symm⟩)
  | readBuf x =>
    simp only [hostTurn, hostReadBuf] at h
    refine .inr (.inr (.inr (.inr (.inl ⟨x, rfl, ?_⟩))))
    split at h
    · simp at h
    · next hs =>
      refine ⟨by omega, ?_⟩
      split at h
      · next hu => exact .inl ⟨hu, by simpa using h.symm⟩
      · next hu => exact .inr ⟨by simpa using hu, by simpa using h.symm⟩
  | sampleIrq =>
    exact .inr (.inr (.inr (.inr (.inr (.inl ⟨rfl, by simpa [hostTurn, hostSampleIrq] using h.symm⟩)))))
  | hardReset =>
    exact .inr (.inr (.inr (.inr (.inr (.inr ⟨rfl, by simpa [hostTurn, hostReset] using h.symm⟩)))))

end Sys2Proof.Machine
end

