-- ==== Sys2Proof/Tests/Slice0.lean ====
section
/-! SUPPORT. Tests and witnesses. Expected values come from the spec: 95_test_vectors.md and the examples of the rules
each test names. A witness shows a concrete state and operands that meet all hypotheses of one statement. -/

namespace Sys2Proof.Tests

set_option Elab.async false

open Sys2Proof.Machine Sys2Proof.Claims

/-! ### Helpers -/

/-- `"banana"`. -/
def banana : List Byte := [0x62, 0x61, 0x6E, 0x61, 0x6E, 0x61]

/-- The Encoded Block of `"banana"` (46_codec.md R273). -/
def bananaBlock : List Byte :=
  [0x42, 0x53, 0x43, 0x01, 0x00, 0x00, 0x00, 0x00, 0x06, 0x00, 0x00, 0x00, 0x06, 0x00, 0x00, 0x00, 0x03, 0x00, 0x00,
    0x00, 0xCF, 0x67, 0x8B, 0x03, 0x09, 0x00, 0x00, 0x00] ++ [0x00, 0xC8, 0xBD, 0x96, 0xBA, 0x20, 0x2A, 0x2C, 0xC0]

/-- The token stream of `"banana"` (95_test_vectors.md L1.1). -/
def bananaTokens : List Byte := [0x6E, 0x00, 0x01, 0x00, 0x00, 0x00, 0x63, 0x63, 0x00, 0x02, 0x00, 0x00, 0x00]

/-- The machine of the vectors with BUSY = 1: a command at 0, bytes at 0x200. -/
def ready (i : Instr) (data : List Byte) : State :=
  { State.reset with busy := true, mem := cellsAt 0 (encode i) ++ cellsAt 0x200 data }

/-- A source of `n` bytes at 0x200. -/
def src (n : Word) : Span := ⟨0x200, n⟩

/-- A destination of capacity `n` at 0x400. -/
def dst (n : Word) : Span := ⟨0x400, n⟩

/-- What one step of `ready` gives: RESULT0, RESULT1, CMD_PTR, STATUS, and the first bytes at 0x400. -/
def result (i : Instr) (data : List Byte) (n : Nat) : Option (Word × Word × Word × Word × List Byte) :=
  match step (ready i data) with
  | .next t => some (t.result0, t.result1, t.cmdPtr, t.statusWord, t.mem.read 0x400 n)
  | .fault _ => none
  | .refused _ => none

/-- STATUS and ERR_ADDR after one step of `ready`. -/
def status (i : Instr) (data : List Byte) : Option (Word × Word) :=
  match step (ready i data) with
  | .next t => some (t.statusWord, t.errAddr)
  | .fault _ => none
  | .refused _ => none

/-- STATUS after one step of a running machine whose memory holds word 0 `w0` and zeros after it at 0. -/
def statusOfWord (w0 : Nat) : Option Word :=
  match step { State.reset with busy := true, mem := cellsAt 0 (tableBytes 32 w0) } with
  | .next t => some t.statusWord
  | .fault _ => none
  | .refused _ => none

/-! ### Well-formedness: ill-formed descriptors are refused -/

/-- RSVD is not 0: MTF_ENC with RSVD = 1 (95_test_vectors.md L2.1). -/
theorem test_smoke_rsvd : { Desc.blank 0x20 with rsvd := 1 }.wellFormed = false := by decide

/-- A flag SORT does not define (L2.1). -/
theorem test_smoke_flag : { Desc.blank 0x10 with flags := 1 }.wellFormed = false := by decide

/-- A flag COMPRESS does not define (L2.1). -/
theorem test_smoke_flag_bit1 : { Desc.blank 0x41 with flags := 2 }.wellFormed = false := by decide

/-- An unassigned opcode (L2.1). -/
theorem test_smoke_opcode : (Desc.blank 0x12).wellFormed = false := by decide

/-- A legal descriptor passes. -/
theorem test_smoke_legal : { Desc.blank 0x18 with flags := 1 }.wellFormed = true := by decide

/-! ### Decoding words written out from 30_encoding.md R91 to R95 -/

theorem test_decode_sequencer :
    decodeTableWord 32 0x00000000 = some .nop ∧ decodeTableWord 32 0x00000001 = some .halt ∧
      decodeTableWord 32 0x00000002 = some (.jump 0) := by decide +kernel

theorem test_decode_sorter :
    decodeTableWord 32 0x00000010 = some (.sort ⟨0, 0⟩ ⟨0, 0⟩) ∧
      decodeTableWord 32 0x00000011 = some (.saCheck ⟨0, 0⟩ 0) := by decide +kernel

theorem test_decode_bwt :
    decodeTableWord 32 0x00000018 = some (.bwtFwd false ⟨0, 0⟩ ⟨0, 0⟩ 0) ∧
      decodeTableWord 32 0x00000118 = some (.bwtFwd true ⟨0, 0⟩ ⟨0, 0⟩ 0) ∧
      decodeTableWord 32 0x00000019 = some (.bwtInv ⟨0, 0⟩ ⟨0, 0⟩ 0) := by decide +kernel

theorem test_decode_rank_run :
    decodeTableWord 32 0x00000020 = some (.mtfEnc ⟨0, 0⟩ ⟨0, 0⟩) ∧
      decodeTableWord 32 0x00000021 = some (.mtfDec ⟨0, 0⟩ ⟨0, 0⟩) ∧
      decodeTableWord 32 0x00000022 = some (.rleEnc ⟨0, 0⟩ ⟨0, 0⟩) ∧
      decodeTableWord 32 0x00000023 = some (.rleDec ⟨0, 0⟩ ⟨0, 0⟩) := by decide +kernel

theorem test_decode_prefilter :
    decodeTableWord 32 0x00000030 = some (.fltEnc ⟨0, 0⟩ ⟨0, 0⟩) ∧
      decodeTableWord 32 0x00000031 = some (.fltDec ⟨0, 0⟩ ⟨0, 0⟩ 0) := by decide +kernel

theorem test_decode_entropy :
    decodeTableWord 32 0x00000038 = some (.rcEnc ⟨0, 0⟩ ⟨0, 0⟩) ∧
      decodeTableWord 32 0x00000039 = some (.rcDec ⟨0, 0⟩ ⟨0, 0⟩ 0) := by decide +kernel

theorem test_decode_codec :
    decodeTableWord 32 0x00000040 = some (.crc32 ⟨0, 0⟩) ∧
      decodeTableWord 32 0x00000041 = some (.compress false ⟨0, 0⟩ ⟨0, 0⟩) ∧
      decodeTableWord 32 0x00000141 = some (.compress true ⟨0, 0⟩ ⟨0, 0⟩) ∧
      decodeTableWord 32 0x00000042 = some (.decompress ⟨0, 0⟩ ⟨0, 0⟩) := by decide +kernel

/-- All eight words, little-endian, in a descriptor written out byte by byte (R90 to R93). -/
theorem test_decode_words :
    decode ([0x18, 0x00, 0x00, 0x00, 0x04, 0x03, 0x02, 0x01] ++ [0x14, 0x13, 0x12, 0x11, 0x24, 0x23, 0x22, 0x21] ++
      [0x34, 0x33, 0x32, 0x31, 0x44, 0x43, 0x42, 0x41] ++ [0x54, 0x53, 0x52, 0x51, 0x64, 0x63, 0x62, 0x61]) =
      .ok (.bwtFwd false ⟨0x01020304, 0x11121314⟩ ⟨0x21222324, 0x31323334⟩ 0x41424344) := by decide +kernel

theorem test_decode_param0 :
    decode ([0x31, 0x00, 0x00, 0x00, 0x04, 0x03, 0x02, 0x01] ++ [0x14, 0x13, 0x12, 0x11, 0x24, 0x23, 0x22, 0x21] ++
      [0x34, 0x33, 0x32, 0x31, 0x44, 0x43, 0x42, 0x41] ++ [0x54, 0x53, 0x52, 0x51, 0x64, 0x63, 0x62, 0x61]) =
      .ok (.fltDec ⟨0x01020304, 0x11121314⟩ ⟨0x21222324, 0x31323334⟩ 0x51525354) := by decide +kernel

/-- Rejections by name (R96). -/
theorem test_decode_rejects :
    decode (tableBytes 32 0x00010020) = .error .reservedNonzero ∧
      decode (tableBytes 32 0x00000110) = .error .undefinedFlag ∧
      decode (tableBytes 32 0x00000012) = .error .unassignedOpcode ∧ decode [] = .error .tooShort := by decide +kernel

/-! ### One step of each command -/

/-- 40_sequencer.md R135: NOP at 0 leaves CMD_PTR = 0x20. -/
theorem test_nop : result .nop [] 0 = some (0, 0, 0x20, 0x1, []) := by decide +kernel

/-- R136: HALT ends with STATUS = 2 and CMD_PTR past it. -/
theorem test_halt : result .halt [] 0 = some (0, 0, 0x20, 0x2, []) := by decide +kernel

/-- R137: JUMP takes a misaligned target without an error of its own. -/
theorem test_jump : result (.jump 0x2) [] 0 = some (0, 0, 0x2, 0x1, []) := by decide +kernel

/-- 95_test_vectors.md L2.1: illegal descriptors, and the all-ones descriptor is no fetch error. -/
theorem test_illegal :
    statusOfWord 0x00010020 = some 0x00201004 ∧ statusOfWord 0x00000110 = some 0x00101004 ∧
      statusOfWord 0x00000241 = some 0x00411004 ∧ statusOfWord 0xFFFFFFFF = some 0x00FF1004 := by decide +kernel

/-- L2.1: a fetch at 0xFE4 leaves the buffer. -/
theorem test_fetch_error :
    (match step { State.reset with busy := true, cmdPtr := 0xFE4 } with
      | .next t => some (t.statusWord, t.cmdPtr, t.errAddr)
      | .fault _ => none
      | .refused _ => none) = some (0x00FF1104, 0xFE4, 0xFE4) := by decide +kernel

/-- L2.2: SORT of `"banana"`. -/
theorem test_sort : result (.sort (src 6) (dst 24)) banana 24 =
    some (24, 0, 0x20, 0x1, [5, 0, 0, 0, 3, 0, 0, 0, 1, 0, 0, 0, 0, 0, 0, 0, 4, 0, 0, 0, 2, 0, 0, 0]) := by
  decide +kernel

/-- L2.2: the overlap check comes before the capacity check, and capacity 23 is too small. -/
theorem test_sort_errors :
    status (.sort (src 6) ⟨0x204, 16⟩) banana = some (0x00100104, 0) ∧
      status (.sort (src 6) (dst 23)) banana = some (0x00100404, 0) := by decide +kernel

/-- L2.2: SA_CHECK accepts the order of `"banana"`. -/
theorem test_sa_check : result (.saCheck (src 6) 0x208) (banana ++ [0, 0] ++ arrayBytes [5, 3, 1, 0, 4, 2]) 0 =
    some (0, 0, 0x20, 0x1, []) := by decide +kernel

/-- L2.2: SA_CHECK rejects two swapped rotations. -/
theorem test_sa_check_rejects :
    status (.saCheck (src 6) 0x208) (banana ++ [0, 0] ++ arrayBytes [3, 5, 1, 0, 4, 2]) =
      some (0x00110304, 0) := by decide +kernel

/-- L2.3: BWT_FWD.IS of `"banana"`. -/
theorem test_bwt_fwd : result (.bwtFwd true (src 6) (dst 6) 0x302) banana 6 =
    some (6, 3, 0x20, 0x1, [0x6E, 0x6E, 0x62, 0x61, 0x61, 0x61]) := by decide +kernel

/-- L2.3: BWT_FWD from an array, with the last entry out of range. -/
theorem test_bwt_fwd_array :
    result (.bwtFwd false (src 6) (dst 6) 0x208) (banana ++ [0, 0] ++ arrayBytes [5, 3, 1, 0, 4, 2]) 6 =
        some (6, 3, 0x20, 0x1, [0x6E, 0x6E, 0x62, 0x61, 0x61, 0x61]) ∧
      status (.bwtFwd false (src 6) (dst 6) 0x208) (banana ++ [0, 0] ++ arrayBytes [5, 3, 1, 0, 4, 6]) =
        some (0x00180104, 0) := by decide +kernel

/-- L2.3: BWT_INV of `"nnbaaa"`. -/
theorem test_bwt_inv : result (.bwtInv (src 6) (dst 6) 3) [0x6E, 0x6E, 0x62, 0x61, 0x61, 0x61] 6 =
    some (6, 0, 0x20, 0x1, banana) := by decide +kernel

/-- L2.3: a primary index equal to `n`. -/
theorem test_bwt_inv_primary :
    status (.bwtInv (src 6) (dst 6) 6) [0x6E, 0x6E, 0x62, 0x61, 0x61, 0x61] = some (0x00190104, 0) := by
  decide +kernel

/-- L2.4: MTF_ENC of `"nnbaaa"`. -/
theorem test_mtf_enc : result (.mtfEnc (src 6) (dst 6)) [0x6E, 0x6E, 0x62, 0x61, 0x61, 0x61] 6 =
    some (6, 0, 0x20, 0x1, [0x6E, 0x00, 0x63, 0x63, 0x00, 0x00]) := by decide +kernel

/-- L2.4: MTF_DEC of its ranks. -/
theorem test_mtf_dec : result (.mtfDec (src 6) (dst 6)) [0x6E, 0x00, 0x63, 0x63, 0x00, 0x00] 6 =
    some (6, 0, 0x20, 0x1, [0x6E, 0x6E, 0x62, 0x61, 0x61, 0x61]) := by decide +kernel

/-- L2.4: RLE_ENC of seven zeros, 3, 0, 2. -/
theorem test_rle_enc : result (.rleEnc (src 10) (dst 32)) [0, 0, 0, 0, 0, 0, 0, 3, 0, 2] 12 =
    some (12, 4, 0x20, 0x1, [0, 7, 0, 0, 0, 3, 0, 1, 0, 0, 0, 2]) := by decide +kernel

/-- L2.4: RLE_ENC into capacity 4. -/
theorem test_rle_enc_capacity :
    status (.rleEnc (src 10) (dst 4)) [0, 0, 0, 0, 0, 0, 0, 3, 0, 2] = some (0x00220404, 0) := by decide +kernel

/-- L2.4: RLE_DEC of adjacent runs. -/
theorem test_rle_dec : result (.rleDec (src 10) (dst 16)) [0, 1, 0, 0, 0, 0, 1, 0, 0, 0] 2 =
    some (2, 0, 0x20, 0x1, [0, 0]) := by decide +kernel

/-- L2.4: a truncated run token after `01`. -/
theorem test_rle_dec_truncated :
    status (.rleDec (src 3) (dst 16)) [1, 0, 0] = some (0x00230304, 0) := by decide +kernel

/-- L2.5: FLT_ENC of `"abcdabcdabcdabcd"`. -/
theorem test_flt_enc :
    result (.fltEnc (src 16) (dst 16))
      [0x61, 0x62, 0x63, 0x64, 0x61, 0x62, 0x63, 0x64, 0x61, 0x62, 0x63, 0x64, 0x61, 0x62, 0x63, 0x64] 10 =
      some (10, 0, 0x20, 0x1, [0x61, 0x62, 0x63, 0x64, 0x61, 0x62, 0x63, 0x64, 0xFE, 0x06]) := by decide +kernel

/-- L2.5: five escape bytes do not fit 9 bytes. -/
theorem test_flt_enc_capacity :
    status (.fltEnc (src 5) (dst 9)) [0xFE, 0xFE, 0xFE, 0xFE, 0xFE] = some (0x00300404, 0) := by decide +kernel

/-- L2.5: FLT_DEC of the ten bytes. -/
theorem test_flt_dec :
    result (.fltDec (src 10) (dst 16) 16) [0x61, 0x62, 0x63, 0x64, 0x61, 0x62, 0x63, 0x64, 0xFE, 0x06] 16 =
      some (16, 0, 0x20, 0x1,
        [0x61, 0x62, 0x63, 0x64, 0x61, 0x62, 0x63, 0x64, 0x61, 0x62, 0x63, 0x64, 0x61, 0x62, 0x63, 0x64]) := by
  decide +kernel

/-- 44_prefilter.md R225: escape at the end, match without a prediction, output short, input left over. -/
theorem test_flt_dec_corrupt :
    fltDecode [0xFE] 1 = .error .corruptStream ∧ fltDecode [0xFE, 0x05] 3 = .error .corruptStream ∧
      fltDecode [0x61] 2 = .error .corruptStream ∧ fltDecode [0x61, 0x62] 1 = .error .corruptStream := by
  decide +kernel

/-- L2.6: RC_ENC of the tokens of `"banana"`. -/
theorem test_rc_enc : result (.rcEnc (src 13) (dst 16)) bananaTokens 9 =
    some (9, 6, 0x20, 0x1, [0x00, 0xC8, 0xBD, 0x96, 0xBA, 0x20, 0x2A, 0x2C, 0xC0]) := by decide +kernel

/-- L2.6: RC_DEC of a run of ten. -/
theorem test_rc_dec : result (.rcDec (src 6) (dst 16) 10) [0x00, 0x72, 0x7F, 0xF8, 0x00, 0x00] 5 =
    some (5, 6, 0x20, 0x1, [0x00, 0x0A, 0x00, 0x00, 0x00]) := by decide +kernel

/-- 45_entropy.md R251: `code >= range` at the start. -/
theorem test_rc_dec_corrupt :
    status (.rcDec (src 5) (dst 16) 1) [0x00, 0xFF, 0xFF, 0xFF, 0xFF] = some (0x00390304, 0) := by decide +kernel

/-- 46_codec.md R270: CRC-32 of `"123456789"`. -/
theorem test_crc32 : result (.crc32 (src 9)) [0x31, 0x32, 0x33, 0x34, 0x35, 0x36, 0x37, 0x38, 0x39] 0 =
    some (0, 0xCBF43926, 0x20, 0x1, []) := by decide +kernel

/-- R271: CRC32 accepts length 0. -/
theorem test_crc32_empty : result (.crc32 (src 0)) [] 0 = some (0, 0, 0x20, 0x1, []) := by decide +kernel

/-- R273: COMPRESS of `"banana"`. -/
theorem test_compress : result (.compress true (src 6) (dst 0x100)) banana 37 =
    some (37, 0, 0x20, 0x1, bananaBlock) := by decide +kernel

/-- 95_test_vectors.md L1.2: the empty block. -/
theorem test_compress_empty : status (.compress false (src 0) (dst 0x100)) [] = some (0x00410104, 0) := by
  decide +kernel

/-- R275: DECOMPRESS of it. -/
theorem test_decompress : result (.decompress (src 37) (dst 6)) bananaBlock 6 =
    some (6, 37, 0x20, 0x1, banana) := by decide +kernel

/-- R275: version 2. -/
theorem test_decompress_version :
    status (.decompress (src 37) (dst 6)) (bananaBlock.set 3 0x02) = some (0x00420204, 0) := by decide +kernel

/-! ### Witnesses: encoding -/

/-- Two NOP descriptors that differ in every word NOP ignores. -/
theorem witness_ignored_words :
    let d : Desc := Desc.blank 0x00
    let e : Desc := ⟨0x00, 0, 0, 1, 2, 3, 4, 5, 6, 7⟩
    d ≠ e ∧ d.opcode = e.opcode ∧ d.flags = e.flags ∧ d.rsvd = e.rsvd ∧ usesSrc d.opcode = false ∧
      usesDst d.opcode = false ∧ usesAux d.opcode = false ∧ usesParam0 d.opcode = false := by decide

/-- Two BWT_INV descriptors that use all but AUX_ADDR and PARAM1. -/
theorem witness_ignored_words_used :
    let d : Desc := ⟨0x19, 0, 0, 1, 2, 3, 4, 0, 6, 0⟩
    let e : Desc := ⟨0x19, 0, 0, 1, 2, 3, 4, 5, 6, 7⟩
    d ≠ e ∧ usesSrc d.opcode = true ∧ usesDst d.opcode = true ∧ usesAux d.opcode = false ∧
      usesParam0 d.opcode = true ∧ d.srcAddr = e.srcAddr ∧ d.dstCap = e.dstCap ∧ d.param0 = e.param0 := by decide

/-! ### Witnesses: the command cycle -/

/-- A run the host has written nothing during is not affected. -/
theorem undisturbed (s : State) (h : s.hostWrote = []) (ha : s.affected = false) : s.affectedRun = false := by
  simp [State.affectedRun, State.raced, h, ha]

/-- The engine moves when the host has no action left, and when its next one is a turn for the engine. -/
theorem moves (s : State) (h : s.hostWrote = []) (ha : s.affected = false) (rest : List HostAction)
    (hh : s.host = [] ∨ s.host = .engineTurn :: rest) : EngineMoves s :=
  ⟨hh.imp id fun h => ⟨rest, h⟩, undisturbed s h ha⟩

/-- The engine moves in every state of `ready`, and when the host gives it a turn before it acts. -/
theorem ready_moves (i : Instr) (data : List Byte) (rest : List HostAction) :
    EngineMoves (ready i data) ∧ EngineMoves { ready i data with host := .engineTurn :: rest } :=
  ⟨moves _ rfl rfl [] (.inl rfl), moves _ rfl rfl rest (.inr rfl)⟩

/-- Clause 1 of the command cycle: a misaligned fetch, and the first address past the last descriptor slot. -/
theorem witness_fetch_error :
    let s : State := { State.reset with busy := true, cmdPtr := 0x2 }
    let u : State := { State.reset with busy := true, cmdPtr := 0xFE4 }
    s.busy = true ∧ EngineMoves s ∧ s.cmdPtr.toNat % 4 ≠ 0 ∧
      u.busy = true ∧ EngineMoves u ∧ u.cmdPtr.toNat % 4 = 0 ∧ u.bufSize.toNat < u.cmdPtr.toNat + 32 :=
  ⟨rfl, moves _ rfl rfl [] (.inl rfl), by decide, rfl, moves _ rfl rfl [] (.inl rfl), by decide, by decide⟩

/-- Clause 2: an illegal descriptor in the last slot. -/
theorem witness_illegal :
    let s : State := { State.reset with busy := true, cmdPtr := 0xFE0, mem := cellsAt 0xFE0 (tableBytes 32 0x12) }
    s.busy = true ∧ EngineMoves s ∧ s.cmdPtr.toNat % 4 = 0 ∧ s.cmdPtr.toNat + 32 = s.bufSize.toNat ∧
      decode (s.mem.read s.cmdPtr.toNat 32) = .error .unassignedOpcode ∧
      Illegal (Desc.ofBytes (s.mem.read s.cmdPtr.toNat 32)) := by
  refine ⟨rfl, moves _ rfl rfl [] (.inl rfl), by decide, by decide, by decide +kernel, ?_⟩
  unfold Illegal; decide +kernel

/-- Clause 3: a legal one there. -/
theorem witness_command :
    let s : State := { State.reset with busy := true, cmdPtr := 0xFE0, mem := cellsAt 0xFE0 (encode .halt) }
    s.busy = true ∧ EngineMoves s ∧ s.cmdPtr.toNat % 4 = 0 ∧ s.cmdPtr.toNat + 32 = s.bufSize.toNat ∧
      decode (s.mem.read s.cmdPtr.toNat 32) = .ok .halt ∧
      ¬Illegal (Desc.ofBytes (s.mem.read s.cmdPtr.toNat 32)) := by
  refine ⟨rfl, moves _ rfl rfl [] (.inl rfl), by decide, by decide, by decide +kernel, ?_⟩
  unfold Illegal; decide +kernel

/-- An idle engine whose turn it is. -/
theorem witness_idle : State.reset.busy = false ∧ EngineMoves State.reset :=
  ⟨rfl, moves _ rfl rfl [] (.inl rfl)⟩

/-- What a step gives, as one checkable value: BUSY, DONE, ERR and ERR_ADDR after it. -/
def flagsAfter (s : State) : Option (Bool × Bool × Bool × Word) :=
  match step s with
  | .next t => some (t.busy, t.done, t.err, t.errAddr)
  | .fault _ => none
  | .refused _ => none

/-- A checked value of `flagsAfter` comes from a next state. -/
theorem next_of_flagsAfter (s : State) (f : Bool × Bool × Bool × Word) (h : flagsAfter s = some f) :
    ∃ t, step s = .next t ∧ t.busy = f.1 ∧ t.done = f.2.1 ∧ t.err = f.2.2.1 ∧ t.errAddr = f.2.2.2 := by
  unfold flagsAfter at h
  split at h
  · next t ht =>
    obtain rfl := Option.some.inj h
    exact ⟨t, ht, rfl, rfl, rfl, rfl⟩
  · simp at h
  · simp at h

/-- Four ends of a run: HALT, an error, a soft reset, a hardware reset. -/
theorem witness_run_ends :
    (∃ t, step (ready .halt []) = .next t ∧ t.busy = false) ∧
    (∃ t, step (ready (.sort (src 0) (dst 0)) []) = .next t ∧ t.busy = false) ∧
    (∃ t, step { ready .nop [] with host := [.writeReg 0x04 4 2] } = .next t ∧ t.busy = false) ∧
    ∃ t, step { ready .nop [] with host := [.hardReset] } = .next t ∧ t.busy = false := by
  refine ⟨?_, ?_, ?_, ?_⟩
  · obtain ⟨t, h, hb, -⟩ := next_of_flagsAfter (ready .halt []) (false, true, false, 0) (by decide +kernel)
    exact ⟨t, h, hb⟩
  · obtain ⟨t, h, hb, -⟩ :=
      next_of_flagsAfter (ready (.sort (src 0) (dst 0)) []) (false, false, true, 0) (by decide +kernel)
    exact ⟨t, h, hb⟩
  · obtain ⟨t, h, hb, -⟩ :=
      next_of_flagsAfter { ready .nop [] with host := [.writeReg 0x04 4 2] } (false, false, false, 0) (by decide +kernel)
    exact ⟨t, h, hb⟩
  · obtain ⟨t, h, hb, -⟩ :=
      next_of_flagsAfter { ready .nop [] with host := [.hardReset] } (false, false, false, 0) (by decide +kernel)
    exact ⟨t, h, hb⟩

/-- A step that starts a run. -/
theorem witness_start :
    ∃ t, step { State.reset with host := [.writeReg 0x04 4 1] } = .next t ∧ t.busy = true ∧
      State.reset.busy = false := by
  obtain ⟨t, h, hb, -⟩ :=
    next_of_flagsAfter { State.reset with host := [.writeReg 0x04 4 1] } (true, false, false, 0) (by decide +kernel)
  exact ⟨t, h, hb, rfl⟩

/-- A host that only gives turns to the engine. -/
theorem ready_silent (i : Instr) : HostSilent { ready i [] with host := [.engineTurn, .engineTurn] } :=
  ⟨by simp, undisturbed _ rfl rfl⟩

/-- A JUMP to itself. -/
theorem witness_jump_to_itself :
    let s : State := { ready (.jump 0) [] with host := [.engineTurn, .engineTurn] }
    s.busy = true ∧ HostSilent s ∧ CommandAt s (.jump s.cmdPtr) := by
  refine ⟨rfl, ready_silent _, ?_⟩
  unfold CommandAt; decide +kernel

/-- A JUMP to a misaligned target, and one to the first slot that does not fit. -/
theorem witness_jump_out :
    CommandAt (ready (.jump 0x2) []) (.jump 0x2) ∧ (0x2 : Word).toNat % 4 ≠ 0 ∧
      CommandAt (ready (.jump 0xFE4) []) (.jump 0xFE4) ∧
      (ready (.jump 0xFE4) []).bufSize.toNat < (0xFE4 : Word).toNat + 32 := by
  unfold CommandAt; decide +kernel

/-! ### Witnesses: invariants -/

/-- The reset state, and a running state, meet the invariant; both steps go on. -/
theorem witness_invariant :
    State.reset.Inv ∧ step State.reset = .next State.reset ∧
      ({ State.reset with busy := true, synced := false } : State).Inv := by
  refine ⟨?_, by rfl, ?_⟩ <;> constructor <;>
    simp [State.reset, State.size, State.maxBlock, Config.maxBlockSize, Config.bufSize, Memory.wf, Memory.inside]

/-- An error that moves ERR_ADDR from 5, a reset that clears it, and a NOP that keeps it. -/
theorem witness_err_addr :
    (∃ t, step { ready .nop [] with cmdPtr := 0x22, errAddr := 5 } = .next t ∧ t.errAddr = 0x22) ∧
    (∃ t, step { ready .nop [] with errAddr := 5, host := [.hardReset] } = .next t ∧ t.errAddr = 0) ∧
    ∃ t, step { ready .nop [] with errAddr := 5 } = .next t ∧ t.errAddr = 5 := by
  refine ⟨?_, ?_, ?_⟩
  · obtain ⟨t, h, -, -, -, ha⟩ :=
      next_of_flagsAfter { ready .nop [] with cmdPtr := 0x22, errAddr := 5 } (false, false, true, 0x22)
        (by decide +kernel)
    exact ⟨t, h, ha⟩
  · obtain ⟨t, h, -, -, -, ha⟩ :=
      next_of_flagsAfter { ready .nop [] with errAddr := 5, host := [.hardReset] } (false, false, false, 0)
        (by decide +kernel)
    exact ⟨t, h, ha⟩
  · obtain ⟨t, h, -, -, -, ha⟩ :=
      next_of_flagsAfter { ready .nop [] with errAddr := 5 } (true, false, false, 5) (by decide +kernel)
    exact ⟨t, h, ha⟩

/-! ### Witnesses: every command -/

/-- What `exec` gives, as one checkable value: ERR, ERR_CODE, RESULT0. -/
def execAfter (i : Instr) (s : State) : Option (Bool × Byte × Word) :=
  match exec i s with
  | .next t => some (t.err, t.errCode, t.result0)
  | .fault _ => none
  | .refused _ => none

/-- A checked value of `execAfter` comes from a next state. -/
theorem next_of_execAfter (i : Instr) (s : State) (f : Bool × Byte × Word) (h : execAfter i s = some f) :
    ∃ t, exec i s = .next t ∧ t.err = f.1 ∧ t.errCode = f.2.1 ∧ t.result0 = f.2.2 := by
  unfold execAfter at h
  split at h
  · next t ht =>
    obtain rfl := Option.some.inj h
    exact ⟨t, ht, rfl, rfl, rfl⟩
  · simp at h
  · simp at h

/-- A command that fails. -/
theorem witness_failure :
    (ready .nop []).err = false ∧
      ∃ t, exec (.sort (src 0) (dst 0)) (ready .nop []) = .next t ∧ t.err = true := by
  obtain ⟨t, h, he, -⟩ :=
    next_of_execAfter (.sort (src 0) (dst 0)) (ready .nop []) (true, 0x01, 0) (by decide +kernel)
  exact ⟨rfl, t, h, he⟩

/-- Commands that complete: a control command and a data command. -/
theorem witness_completion :
    (∃ t, exec .nop (ready .nop []) = .next t ∧ t.err = false ∧ IsControl .nop) ∧
    ∃ t, exec (.mtfEnc (src 6) (dst 6)) (ready .nop banana) = .next t ∧ t.err = false ∧ t.result0 = 6 := by
  refine ⟨⟨_, rfl, rfl, .inl rfl⟩, ?_⟩
  obtain ⟨t, h, he, -, hr⟩ :=
    next_of_execAfter (.mtfEnc (src 6) (dst 6)) (ready .nop banana) (false, 0, 6) (by decide +kernel)
  exact ⟨t, h, he, hr⟩

/-- Each check of R139 fails somewhere, at the boundary, and all pass just inside it. -/
theorem witness_checks :
    firstError (.sort (src 0) (dst 24)) (ready .nop []) = some 0x01 ∧
    firstError (.sort (src 0x2000001) (dst 24)) (ready .nop []) = some 0x01 ∧
    firstError (.sort ⟨0xFFB, 6⟩ (dst 24)) (ready .nop []) = some 0x11 ∧
    firstError (.sort (src 6) ⟨0x402, 24⟩) (ready .nop []) = some 0x11 ∧
    firstError (.sort (src 6) ⟨0x204, 24⟩) (ready .nop []) = some 0x01 ∧
    firstError (.sort (src 6) (dst 23)) (ready .nop []) = some 0x04 ∧
    firstError (.sort ⟨0xFFA, 6⟩ ⟨0xFE0, 24⟩) (ready .nop []) = none := by decide +kernel

/-- Two machines that agree on a source and differ elsewhere. -/
theorem witness_same_sources :
    let s := ready .nop banana
    let u := { ready .halt banana with cmdPtr := 0x40, result0 := 9 }
    0x10 ≤ (encodeDesc (.mtfEnc (src 6) (dst 6))).opcode.toNat ∧ s.caps = u.caps ∧ s.bufSize = u.bufSize ∧
      s.mem ≠ u.mem ∧ (∀ x, Within 0x200 6 x → s.mem.byte x = u.mem.byte x) ∧
      readsOrder (.mtfEnc (src 6) (dst 6)) = false ∧
      (∃ t, exec (.mtfEnc (src 6) (dst 6)) s = .next t ∧ t.err = false) ∧
      ∃ v, exec (.mtfEnc (src 6) (dst 6)) u = .next v ∧ v.err = false := by
  intro s u
  have hx : ∀ x, x ∈ List.range' 0x200 6 → s.mem.byte x = u.mem.byte x := by decide +kernel
  refine ⟨by decide, rfl, rfl, by decide +kernel, fun x h => hx x ?_, rfl, ?_, ?_⟩
  · rw [List.mem_range'_1]; exact ⟨h.1, h.2⟩
  · obtain ⟨t, h, he, -⟩ := next_of_execAfter (.mtfEnc (src 6) (dst 6)) s (false, 0, 6) (by decide +kernel)
    exact ⟨t, h, he⟩
  · obtain ⟨t, h, he, -⟩ := next_of_execAfter (.mtfEnc (src 6) (dst 6)) u (false, 0, 6) (by decide +kernel)
    exact ⟨t, h, he⟩

/-- The same for a command that reads a suffix-order array. -/
theorem witness_same_order :
    readsOrder (.saCheck ⟨0x200, 1⟩ 0x204) = true ∧
      ∃ t, exec (.saCheck ⟨0x200, 1⟩ 0x204) (ready .nop [7, 0, 0, 0, 0, 0, 0, 0]) = .next t ∧ t.err = false := by
  obtain ⟨t, h, he, -⟩ :=
    next_of_execAfter (.saCheck ⟨0x200, 1⟩ 0x204) (ready .nop [7, 0, 0, 0, 0, 0, 0, 0]) (false, 0, 0) (by decide +kernel)
  exact ⟨rfl, t, h, he⟩

/-! ### Witnesses: sorter and transform -/

/-- The suffix order of a block of one byte. -/
theorem order_of_one (x : Byte) : IsSuffixOrder [x] [0] := by
  refine ⟨rfl, by simp, by simp, fun i hi => ?_⟩
  simp at hi

theorem witness_sort :
    firstError (.sort (src 6) (dst 24)) (ready .nop banana) = none ∧
      firstError (.sort (src 6) (dst 23)) (ready .nop banana) = some 0x04 := by decide +kernel

/-- SA_CHECK with an array that is the order, and with one that is not. -/
theorem witness_sa_check :
    let i : Instr := .saCheck (src 1) 0x204
    let s := ready i [7, 0, 0, 0, 0, 0, 0, 0]
    let u := ready i [7, 0, 0, 0, 1, 0, 0, 0]
    firstError i s = none ∧ IsSuffixOrder (s.source (src 1)) (orderIn s 0x204 1) ∧
      firstError i u = none ∧ ¬IsSuffixOrder (u.source (src 1)) (orderIn u 0x204 1) := by
  intro i s u
  have h1 : s.source (src 1) = [7] := by decide +kernel
  have h2 : orderIn s 0x204 1 = [0] := by decide +kernel
  have h3 : u.source (src 1) = [7] := by decide +kernel
  have h4 : orderIn u 0x204 1 = [1] := by decide +kernel
  refine ⟨by decide +kernel, ?_, by decide +kernel, ?_⟩
  · rw [h1, h2]; exact order_of_one 7
  · rw [h3, h4]
    intro h
    have := h.2.2.1 1 (by simp)
    simp at this

theorem witness_sa_check_accepts : ([5, 3, 1, 0, 4, 2] : List Nat).length = banana.length := rfl

/-- BWT_FWD with the internal sort; with an array entry equal to `n`; without a 0; and with an array of positions with
a 0. -/
theorem witness_bwt_fwd :
    firstError (.bwtFwd true (src 1) (dst 1) 0x302) (ready .nop [7]) = none ∧
    firstError (.bwtFwd false (src 1) (dst 1) 0x204) (ready .nop [7, 0, 0, 0, 1, 0, 0, 0]) = none ∧
    orderIn (ready .nop [7, 0, 0, 0, 1, 0, 0, 0]) 0x204 1 = [1] ∧
    firstError (.bwtFwd false (src 2) (dst 2) 0x204) (ready .nop [7, 8, 0, 0, 1, 0, 0, 0, 1, 0, 0, 0]) = none ∧
    orderIn (ready .nop [7, 8, 0, 0, 1, 0, 0, 0, 1, 0, 0, 0]) 0x204 2 = [1, 1] ∧
    firstError (.bwtFwd false (src 2) (dst 2) 0x204) (ready .nop [7, 8, 0, 0, 1, 0, 0, 0, 0, 0, 0, 0]) = none ∧
    orderIn (ready .nop [7, 8, 0, 0, 1, 0, 0, 0, 0, 0, 0, 0]) 0x204 2 = [1, 0] ∧
    firstError (.bwtFwd false (src 1) (dst 1) 0x302) (ready .nop [7]) = some 0x11 := by decide +kernel

theorem witness_bwt_inv :
    firstError (.bwtInv (src 6) (dst 6) 5) (ready .nop banana) = none ∧
      firstError (.bwtInv (src 6) (dst 6) 6) (ready .nop banana) = some 0x01 := by decide +kernel

theorem witness_bwt_round_trip : 1 ≤ ([0] : List Byte).length := by decide

/-! ### Witnesses: rank/run stage -/

theorem witness_mtf :
    firstError (.mtfEnc (src 6) (dst 6)) (ready .nop banana) = none ∧
      firstError (.mtfEnc (src 6) (dst 5)) (ready .nop banana) = some 0x04 ∧
      firstError (.mtfDec (src 6) ⟨0x206, 6⟩) (ready .nop banana) = none ∧
      firstError (.mtfDec (src 6) ⟨0x205, 6⟩) (ready .nop banana) = some 0x01 := by decide +kernel

/-- A block whose token stream has 5 bytes, with capacity 5 and with capacity 4. -/
theorem witness_rle_enc :
    firstError (.rleEnc (src 3) (dst 5)) (ready .nop [0, 0, 0]) = none ∧
      firstError (.rleEnc (src 3) (dst 4)) (ready .nop [0, 0, 0]) = none ∧
      (ready .nop [0, 0, 0]).source (src 3) = expand [.run 3] ∧ (tokenBytes [.run 3]).length = 5 := by decide +kernel

/-- Tokens of a run of two. -/
theorem tokens_run_two : TokensOk [.run 2] := by
  intro t ht
  simp only [List.mem_singleton] at ht
  subst ht
  exact ⟨by decide, by decide⟩

/-- A stream that fits exactly; one whose last token is truncated, the prefix fitting exactly; one whose run does not
fit. -/
theorem witness_rle_dec :
    TokensOk [.run 2] ∧ (expand [.run 2]).length = 2 ∧
    firstError (.rleDec (src 5) (dst 2)) (ready .nop [0, 2, 0, 0, 0]) = none ∧
    (ready .nop [0, 2, 0, 0, 0]).source (src 5) = tokenBytes [.run 2] ∧
    firstError (.rleDec (src 6) (dst 2)) (ready .nop [0, 2, 0, 0, 0, 0]) = none ∧ Malformed [0] ∧
    (ready .nop [0, 2, 0, 0, 0, 0]).source (src 6) = tokenBytes [.run 2] ++ [0] ∧
    firstError (.rleDec (src 6) (dst 1)) (ready .nop [0, 2, 0, 0, 0, 0]) = none := by
  exact ⟨tokens_run_two, by decide, by decide +kernel, by decide +kernel, by decide +kernel,
    .inl ⟨[], rfl, by decide⟩, by decide +kernel, by decide +kernel⟩

theorem witness_rle_round_trip : ([0, 0, 5] : List Byte).length < 2 ^ 32 := by decide

/-! ### Witnesses: pre-filter -/

/-- A block whose filtered form has 2 bytes, with capacity 2 and 1. -/
theorem witness_flt_enc :
    firstError (.fltEnc (src 1) (dst 2)) (ready .nop [0xFE]) = none ∧
      firstError (.fltEnc (src 1) (dst 1)) (ready .nop [0xFE]) = none ∧
      FilteredFrom [0xFE] (fun _ => none) 0 [0xFE, 0x00] := by
  refine ⟨by decide +kernel, by decide +kernel, ?_⟩
  exact .stuffed _ 0 0 [] (by decide) rfl (by decide) rfl (.done _)

/-- `FE 00` for a block of one byte; `FE` alone, an escape at the end. -/
theorem witness_flt_dec :
    Unfiltered 1 (fun _ => none) [] [0xFE, 0x00] (some [0xFE]) ∧
    Unfiltered 1 (fun _ => none) [] [0xFE] none ∧
    firstError (.fltDec (src 2) (dst 1) 1) (ready .nop [0xFE, 0x00]) = none ∧
      fltDecode ((ready .nop [0xFE, 0x00]).source (src 2)) 1 = .ok [0xFE] ∧
      firstError (.fltDec (src 1) (dst 1) 1) (ready .nop [0xFE]) = none ∧
      fltDecode ((ready .nop [0xFE]).source (src 1)) 1 = .error .corruptStream := by
  refine ⟨.stuffed _ [] [] _ (by decide) (.done _ _ rfl), .escapeAtEnd _ [] (by decide), ?_⟩
  decide +kernel

/-- The other refusals of R223: `61` with `n = 2` (output short), `61 62` with `n = 1` (input left), `FE 05` (no
prediction); a match of three bytes with a prediction that fits `n`, and with one that does not. -/
theorem witness_unfiltered :
    Unfiltered 2 (fun _ => none) [] [0x61] none ∧ Unfiltered 1 (fun _ => none) [] [0x61, 0x62] none ∧
    Unfiltered 3 (fun _ => none) [] [0xFE, 0x05] none ∧
    Unfiltered 7 (fun _ => some 0) [7, 7, 7, 7] [0xFE, 0x01] (some [7, 7, 7, 7, 7, 7, 7]) ∧
    Unfiltered 6 (fun _ => some 0) [7, 7, 7, 7] [0xFE, 0x01] none := by
  refine ⟨?_, ?_, ?_, ?_, ?_⟩
  · exact .literal _ _ _ _ _ (by decide) (by decide) (.outputShort _ _ (by decide))
  · exact .literal _ _ _ _ _ (by decide) (by decide) (.inputLeft _ _ _ _ (by decide))
  · exact .noPrediction _ _ _ _ (by decide) (by decide) rfl
  · exact .copied _ _ _ _ 0 [7, 7, 7] _ (by decide) (by decide) rfl (by decide) rfl (by decide) (.done _ _ rfl)
  · exact .pastEnd _ _ _ _ 0 (by decide) (by decide) rfl (by decide)

theorem witness_filter_size : 1 ≤ ([0xFE] : List Byte).length := by decide

/-! ### Witnesses: entropy coder -/

/-- A token stream of one literal, whose payload has 6 bytes: capacity 6 and 5; a rank count above MAX_BLOCK_SIZE; a
malformed stream. -/
theorem witness_rc_enc :
    TokensOk [.run 2] ∧
    firstError (.rcEnc (src 5) (dst 16)) (ready .nop [0, 2, 0, 0, 0]) = none ∧
    (ready .nop [0, 2, 0, 0, 0]).source (src 5) = tokenBytes [.run 2] ∧
    (expand [.run 2]).length ≤ (ready .nop []).caps.toNat ∧
    firstError (.rcEnc (src 5) (dst 4)) (ready .nop [0, 2, 0, 0, 0]) = none ∧
    firstError (.rcEnc (src 6) (dst 16)) (ready .nop [0, 2, 0, 0, 0, 0]) = none ∧ Malformed [0] ∧
    (ready .nop [0, 2, 0, 0, 0, 0]).source (src 6) = tokenBytes [.run 2] ++ [0] := by
  exact ⟨tokens_run_two, by decide +kernel, by decide +kernel, by decide, by decide +kernel, by decide +kernel,
    .inl ⟨[], rfl, by decide⟩, by decide +kernel⟩

/-- The payload of the literal 1, as the relations give it (R250's first example). -/
theorem test_payload_of_one_literal : IsPayload [.lit 1] [0x00, 0xFE, 0xFF, 0xF8, 0x00, 0x00] :=
  rcEncode_isPayload 1 1 _ _ (by simp [Token.Codable]) (by decide) (by decide +kernel)

/-- Two literals with MAX_BLOCK_SIZE 1: the second passes it, and something has been output by then, which a capacity of 0
does not hold and a capacity of 16 does. -/
theorem witness_rc_enc_passes :
    let s : State := { ready .nop [0x55, 0x55] with caps := 1 }
    let ts : List Token := [.lit 0x55] ++ .lit 0x55 :: []
    TokensOk ts ∧ firstError (.rcEnc (src 2) (dst 16)) s = none ∧ firstError (.rcEnc (src 2) (dst 0)) s = none ∧
      s.source (src 2) = tokenBytes ts ∧ (expand [.lit 0x55]).length ≤ s.caps.toNat ∧
      s.caps.toNat < (expand ([.lit 0x55] ++ [.lit 0x55])).length ∧
      ∃ e out, Encodes Encoder.start (decisions false ([.lit 0x55] ++ [.lit 0x55])) e out ∧ 0 < out.length ∧
        out.length ≤ 16 := by
  refine ⟨?_, by decide +kernel, by decide +kernel, by decide +kernel, by decide, by decide, ?_⟩
  · intro t ht
    obtain rfl : t = .lit 0x55 := by simpa using ht
    decide
  · obtain ⟨e, out, h, hc⟩ :=
      rcEncode_passes 1 [.lit 0x55] [] (.lit 0x55) (by simp [Token.Codable]) (by decide) (by decide)
    have h0 : rcEncode 1 (some 0) ([.lit 0x55] ++ .lit 0x55 :: []) = .error .capacityExceeded := by decide +kernel
    have h16 : rcEncode 1 (some 16) ([.lit 0x55] ++ .lit 0x55 :: []) = .error .invalidInput := by decide +kernel
    rw [hc, emitAll_capped _ _ _ (Nat.zero_le _)] at h0 h16
    refine ⟨e, out, h, Nat.pos_of_ne_zero fun hz => ?_, Nat.le_of_not_lt fun hl => ?_⟩
    · rw [if_pos (by simp [hz])] at h0
      simp at h0
    · rw [if_neg (by simpa using hl)] at h16
      simp at h16

/-- A payload that decodes to 5 bytes, with capacity 5 and 4, and one that does not decode. -/
theorem witness_rc_dec :
    firstError (.rcDec (src 6) (dst 5) 10) (ready .nop [0x00, 0x72, 0x7F, 0xF8, 0x00, 0x00]) = none ∧
    rcDecode none ((ready .nop [0x00, 0x72, 0x7F, 0xF8, 0x00, 0x00]).source (src 6)) 10 = .ok [0, 10, 0, 0, 0] ∧
    firstError (.rcDec (src 6) (dst 4) 10) (ready .nop [0x00, 0x72, 0x7F, 0xF8, 0x00, 0x00]) = none ∧
    firstError (.rcDec (src 5) (dst 4) 10) (ready .nop [0x00, 0xFF, 0xFF, 0xFF, 0xFF]) = none ∧
    rcDecode none ((ready .nop [0x00, 0xFF, 0xFF, 0xFF, 0xFF]).source (src 5)) 10 = .error .corruptStream := by
  decide +kernel

/-- R251's payload of one run of 10, as the relations read it: five bytes of tokens, for capacities 5 and 4; and a payload
that does not decode, and of which no token is decoded that does not fit. -/
theorem witness_rc_dec_relations :
    let p : List Byte := [0x00, 0x72, 0x7F, 0xF8, 0x00, 0x00]
    let bad : List Byte := [0x00, 0xFF, 0xFF, 0xFF, 0xFF]
    (∃ ts, Decodes p 10 ts ∧ HasDecoded p 10 ts ∧ tokenBytes ts = [0, 10, 0, 0, 0]) ∧ (∀ ts, ¬Decodes bad 10 ts) ∧
      ∀ ts, HasDecoded bad 10 ts → (tokenBytes ts).length ≤ 4 := by
  intro p bad
  obtain ⟨ts, h, hb⟩ := rcDecode_decodes none p 10 (by decide) [0, 10, 0, 0, 0] (by decide +kernel)
  rw [emitAll_scratch] at hb
  have e0 : rcDecode none bad 10 = .error .corruptStream := by decide +kernel
  have e4 : rcDecode (some 4) bad 10 = .error .corruptStream := by decide +kernel
  refine ⟨⟨ts, h, ⟨h.1, h.2.1.le, _, h.2.2⟩, by simpa using hb⟩, fun us hu => ?_, fun us hu => ?_⟩
  · rw [decodes_rcDecode none bad 10 us hu, emitAll_scratch] at e0
    simp at e0
  · by_contra hl
    rw [hasDecoded_overflow 4 bad 10 us hu (by omega)] at e4
    simp at e4

/-- The refusals: four bytes of payload; a first byte 1; a truncated payload; a run past `m`; a literal 0; a byte left
over. The payload `00 72 7F F8 00 00` is R251's, of one run of 10. -/
theorem witness_rc_dec_refusals :
    firstError (.rcDec (src 4) (dst 5) 10) (ready .nop [0x00, 0x72, 0x7F, 0xF8]) = none ∧
    firstError (.rcDec (src 6) (dst 5) 10) (ready .nop [0x01, 0x72, 0x7F, 0xF8, 0x00, 0x00]) = none ∧
    ((ready .nop [0x01, 0x72, 0x7F, 0xF8, 0x00, 0x00]).source (src 6)).getD 0 0 ≠ 0 ∧
    firstError (.rcDec (src 5) (dst 5) 10) (ready .nop [0x00, 0x72, 0x7F, 0xF8, 0x00]) = none ∧
    (ready .nop [0x00, 0x72, 0x7F, 0xF8, 0x00]).source (src 5) = [0x00, 0x72, 0x7F, 0xF8, 0x00, 0x00].take 5 ∧
    rcDecode none [0x00, 0x72, 0x7F, 0xF8, 0x00, 0x00] 10 = .ok [0, 10, 0, 0, 0] ∧
    TokensOk [] ∧ (expand []).length < (9 : Word).toNat ∧ (9 : Word).toNat < (expand []).length + 10 ∧
    IsPayload ([] ++ .run 10 :: []) [0x00, 0x72, 0x7F, 0xF8, 0x00, 0x00] ∧
    firstError (.rcDec (src 6) (dst 5) 9) (ready .nop [0x00, 0x72, 0x7F, 0xF8, 0x00, 0x00]) = none ∧
    firstError (.rcDec (src 7) (dst 5) 10) (ready .nop [0x00, 0x72, 0x7F, 0xF8, 0x00, 0x00, 0x00]) = none ∧
    (ready .nop [0x00, 0x72, 0x7F, 0xF8, 0x00, 0x00, 0x00]).source (src 7) =
      [0x00, 0x72, 0x7F, 0xF8, 0x00, 0x00] ++ [0x00] := by
  refine ⟨by decide +kernel, by decide +kernel, by decide +kernel, by decide +kernel, by decide +kernel,
    by decide +kernel, ?_, by decide, by decide, ?_, by decide +kernel, by decide +kernel, by decide +kernel⟩
  · intro t ht
    simp at ht
  · exact rcEncode_isPayload 10 10 _ _ (by simp [Token.Codable]) (by decide) (by decide +kernel)

/-- A payload that codes a literal 0: six bytes, which the decoder refuses. -/
theorem witness_rc_dec_literal_zero :
    ∃ p, IsPayload ([] ++ .lit 0 :: []) p ∧ rcDecode none p 1 = .error .corruptStream := by
  have h : (match rcEncode 1 none [.lit 0] with
    | .ok (p, n) => n == 1 && decide (rcDecode none p 1 = .error .corruptStream)
    | .error _ => false) = true := by decide +kernel
  split at h
  · next p n hp =>
    simp only [Bool.and_eq_true, beq_iff_eq, decide_eq_true_eq] at h
    exact ⟨p, rcEncode_isPayload 1 n _ _ (by simp [Token.Codable]) (by decide) hp, h.2⟩
  · simp at h

theorem witness_range_coder_round_trip : TokensOk [.run 2] ∧ (expand [.run 2]).length ≤ 2 :=
  ⟨tokens_run_two, by decide⟩

/-! ### Witnesses: codec -/

theorem witness_crc32 :
    firstError (.crc32 ⟨0x1000, 0⟩) (ready .nop []) = none ∧
      firstError (.crc32 ⟨0x1000, 1⟩) (ready .nop []) = some 0x11 := by decide +kernel

/-- `"banana"` with capacity 37 and 36. -/
theorem witness_compress :
    firstError (.compress false (src 6) (dst 37)) (ready .nop banana) = none ∧
      firstError (.compress false (src 6) (dst 36)) (ready .nop banana) = none ∧
      compressBlock (ready .nop banana).caps.toNat ((ready .nop banana).source (src 6)) false = .ok bananaBlock ∧
      bananaBlock.length = 37 := by decide +kernel

/-- A block the filter shortens, and one it does not. -/
theorem witness_encoded_block :
    2 ^ 25 < 2 ^ 30 ∧ 1 ≤ banana.length ∧ banana.length ≤ 2 ^ 25 ∧
      compressBlock (2 ^ 25) banana true = .ok bananaBlock ∧
      (fltEncode (List.replicate 8 0x61)).length < (List.replicate 8 (0x61 : Byte)).length ∧
      ∃ e, compressBlock 8 (List.replicate 8 0x61) true = .ok e ∧ e.length = 37 := by
  refine ⟨by decide, by decide, by decide, by decide +kernel, by decide +kernel, ?_⟩
  have h : (match compressBlock 8 (List.replicate 8 0x61) true with
    | .ok e => e.length
    | .error _ => 0) = 37 := by decide +kernel
  split at h
  · next e he => exact ⟨e, he, h⟩
  · simp at h

/-- A block that decompresses, and one that does not. -/
theorem witness_decompress :
    firstError (.decompress (src 37) (dst 6)) (ready .nop bananaBlock) = none ∧
      decompressBlock (ready .nop []).caps.toNat ((ready .nop bananaBlock).source (src 37)) 6 = .ok (banana, 37) ∧
      firstError (.decompress (src 37) (dst 5)) (ready .nop bananaBlock) = none ∧
      decompressBlock (ready .nop []).caps.toNat ((ready .nop bananaBlock).source (src 37)) 5 =
        .error .capacityExceeded := by decide +kernel

/-- A source one byte short of a header; and headers of exactly 28 bytes, each with one fault of R116 or R117. -/
theorem witness_unknown_header :
    firstError (.decompress (src 27) (dst 6)) (ready .nop (bananaBlock.take 27)) = none ∧
    firstError (.decompress (src 28) (dst 6)) (ready .nop (bananaBlock.take 28)) = none ∧
    ((ready .nop ((bananaBlock.take 28).set 2 0)).source (src 28)).take 3 ≠ [0x42, 0x53, 0x43] ∧
    ((ready .nop ((bananaBlock.take 28).set 3 2)).source (src 28)).getD 3 0 ≠ 0x01 ∧
    1 < (((ready .nop ((bananaBlock.take 28).set 4 2)).source (src 28)).getD 4 0).toNat ∧
    ((ready .nop ((bananaBlock.take 28).set 5 1)).source (src 28)).getD 5 0 ≠ 0 ∧
    ((ready .nop ((bananaBlock.take 28).set 6 1)).source (src 28)).getD 6 0 ≠ 0 ∧
    ((ready .nop ((bananaBlock.take 28).set 7 1)).source (src 28)).getD 7 0 ≠ 0 := by decide +kernel

/-- A good header; and headers that each fail one check of R274, at its boundary: payload length 10 for 9 bytes, block
length 0, 7 for a MAX_BLOCK_SIZE of 6 and for a capacity of 6, stage length 5 and 7 without the filter, 6 with it, and
primary index 6. -/
theorem witness_header_checks :
    headerError 6 6 bananaBlock = none ∧ wordAt bananaBlock 24 = 9 ∧ rcDecode none (bananaBlock.drop 28) 6 = .ok bananaTokens ∧
    headerError 6 6 (bananaBlock.set 24 10) = some 0x03 ∧ headerError 6 6 (bananaBlock.set 8 0) = some 0x03 ∧
    headerError 6 7 (bananaBlock.set 8 7) = some 0x04 ∧ headerError 7 6 (bananaBlock.set 8 7) = some 0x04 ∧
    headerError 6 6 (bananaBlock.set 12 5) = some 0x03 ∧ headerError 6 6 (bananaBlock.set 12 7) = some 0x03 ∧
    headerError 6 6 (bananaBlock.set 4 1) = some 0x03 ∧ headerError 7 7 ((bananaBlock.set 4 1).set 8 7) = none ∧
    headerError 6 6 (bananaBlock.set 16 6) = some 0x03 := by decide +kernel

/-- A good header before a payload that decodes, and one before a payload that does not. -/
theorem witness_decompress_payload :
    headerError 6 6 bananaBlock = none ∧ (∃ ts, Decodes (bananaBlock.drop 28) 6 ts) ∧
      headerError 6 6 (bananaBlock.set 28 1) = none ∧ ∀ ts, ¬Decodes ((bananaBlock.set 28 1).drop 28) 6 ts := by
  obtain ⟨ts, h, -⟩ := rcDecode_decodes none (bananaBlock.drop 28) 6 (by decide) bananaTokens (by decide +kernel)
  refine ⟨by decide +kernel, ⟨ts, h⟩, by decide +kernel, fun us hu => ?_⟩
  have e : rcDecode none ((bananaBlock.set 28 1).drop 28) 6 = .error .corruptStream := by decide +kernel
  rw [decodes_rcDecode none _ 6 us hu, emitAll_scratch] at e
  simp at e

theorem witness_decompress_completes :
    ∃ t, exec (.decompress (src 37) (dst 6)) (ready .nop bananaBlock) = .next t ∧ t.err = false := by
  obtain ⟨t, h, he, -⟩ :=
    next_of_execAfter (.decompress (src 37) (dst 6)) (ready .nop bananaBlock) (false, 0, 6) (by decide +kernel)
  exact ⟨t, h, he⟩

theorem witness_codec_round_trip :
    compressBlock 6 banana false = .ok bananaBlock ∧ banana.length ≤ 6 ∧ bananaBlock.length < 2 ^ 32 := by
  decide +kernel

/-! ### Witnesses: registers, resets, host -/

/-- The host's next action. -/
theorem host_does (s : State) (a : HostAction) : HostDoes { s with host := [a] } a := ⟨[], rfl⟩

/-- START while idle and while BUSY. -/
theorem witness_start_write :
    HostDoes { State.reset with host := [.writeReg 0x04 4 5] } (.writeReg 0x04 4 5) ∧
      HostDoes { ready .nop [] with host := [.writeReg 0x04 4 5] } (.writeReg 0x04 4 5) ∧
      (5 : Word).getLsbD 0 = true ∧ (5 : Word).getLsbD 1 = false ∧ State.reset.busy = false ∧
      (ready .nop []).busy = true :=
  ⟨host_does _ _, host_does _ _, by decide, by decide, rfl, rfl⟩

/-- STATUS read, and written while idle with DONE set and while BUSY. -/
theorem witness_status :
    HostDoes { State.reset with host := [.readReg 0x08 4] } (.readReg 0x08 4) ∧
      HostDoes { { State.reset with done := true } with host := [.writeReg 0x08 4 2] } (.writeReg 0x08 4 2) ∧
      HostDoes { ready .nop [] with host := [.writeReg 0x08 4 6] } (.writeReg 0x08 4 6) :=
  ⟨host_does _ _, host_does _ _, host_does _ _⟩

/-- Reads of the first register, the last one, the first reserved offset and the last; a write to ID and to a reserved
offset. -/
theorem witness_register_window :
    HostDoes { State.reset with host := [.readReg 0x00 4] } (.readReg 0x00 4) ∧
      HostDoes { State.reset with host := [.readReg 0x24 4] } (.readReg 0x24 4) ∧
      HostDoes { State.reset with host := [.readReg 0x28 4] } (.readReg 0x28 4) ∧
      HostDoes { State.reset with host := [.readReg 0xFC 4] } (.readReg 0xFC 4) ∧
      HostDoes { State.reset with host := [.writeReg 0x00 4 7] } (.writeReg 0x00 4 7) ∧
      HostDoes { State.reset with host := [.writeReg 0xFC 4 7] } (.writeReg 0xFC 4 7) :=
  ⟨host_does _ _, host_does _ _, host_does _ _, host_does _ _, host_does _ _, host_does _ _⟩

/-- CMD_PTR written while idle and while BUSY; IRQ_EN set. -/
theorem witness_cmd_ptr :
    HostDoes { State.reset with host := [.writeReg 0x0C 4 3] } (.writeReg 0x0C 4 3) ∧
      HostDoes { ready .nop [] with host := [.writeReg 0x0C 4 3] } (.writeReg 0x0C 4 3) ∧
      HostDoes { ready .nop [] with host := [.writeReg 0x04 4 4] } (.writeReg 0x04 4 4) ∧
      (4 : Word).getLsbD 0 = false ∧ (4 : Word).getLsbD 1 = false :=
  ⟨host_does _ _, host_does _ _, host_does _ _, by decide, by decide⟩

/-- A 16-bit write and a misaligned read. -/
theorem witness_refused_access :
    HostDoes { State.reset with host := [.writeReg 0x0C 2 0] } (.writeReg 0x0C 2 0) ∧ (2 : Nat) ≠ 4 ∧
      HostDoes { State.reset with host := [.readReg 0x0D 4] } (.readReg 0x0D 4) ∧ 0x0D % 4 ≠ 0 :=
  ⟨host_does _ _, by decide, host_does _ _, by decide⟩

/-- A soft reset, with START in the same write, while a command with a destination runs. -/
theorem witness_soft_reset :
    HostDoes { ready (.mtfEnc (src 6) (dst 6)) banana with host := [.writeReg 0x04 4 3] } (.writeReg 0x04 4 3) ∧
      (3 : Word).getLsbD 1 = true ∧
      CommandAt (ready (.mtfEnc (src 6) (dst 6)) banana) (.mtfEnc (src 6) (dst 6)) ∧
      ¬Within (dstAddr (.mtfEnc (src 6) (dst 6))) (dstCap (.mtfEnc (src 6) (dst 6))) 0x406 := by
  refine ⟨host_does _ _, by decide, ?_, ?_⟩
  · unfold CommandAt; decide +kernel
  · unfold Within; decide +kernel

theorem witness_hard_reset : HostDoes { ready .nop [] with host := [.hardReset] } .hardReset := host_does _ _

theorem witness_interrupt :
    HostDoes { { State.reset with irqEn := true, done := true } with host := [.sampleIrq] } .sampleIrq ∧
      HostDoes { State.reset with host := [.sampleIrq] } .sampleIrq := ⟨host_does _ _, host_does _ _⟩

/-- A host write up to the end of the buffer and one past it; a read of the last byte. -/
theorem witness_host_memory :
    HostDoes { State.reset with host := [.writeBuf 0xFFE [1, 2]] } (.writeBuf 0xFFE [1, 2]) ∧
      0xFFE + ([1, 2] : List Byte).length = State.reset.bufSize.toNat ∧
      HostDoes { State.reset with host := [.writeBuf 0xFFF [1, 2]] } (.writeBuf 0xFFF [1, 2]) ∧
      State.reset.bufSize.toNat < 0xFFF + ([1, 2] : List Byte).length ∧
      HostDoes { State.reset with host := [.readBuf 0xFFF] } (.readBuf 0xFFF) ∧ State.reset.synced = true ∧
      0xFFF < State.reset.bufSize.toNat :=
  ⟨host_does _ _, rfl, host_does _ _, by decide, host_does _ _, rfl, by decide⟩

/-- A byte the host wrote in the descriptor, in the source and in the written bytes of the running command; the last byte
the command writes is 0x405, and 0x406, past RESULT0, is none of them (R68). -/
theorem witness_race :
    let i : Instr := .mtfEnc (src 6) (dst 8)
    let s : State := { ready i banana with hostWrote := [0x1F, 0x205, 0x405] }
    s.busy = true ∧ s.affected = false ∧ CommandAt s i ∧ s.done = false ∧ s.err = false ∧ s.affectedRun = true ∧
      s.writtenBy i = ⟨0x400, 6⟩ ∧ ({ s with hostWrote := [0x1F] } : State).affectedRun = true ∧
      ({ s with hostWrote := [0x205] } : State).affectedRun = true ∧
      ({ s with hostWrote := [0x405] } : State).affectedRun = true ∧
      ({ s with hostWrote := [0x406, 0x20, 0x206] } : State).affectedRun = false := by
  intro i s
  unfold CommandAt
  decide +kernel

/-- A host write, during a run, up to the end of the buffer; and an address that the run has written. -/
theorem witness_run_write :
    let s : State := { ready .nop [] with runWrites := [⟨0xFFE, 2⟩], host := [.writeBuf 0xFFF [1]] }
    HostDoes s (.writeBuf 0xFFF [1]) ∧ s.busy = true ∧ 0xFFF + ([1] : List Byte).length = s.bufSize.toNat ∧
      Within 0xFFF 1 0xFFF ∧ InOne (s.runReads ++ s.runWrites) 0xFFF :=
  ⟨⟨[], rfl⟩, rfl, rfl, by unfold Within; decide, ⟨⟨0xFFE, 2⟩, by simp, by unfold Within; decide⟩⟩

/-- R341: a soft reset takes effect in an affected run. -/
theorem test_affected_soft_reset :
    flagsAfter { ready .nop [] with hostWrote := [0], affected := true, host := [.writeReg 0x04 4 2] } =
      some (false, false, false, 0) := by decide +kernel

/-- R76: a byte that a run wrote whose end the host has not seen stays unsettled over the next START. -/
theorem test_unseen_over_start :
    let s : State := { ready .nop [] with busy := false, synced := false, runDests := [⟨0x400, 4⟩] }
    s.unsettled 0x403 = true ∧ s.start.unsettled 0x403 = true ∧ s.start.unsettled 0x404 = false ∧
      ({ s with synced := true } : State).start.unsettled 0x403 = false := by decide +kernel

/-- A START while such a byte is unsettled; and a byte that is settled during a run. -/
theorem witness_unsettled :
    let s : State := { ready .nop [] with busy := false, synced := false, runDests := [⟨0x400, 4⟩] }
    HostDoes { s with host := [.writeReg 0x04 4 1] } (.writeReg 0x04 4 1) ∧ (1 : Word).getLsbD 0 = true ∧
      (1 : Word).getLsbD 1 = false ∧ s.unsettled 0x400 = true ∧ s.unsettled 0x404 = false ∧
      HostDoes { s with host := [.readBuf 0x404] } (.readBuf 0x404) := by
  refine ⟨host_does _ _, by decide, by decide, by decide +kernel, by decide +kernel, host_does _ _⟩

/-- R75: a byte is unsettled before the host reads STATUS with BUSY = 0, or takes the interrupt, and settled after it. -/
theorem witness_synced :
    let s : State := { ready .nop [] with busy := false, done := true, irqEn := true, synced := false, runDests := [⟨0x400, 4⟩] }
    let r : State := { s with host := [.readReg 0x08 4] }
    let i : State := { s with host := [.sampleIrq] }
    HostDoes r (.readReg 0x08 4) ∧ r.busy = false ∧ HostDoes i .sampleIrq ∧ i.irq = true ∧ s.synced = false ∧
      s.unsettled 0x400 = true ∧
      ∀ u ∈ [r, i], (match step u with
        | .next t => t.synced && !t.unsettled 0x400
        | .fault _ => false
        | .refused _ => false) = true := by
  refine ⟨host_does _ _, rfl, host_does _ _, rfl, rfl, by decide +kernel, by decide +kernel⟩

/-- A read of an unsettled byte, the last of the buffer; and a read past the buffer. -/
theorem witness_unsettled_read :
    let s : State := { ready .nop [] with busy := false, synced := false, runDests := [⟨0xFFC, 4⟩] }
    HostDoes { s with host := [.readBuf 0xFFF] } (.readBuf 0xFFF) ∧ s.unsettled 0xFFF = true ∧
      0xFFF < s.bufSize.toNat ∧ HostDoes { s with host := [.readBuf 0x1000] } (.readBuf 0x1000) ∧
      s.bufSize.toNat ≤ 0x1000 := by
  refine ⟨host_does _ _, by decide +kernel, by decide, host_does _ _, by decide⟩

/-- R346: a byte of the destination a command was fetched with, past RESULT0 too, is unsettled while the command runs, and
stays so when the host then writes DST_ADDR in its descriptor. -/
theorem witness_running_destination :
    let i : Instr := .mtfEnc (src 6) (dst 8)
    let s : State := { ready i banana with synced := false, host := [.writeBuf 0x0C [0, 8, 0, 0]] }
    HostDoes s (.writeBuf 0x0C [0, 8, 0, 0]) ∧ s.synced = false ∧ s.busy = true ∧ CommandAt s i ∧
      Within (dstAddr i) (dstCap i) 0x407 ∧ s.unsettled 0x407 = true ∧ s.unsettled 0x408 = false ∧
      (s.writeDuringRun 0x0C [0, 8, 0, 0]).unsettled 0x407 = true ∧
      0x0C + ([0, 8, 0, 0] : List Byte).length ≤ s.bufSize.toNat ∧ 0x407 < s.bufSize.toNat := by
  refine ⟨⟨[], rfl⟩, rfl, rfl, ?_, ?_, ?_⟩
  · unfold CommandAt; decide +kernel
  · unfold Within; decide
  · decide +kernel

/-- R139, R345: a command that fails a check (here the overlap of its destination with its source) reads no source and
writes nothing, so a host write there does not affect the run. -/
theorem test_failed_check_reads_nothing :
    let i : Instr := .mtfEnc (src 6) ⟨0x205, 6⟩
    let s : State := { ready i banana with hostWrote := [0x200, 0x205] }
    firstError i s = some 0x01 ∧ s.affectedRun = false ∧
      ({ s with hostWrote := [0x1F] } : State).affectedRun = true := by decide +kernel

/-! ### The interface -/

/-- `withFetchWord` runs exactly the word it is given, from reset (log entry 5): HALT. -/
theorem test_with_fetch_word :
    flagsAfter (State.reset.withFetchWord 32 0x00000001) = some (false, true, false, 0) := by decide +kernel

end Sys2Proof.Tests
end

section
/-! SUPPORT. What the host's register accesses and its look at the interrupt do in a step, one equation for each
(10_state.md R22 to R36), and the statements about the register window and the interrupt output. -/

namespace Sys2Proof.Machine

open Sys2Proof.Claims

/-! ### Which register accesses are defined -/

theorem accessRefusal_aligned {o : Nat} (ho : o < 256) (ha : o % 4 = 0) : accessRefusal o 4 = none := by
  have hin : ¬256 ≤ o := by omega
  simp [accessRefusal, hin, ha]

theorem accessRefusal_other {o w : Nat} (ho : o < 256) (hw : w ≠ 4 ∨ o % 4 ≠ 0) :
    accessRefusal o w = some .registerAccess := by
  have hin : ¬256 ≤ o := by omega
  rw [accessRefusal, if_neg hin, if_pos hw]

/-! ### What a register reads as -/

theorem State.ctrlWord_eq (s : State) : s.ctrlWord = if s.irqEn then 4 else 0 := by
  unfold State.ctrlWord
  cases s.irqEn <;> decide

@[simp] theorem State.readReg_id (s : State) : s.readReg 0x00 = 0x01435342 := rfl
@[simp] theorem State.readReg_ctrl (s : State) : s.readReg 0x04 = s.ctrlWord := rfl
@[simp] theorem State.readReg_status (s : State) : s.readReg 0x08 = s.statusWord := rfl
@[simp] theorem State.readReg_cmdPtr (s : State) : s.readReg 0x0C = s.cmdPtr := rfl
@[simp] theorem State.readReg_result0 (s : State) : s.readReg 0x10 = s.result0 := rfl
@[simp] theorem State.readReg_result1 (s : State) : s.readReg 0x14 = s.result1 := rfl
@[simp] theorem State.readReg_errAddr (s : State) : s.readReg 0x18 = s.errAddr := rfl
@[simp] theorem State.readReg_cmdCount (s : State) : s.readReg 0x1C = s.cmdCount := rfl
@[simp] theorem State.readReg_caps (s : State) : s.readReg 0x20 = s.caps.setWidth 32 := rfl
@[simp] theorem State.readReg_bufSize (s : State) : s.readReg 0x24 = s.bufSize := rfl

theorem State.readReg_reserved (s : State) {o : Nat} (h : 0x28 ≤ o) : s.readReg o = 0 := by
  unfold State.readReg
  repeat rw [if_neg (by omega)]

theorem State.writeReg_readOnly (s : State) {o : Nat} (v : Word) (hctrl : o ≠ 0x04) (hstatus : o ≠ 0x08)
    (hptr : o ≠ 0x0C) : s.writeReg o v = s := by
  rw [State.writeReg, if_neg hctrl, if_neg hstatus, if_neg hptr]

theorem State.irq_iff (s : State) : s.irq = true ↔ s.irqEn = true ∧ (s.done = true ∨ s.err = true) := by
  rw [State.irq, Bool.and_eq_true, Bool.or_eq_true]

/-! ### The host's turn in a step -/

theorem step_of_hostDoes {s : State} {a : HostAction} (h : HostDoes s a) :
    ∃ rest, step s = hostTurn a { s with host := rest } := by
  obtain ⟨rest, hrest⟩ := h
  exact ⟨rest, by rw [step, turn, hrest]⟩

/-- The model's own record of the host is no part of the machine. -/
theorem sameMachine_of_hostRecord (s : State) (l : List HostAction) (w : Word) (b : Bool) :
    SameMachine { s with host := l, hostData := w, synced := b } s :=
  ⟨rfl, rfl, rfl, rfl, rfl, rfl, rfl, rfl, rfl, rfl, rfl, rfl, rfl, rfl, fun _ => rfl⟩

theorem step_readReg {s : State} {o : Nat} (ho : o < 256) (ha : o % 4 = 0) (h : HostDoes s (.readReg o 4)) :
    ∃ t, step s = .next t ∧ SameMachine t s ∧ t.hostData = s.readReg o := by
  obtain ⟨rest, hstep⟩ := step_of_hostDoes h
  refine ⟨{ s with host := rest, hostData := s.readReg o, synced := s.observe o }, ?_,
    sameMachine_of_hostRecord .., rfl⟩
  rw [hstep, hostTurn, hostReadReg, accessRefusal_aligned ho ha]
  rfl

theorem step_writeReg {s : State} {o : Nat} {v : Word} (ho : o < 256) (ha : o % 4 = 0)
    (h : HostDoes s (.writeReg o 4 v)) :
    ∃ rest, step s = .next (({ s with host := rest } : State).writeReg o v) := by
  obtain ⟨rest, hstep⟩ := step_of_hostDoes h
  exact ⟨rest, by rw [hstep, hostTurn, hostWriteReg, accessRefusal_aligned ho ha]⟩

theorem step_sampleIrq {s : State} (h : HostDoes s .sampleIrq) :
    ∃ t, step s = .next t ∧ SameMachine t s ∧ t.hostData = (BitVec.ofBool s.irq).setWidth 32 := by
  obtain ⟨rest, hstep⟩ := step_of_hostDoes h
  exact ⟨{ s with host := rest, hostData := (BitVec.ofBool s.irq).setWidth 32, synced := s.synced || s.irq },
    hstep, sameMachine_of_hostRecord .., rfl⟩

end Sys2Proof.Machine

namespace Sys2Proof.Proofs

open Sys2Proof.Machine Sys2Proof.Claims

/-- Settles O53: a read returns `readReg` of the offset and touches only the record of the host; a write to a read-only
or reserved offset is the identity. -/
theorem registerWindow : Obligations.RegisterWindow := by
  refine ⟨fun s o ho ha h => ?_, fun s o v ho ha hctrl hstatus hptr h => ?_⟩
  · obtain ⟨t, hstep, hsame, hdata⟩ := step_readReg ho ha h
    refine ⟨t, hstep, hsame, ?_⟩
    rw [hdata]
    refine ⟨?id, ?ctrl, ?cmdPtr, ?result0, ?result1, ?errAddr, ?cmdCount, ?caps, ?bufSize, s.readReg_reserved⟩
    case ctrl => rintro rfl; rw [s.readReg_ctrl, s.ctrlWord_eq]
    case caps => rintro rfl; rw [s.readReg_caps, BitVec.toNat_setWidth_of_le (show 30 ≤ 32 by decide)]
    all_goals rintro rfl; simp
  · obtain ⟨rest, hstep⟩ := step_writeReg ho ha h
    rw [State.writeReg_readOnly _ v hctrl hstatus hptr] at hstep
    exact ⟨_, hstep, sameMachine_of_hostRecord s rest s.hostData s.synced⟩

/-- Settles O55: reads and writes of the window pass the same test of offset and width first. -/
theorem otherRegisterAccessesAreRefused : Obligations.OtherRegisterAccessesAreRefused := by
  intro s o w v ho hw h
  have href := accessRefusal_other ho hw
  rcases h with hwrite | hread
  · obtain ⟨rest, hstep⟩ := step_of_hostDoes hwrite
    rw [hstep, hostTurn, hostWriteReg, href]
  · obtain ⟨rest, hstep⟩ := step_of_hostDoes hread
    rw [hstep, hostTurn, hostReadReg, href]

/-- Settles O58: the sampled level is `State.irq`, which is the condition of R36. -/
theorem interruptOutput : Obligations.InterruptOutput := by
  refine ⟨fun s h => ?_, rfl⟩
  obtain ⟨t, hstep, hsame, hdata⟩ := step_sampleIrq h
  refine ⟨t, hstep, hsame, ?_⟩
  rw [hdata]
  simp only [← s.irq_iff]
  cases s.irq <;> decide

end Sys2Proof.Proofs
end

section
/-! SUPPORT. A `u32` in buffer memory as a number and after a write of its bytes (20_memory.md R62), and the statement
that a `u32` is little-endian. -/

namespace Sys2Proof.Machine

/-! ### A byte string as a number -/

/-- A byte put below a word adds one digit in base `2 ^ 8`. -/
theorem toNat_append_byte {n : Nat} (x : BitVec n) (b : Byte) : (x ++ b).toNat = x.toNat * 2 ^ 8 + b.toNat := by
  rw [BitVec.toNat_append, ← Nat.shiftLeft_add_eq_or_of_lt b.isLt, Nat.shiftLeft_eq]

theorem ofLe32_toNat (b0 b1 b2 b3 : Byte) :
    (ofLe32 b0 b1 b2 b3).toNat =
      b0.toNat + b1.toNat * 2 ^ 8 + b2.toNat * 2 ^ 16 + b3.toNat * 2 ^ 24 := by
  simp only [ofLe32, toNat_append_byte]
  omega

/-- The first byte of a word is its least significant one (R62). -/
theorem le32_head_toNat (w : Word) : ((le32 w).getD 0 0).toNat = w.toNat % 256 := by
  simp [le32, BitVec.extractLsb'_toNat]

/-! ### A `u32` in memory -/

theorem read32_write (m : Memory) (a : Nat) (s : List Byte) (h : 4 ≤ s.length) :
    (m.write a s).read32 a = le32At s 0 := by
  have hbyte (k : Nat) (hk : k < 4) : (m.write a s).byte (a + k) = s.getD k 0 :=
    byte_write_inside m a k s (by omega)
  have hfirst : (m.write a s).byte a = s.getD 0 0 := hbyte 0 (by decide)
  rw [Memory.read32, le32At, hfirst, hbyte 1 (by decide), hbyte 2 (by decide), hbyte 3 (by decide)]

theorem read32_write_le32 (m : Memory) (a : Nat) (w : Word) : (m.write a (le32 w)).read32 a = w := by
  rw [read32_write m a (le32 w) (by simp)]
  simpa using le32At_head w []

end Sys2Proof.Machine

namespace Sys2Proof.Proofs

open Sys2Proof.Machine

/-- Settles O5: a word is put together from its bytes as digits in base `2 ^ 8`, and a write puts the bytes of the word
where `read32` looks for them. -/
theorem wordsAreLittleEndian : Obligations.WordsAreLittleEndian := by
  refine ⟨fun m a => ofLe32_toNat .., fun m a w => ⟨read32_write_le32 m a w, ?_⟩⟩
  have hbyte : (m.write a (le32 w)).byte a = (le32 w).getD 0 0 := byte_write_inside m a 0 (le32 w) (by simp)
  rw [hbyte, le32_head_toNat]

end Sys2Proof.Proofs
end

section
/-! SUPPORT. What the decoder does with an opcode, with the words its command ignores and with an illegal descriptor
(30_encoding.md R93 to R97), the engine's command cycle as a step, and the statements that the words a command ignores
have no effect and that an illegal descriptor raises ILLEGAL_COMMAND. -/

namespace Sys2Proof

open Sys2Proof.Claims

/-! ### From an opcode to its command -/

/-- The FLAGS bits an opcode defines (R94): bit 0 of BWT_FWD and COMPRESS. -/
def definedFlags (op : Byte) : Byte := if op = 0x18 ∨ op = 0x41 then 1 else 0

/-- An opcode of the map has a command, which encodes to that opcode and defines the opcode's FLAGS bits. -/
theorem Desc.command_of_mem {d : Desc} (h : d.opcode ∈ opcodes) :
    ∃ i, d.command = some (i, definedFlags d.opcode) ∧ (encodeDesc i).opcode = d.opcode := by
  cases d
  fin_cases h <;> exact ⟨_, rfl, rfl⟩

theorem Desc.command_of_notMem {d : Desc} (h : d.opcode ∉ opcodes) : d.command = none := by
  simp only [opcodes, List.mem_cons, List.not_mem_nil, or_false, not_or] at h
  simp only [Desc.command, h, if_false]

/-! ### Ignored words -/

/-- The descriptor with the words its opcode ignores (R93), and PARAM1, set to 0. -/
def Desc.keepUsed (d : Desc) : Desc :=
  { d with
    srcAddr := if usesSrc d.opcode then d.srcAddr else 0
    srcLen := if usesSrc d.opcode then d.srcLen else 0
    dstAddr := if usesDst d.opcode then d.dstAddr else 0
    dstCap := if usesDst d.opcode then d.dstCap else 0
    auxAddr := if usesAux d.opcode then d.auxAddr else 0
    param0 := if usesParam0 d.opcode then d.param0 else 0
    param1 := 0 }

/-- R97 for the command itself: no row of the map reads a word its opcode ignores. -/
theorem Desc.command_keepUsed (d : Desc) : d.keepUsed.command = d.command := by
  by_cases h : d.opcode ∈ opcodes
  · cases d
    fin_cases h <;> rfl
  · rw [command_of_notMem h]
    exact command_of_notMem h

theorem decodeDesc_keepUsed (d : Desc) : decodeDesc d.keepUsed = decodeDesc d := by
  rw [decodeDesc, Desc.command_keepUsed]
  rfl

/-- Descriptors that agree on word 0 and on the used words differ in no word that is kept. -/
theorem Desc.keepUsed_congr {d e : Desc} (hop : d.opcode = e.opcode) (hflags : d.flags = e.flags)
    (hrsvd : d.rsvd = e.rsvd)
    (hsrc : usesSrc d.opcode = true → d.srcAddr = e.srcAddr ∧ d.srcLen = e.srcLen)
    (hdst : usesDst d.opcode = true → d.dstAddr = e.dstAddr ∧ d.dstCap = e.dstCap)
    (haux : usesAux d.opcode = true → d.auxAddr = e.auxAddr)
    (hparam : usesParam0 d.opcode = true → d.param0 = e.param0) : d.keepUsed = e.keepUsed := by
  simp only [keepUsed, ← hop, hflags, hrsvd, Desc.mk.injEq, true_and, and_true]
  exact ⟨ite_congr rfl (fun h => (hsrc h).1) fun _ => rfl, ite_congr rfl (fun h => (hsrc h).2) fun _ => rfl,
    ite_congr rfl (fun h => (hdst h).1) fun _ => rfl, ite_congr rfl (fun h => (hdst h).2) fun _ => rfl,
    ite_congr rfl haux fun _ => rfl, ite_congr rfl hparam fun _ => rfl⟩

/-! ### Illegal descriptors -/

/-- R96 with the FLAGS clause in the decoder's form. -/
theorem illegal_iff (d : Desc) :
    Illegal d ↔ d.opcode ∉ opcodes ∨ d.rsvd ≠ 0 ∨ d.flags &&& ~~~definedFlags d.opcode ≠ 0 := by
  have hflagged : ~~~(1 : Byte) = 0xFE := rfl
  have hplain : d.flags &&& ~~~0 = d.flags := BitVec.and_allOnes
  unfold Illegal definedFlags
  split
  · rw [hflagged]
  · rw [hplain]

theorem decodeDesc_of_illegal {d : Desc} (h : Illegal d) : ∃ e, decodeDesc d = .error e := by
  unfold decodeDesc
  by_cases hrsvd : d.rsvd = 0
  · rw [if_neg (not_not.mpr hrsvd)]
    by_cases hop : d.opcode ∈ opcodes
    · obtain ⟨i, hi, -⟩ := Desc.command_of_mem hop
      have hflags : ¬d.flags &&& ~~~definedFlags d.opcode = 0 := by
        simpa [hop, hrsvd] using (illegal_iff d).mp h
      exact ⟨.undefinedFlag, by simp only [hi, if_neg hflags]⟩
    · exact ⟨.unassignedOpcode, by rw [Desc.command_of_notMem hop]⟩
  · exact ⟨.reservedNonzero, if_pos hrsvd⟩

theorem decodeDesc_of_legal {d : Desc} (h : ¬Illegal d) :
    ∃ i, decodeDesc d = .ok i ∧ (encodeDesc i).opcode = d.opcode := by
  simp only [illegal_iff, not_or, not_not] at h
  obtain ⟨hop, hrsvd, hflags⟩ := h
  obtain ⟨i, hi, hcode⟩ := Desc.command_of_mem hop
  exact ⟨i, by simp only [decodeDesc, hi, hrsvd, hflags, ne_eq, not_true, if_true, if_false], hcode⟩

end Sys2Proof

namespace Sys2Proof.Machine

open Sys2Proof.Claims

/-! ### The engine's turn in a step -/

theorem step_of_engineMoves {s : State} (h : EngineMoves s) : step s = engineTurn { s with host := s.host.tail } := by
  obtain ⟨hhost, -⟩ := h
  obtain hnil | ⟨rest, hcons⟩ := hhost
  · have hsame : { s with host := s.host.tail } = s := by rw [hnil, List.tail_nil, ← hnil]
    rw [hsame, step, turn, hnil]
  · rw [step, turn, hcons]
    rfl

theorem step_of_running {s : State} (h : EngineMoves s) (hb : s.busy = true) :
    step s = cycle { s with host := s.host.tail } := by
  rw [step_of_engineMoves h, engineTurn, affectedRun_host, h.2, if_neg Bool.false_ne_true, if_pos hb]

theorem cycle_of_error {s : State} {e : DecodeError} (hf : s.fetchable = true)
    (he : decodeDesc s.fetchDesc = .error e) : cycle s = .next (s.latch.fail .illegalCommand s.fetchDesc.opcode) := by
  rw [cycle, if_pos hf, State.latch_d, he]

theorem commandAt_iff (s : State) (i : Instr) :
    CommandAt s i ↔ s.fetchable = true ∧ decodeDesc s.fetchDesc = .ok i := by
  have hlen : ¬(s.mem.read s.cmdPtr.toNat 32).length < Config.descSize := by
    rw [read_length]; decide
  rw [CommandAt, fetchable_iff, and_assoc, decode, if_neg hlen]
  rfl

end Sys2Proof.Machine

namespace Sys2Proof.Proofs

open Sys2Proof.Machine Sys2Proof.Claims

/-- Settles O4: two descriptors that agree on the used words are the same once the ignored ones are 0, and that changes
no command; with INTERNAL_SORT neither the checks nor the result of BWT_FWD mention AUX_ADDR. -/
theorem ignoredWordsHaveNoEffect : Obligations.IgnoredWordsHaveNoEffect := by
  refine ⟨fun d e hop hflags hrsvd hsrc hdst haux hparam => ?_, fun _ _ _ _ _ => rfl⟩
  calc decodeDesc d = decodeDesc d.keepUsed := (decodeDesc_keepUsed d).symm
    _ = decodeDesc e.keepUsed := by rw [Desc.keepUsed_congr hop hflags hrsvd hsrc hdst haux hparam]
    _ = decodeDesc e := decodeDesc_keepUsed e

/-- Settles O7: the decoder refuses an illegal descriptor, and the cycle then latches it and takes the trap path, which
leaves the other fields alone; any other descriptor of the map has its own command. -/
theorem illegalDescriptorsTrap : Obligations.IllegalDescriptorsTrap := by
  intro s hb hmoves hal hin d
  have hf : s.fetchable = true := (fetchable_iff s).mpr ⟨hal, hin⟩
  refine ⟨fun hill => ?_, fun hlegal => ?_⟩
  · obtain ⟨e, he⟩ := decodeDesc_of_illegal hill
    refine ⟨({ s with host := s.host.tail } : State).latch.fail .illegalCommand d.opcode, ?_, ?_⟩
    · rw [step_of_running hmoves hb]
      exact cycle_of_error hf he
    · exact ⟨rfl, rfl, rfl, rfl, rfl, rfl, rfl, rfl, rfl, rfl, rfl, rfl, rfl, rfl, fun _ => rfl⟩
  · obtain ⟨i, hi, hcode⟩ := decodeDesc_of_legal hlegal
    exact ⟨i, (commandAt_iff s i).mpr ⟨hf, hi⟩, hcode⟩

end Sys2Proof.Proofs
end

section
/-! SUPPORT. The three control commands in full (40_sequencer.md R135 to R137), the command cycle when the fetch fails
and when it finds a command, a START written by the host (R131), and the statements about them. -/

namespace Sys2Proof.Machine

open Sys2Proof.Claims

/-! ### Control commands -/

theorem exec_nop (s : State) : exec .nop s = .next s.advance := rfl

theorem exec_halt (s : State) : exec .halt s = .next s.advance.haltFlags := rfl

theorem exec_jump (a : Word) (s : State) : exec (.jump a) s = .next (s.completeAt a) := rfl

/-! ### The command cycle -/

theorem cycle_of_unfetchable {s : State} (hf : s.fetchable = false) :
    cycle s = .next (s.fail .addressError fetchErrOp) := by
  rw [cycle, hf, if_neg Bool.false_ne_true]

theorem cycle_of_command {s : State} {i : Instr} (hf : s.fetchable = true)
    (hi : decodeDesc s.fetchDesc = .ok i) : cycle s = exec i (s.noteRun i).latch := by
  rw [cycle, if_pos hf, State.latch_d, hi]

theorem unfetchable_of_bad {s : State} (h : s.cmdPtr.toNat % 4 ≠ 0 ∨ s.bufSize.toNat < s.cmdPtr.toNat + 32) :
    s.fetchable = false := by
  rw [← Bool.not_eq_true, fetchable_iff]
  omega

/-! ### A host that waits -/

theorem engineMoves_of_silent {s : State} (h : HostSilent s) : EngineMoves s := by
  obtain ⟨hhost, hrun⟩ := h
  refine ⟨?_, hrun⟩
  cases hl : s.host with
  | nil => exact .inl rfl
  | cons a rest =>
    obtain rfl := hhost a (by simp [hl])
    exact .inr ⟨rest, rfl⟩

theorem affected_eq_false_of_running {s : State} (hb : s.busy = true) (h : s.affectedRun = false) :
    s.affected = false := by
  rw [State.affectedRun, hb, Bool.true_and, Bool.or_eq_false_iff] at h
  exact h.1

/-- No host write can hit the running command of a machine whose fetch fails: there is none. -/
theorem raced_of_unfetchable {s : State} (hf : s.fetchable = false) : s.raced = false := by
  simp [State.raced, State.runningRegions, hf, covers]

theorem affectedRun_of_unfetchable {s : State} (ha : s.affected = false) (hf : s.fetchable = false) :
    s.affectedRun = false := by
  rw [State.affectedRun, ha, raced_of_unfetchable hf, Bool.or_self, Bool.and_false]

/-- While BUSY the engine's turn runs the command at the pc, latched and noted in the record of the run (R132). -/
theorem step_of_commandAt {s : State} {i : Instr} (hb : s.busy = true) (h : EngineMoves s) (hi : CommandAt s i) :
    step s = exec i ((({ s with host := s.host.tail } : State).noteRun i).latch) := by
  obtain ⟨hf, hdec⟩ := (commandAt_iff s i).mp hi
  rw [step_of_running h hb]
  exact cycle_of_command hf hdec

/-- A JUMP moves the pc to its target and counts; the flags and memory stay as they are. -/
theorem step_of_jump {s : State} {a : Word} (hb : s.busy = true) (h : EngineMoves s) (hi : CommandAt s (.jump a)) :
    ∃ t, step s = .next t ∧ t.busy = true ∧ t.cmdPtr = a ∧ t.cmdCount = s.cmdCount + 1 ∧ t.bufSize = s.bufSize ∧
      t.host = s.host.tail ∧ t.affected = s.affected ∧ t.mem = s.mem :=
  ⟨_, step_of_commandAt hb h hi, hb, rfl, rfl, rfl, rfl, rfl, rfl⟩

theorem step_of_unfetchable {s : State} (hb : s.busy = true) (h : EngineMoves s) (hf : s.fetchable = false) :
    step s = .next (({ s with host := s.host.tail } : State).fail .addressError fetchErrOp) := by
  rw [step_of_running h hb]
  exact cycle_of_unfetchable hf

theorem after_succ {s t : State} (n : Nat) (h : step s = .next t) : after (n + 1) s = after n t := by
  rw [after, h]

/-! ### START -/

theorem State.start_of_idle (s : State) (hb : s.busy = false) : s.start = s.startRun := by
  rw [State.start, hb, if_neg Bool.false_ne_true]

theorem State.start_of_busy (s : State) (hb : s.busy = true) : s.start = s := by
  rw [State.start, if_pos hb]

/-- A write of CTRL with START and without SOFT_RESET (10_state.md R24). -/
theorem State.writeReg_start (s : State) {v : Word} (hstart : v.getLsbD 0 = true) (hreset : v.getLsbD 1 = false) :
    s.writeReg 0x04 v = ({ s with irqEn := v.getLsbD 2 } : State).start := by
  rw [State.writeReg, if_pos rfl, State.writeCtrl, hreset, if_neg Bool.false_ne_true, if_pos hstart]

theorem step_of_start {s : State} {v : Word} (h : HostDoes s (.writeReg 0x04 4 v)) (hstart : v.getLsbD 0 = true)
    (hreset : v.getLsbD 1 = false) :
    ∃ rest, step s = .next ({ s with host := rest, irqEn := v.getLsbD 2 } : State).start := by
  obtain ⟨rest, hstep⟩ := step_writeReg (by decide) (by decide) h
  exact ⟨rest, by rw [hstep, State.writeReg_start _ hstart hreset]⟩

end Sys2Proof.Machine

namespace Sys2Proof.Proofs

open Sys2Proof.Machine Sys2Proof.Claims

/-- Settles O21: NOP is `advance` alone. -/
theorem nopOnlyCountsAndAdvances : Obligations.NopOnlyCountsAndAdvances := exec_nop

/-- Settles O22: HALT is `advance` with the flags of a halt. -/
theorem haltStopsTheSequencer : Obligations.HaltStopsTheSequencer := exec_halt

/-- Settles O23: JUMP stores its target unchecked; at a bad target no command runs, so nothing can have affected the run
and the second step is the fetch error of R132. -/
theorem jumpTakesItsTargetUnchecked : Obligations.JumpTakesItsTargetUnchecked := by
  refine ⟨exec_jump, fun a s hb hsilent hbad hcmd => ?_⟩
  obtain ⟨t, hfirst, htb, htptr, htcount, htsize, hthost, htaff, -⟩ :=
    step_of_jump hb (engineMoves_of_silent hsilent) hcmd
  have hf : t.fetchable = false := unfetchable_of_bad (by rwa [htptr, htsize])
  have hta : t.affected = false := htaff.trans (affected_eq_false_of_running hb hsilent.2)
  have htsilent : HostSilent t :=
    ⟨fun x hx => hsilent.1 x (List.mem_of_mem_tail (hthost ▸ hx)), affectedRun_of_unfetchable hta hf⟩
  have hsecond := step_of_unfetchable htb (engineMoves_of_silent htsilent) hf
  refine ⟨({ t with host := t.host.tail } : State).fail .addressError fetchErrOp,
    ?_, rfl, rfl, rfl, rfl, htptr, htcount⟩
  rw [after_succ 1 hfirst, after_succ 0 hsecond, after]

/-- Settles O51: while idle the write starts a run, and while BUSY the start is ignored and only IRQ_EN moves. -/
theorem startBeginsARun : Obligations.StartBeginsARun := by
  intro s v hwrite hstart hreset
  obtain ⟨rest, hstep⟩ := step_of_start hwrite hstart hreset
  refine ⟨_, hstep, fun hidle => ?_, fun hbusy => ?_⟩
  · have hrun := State.start_of_idle { s with host := rest, irqEn := v.getLsbD 2 } hidle
    rw [hrun]
    exact ⟨rfl, rfl, rfl, rfl, rfl, rfl, rfl, rfl, rfl, rfl, rfl, rfl, rfl, rfl, fun _ => rfl⟩
  · have hignored := State.start_of_busy { s with host := rest, irqEn := v.getLsbD 2 } hbusy
    rw [hignored]
    exact sameMachine_of_hostRecord { s with irqEn := v.getLsbD 2 } rest s.hostData s.synced

end Sys2Proof.Proofs
end

section
/-! SUPPORT. Which errors each command can raise (60_exceptions.md R301), computed along its checks and stages, and
the statement that a failing command takes the trap path with one of them and keeps everything else (40_sequencer.md
R134). -/

namespace Sys2Proof.Machine

open Sys2Proof.Claims

/-! ### The errors a computation can raise -/

/-- Every error of the computation is one of these. -/
def RaisesOnly {α : Type} (errs : List Err) (x : Except Err α) : Prop := ∀ e, x = .error e → e ∈ errs

section
variable {α β : Type} {errs : List Err}

@[simp] theorem raisesOnly_ok (a : α) : RaisesOnly errs (.ok a) := nofun

@[simp] theorem raisesOnly_pure (a : α) : RaisesOnly errs (pure a) := nofun

@[simp] theorem raisesOnly_error (e : Err) :
    RaisesOnly errs (.error e : Except Err α) ↔ e ∈ errs := by
  simp [RaisesOnly]

@[simp] theorem raisesOnly_bind (x : Except Err α) (f : α → Except Err β) :
    RaisesOnly errs (x >>= f) ↔ RaisesOnly errs x ∧ ∀ a, x = .ok a → RaisesOnly errs (f a) := by
  cases x <;> simp

@[simp] theorem raisesOnly_map (f : α → β) (x : Except Err α) : RaisesOnly errs (f <$> x) ↔ RaisesOnly errs x := by
  cases x <;> simp [Functor.map, Except.map]

/-- A computation with a single error. -/
theorem raisesOnly_of_error_eq {x : Except Err α} {e : Err} (h : ∀ e', x = .error e' → e' = e) (he : e ∈ errs) :
    RaisesOnly errs x := fun e' hx => h e' hx ▸ he

/-- An error handed on from `x`. -/
theorem RaisesOnly.rethrow {x : Except Err α} {e : Err} (h : RaisesOnly errs x) (hx : x = .error e) :
    RaisesOnly errs (.error e : Except Err β) := (raisesOnly_error e).mpr (h e hx)

@[simp] theorem raisesOnly_ite (c : Prop) [Decidable c] (x y : Except Err α) :
    RaisesOnly errs (if c then x else y) ↔ (c → RaisesOnly errs x) ∧ (¬c → RaisesOnly errs y) := by
  split <;> simp_all

end

section
variable {errs : List Err}

/-! ### The checks of R139 -/

@[simp] theorem needLen_raisesOnly (v lo hi : Nat) (h : Err.invalidInput ∈ errs) : RaisesOnly errs (needLen v lo hi) :=
  raisesOnly_of_error_eq (fun _ he => ((needLen_error ..).mp he).1) h

@[simp] theorem needRegion_raisesOnly (size : Nat) (r : Region) (al : Nat) (h : Err.addressError ∈ errs) :
    RaisesOnly errs (needRegion size r al) :=
  raisesOnly_of_error_eq (fun _ he => ((needRegion_error ..).mp he).1) h

@[simp] theorem noOverlap_raisesOnly (r q : Region) (h : Err.invalidInput ∈ errs) : RaisesOnly errs (noOverlap r q) :=
  raisesOnly_of_error_eq (fun _ he => ((noOverlap_error ..).mp he).1) h

@[simp] theorem needCap_raisesOnly (cap k : Nat) (h : Err.capacityExceeded ∈ errs) : RaisesOnly errs (needCap cap k) :=
  raisesOnly_of_error_eq (fun _ he => ((needCap_error ..).mp he).1) h

@[simp] theorem raiseIf_raisesOnly (c : Bool) (e : Err) (h : e ∈ errs) : RaisesOnly errs (raiseIf c e) := by
  cases c <;> simp [raiseIf, h]

/-! ### Output and token streams -/

@[simp] theorem emitAll_raisesOnly (cap : Option Nat) (out bs : List Byte) (h : Err.capacityExceeded ∈ errs) :
    RaisesOnly errs (emitAll cap out bs) :=
  raisesOnly_of_error_eq (fun _ he => emitAll_error cap out bs _ he) h

theorem emit_raisesOnly (cap : Option Nat) (out : List Byte) (b : Byte) (h : Err.capacityExceeded ∈ errs) :
    RaisesOnly errs (emit cap out b) := by
  unfold emit
  split
  · exact (raisesOnly_error _).mpr h
  · exact raisesOnly_ok _

@[simp] theorem parseTokens_raisesOnly (e : Err) (s : List Byte) (h : e ∈ errs) :
    RaisesOnly errs (parseTokens e s) := by
  induction s using stream_cases with
  | nil => simp [parseTokens]
  | lit b t hb ih =>
    rw [parseTokens_lit e b t hb]
    cases hp : parseTokens e t <;> simp_all
  | run k0 k1 k2 k3 r ih =>
    rw [parseTokens_run]
    cases hp : parseTokens e r <;> simp_all
  | short t ht => rw [parseTokens_short e t ht]; exact (raisesOnly_error e).mpr h

@[simp] theorem rleDecGo_raisesOnly (cap : Option Nat) (out s : List Byte)
    (h3 : Err.corruptStream ∈ errs) (h4 : Err.capacityExceeded ∈ errs) :
    RaisesOnly errs (rleDecGo cap out s) := by
  induction s using stream_cases generalizing out with
  | nil => simp [rleDecGo]
  | lit b t hb ih =>
    rw [rleDecGo_lit cap out b t hb]
    have hemit := emit_raisesOnly cap out b h4
    cases he : emit cap out b with
    | ok o => exact ih o
    | error e => exact hemit.rethrow he
  | run k0 k1 k2 k3 r ih =>
    rw [rleDecGo_run, emitZeros_eq]
    have hemit := emitAll_raisesOnly cap out (List.replicate (ofLe32 k0 k1 k2 k3).toNat 0) h4
    refine (raisesOnly_ite ..).mpr ⟨fun _ => (raisesOnly_error _).mpr h3, fun _ => ?_⟩
    cases he : emitAll cap out (List.replicate (ofLe32 k0 k1 k2 k3).toNat 0) with
    | ok o => exact ih o
    | error e => exact hemit.rethrow he
  | short t ht => rw [rleDecGo_short cap out t ht]; exact (raisesOnly_error _).mpr h3

/-! ### The pre-filter -/

/-- Each way the filter decoder stops is the end of the block or its one error (44_prefilter.md R223). -/
theorem fltDecGo_raisesOnly (n : Nat) (t : FilterTable) (out s : List Byte) (h : Err.corruptStream ∈ errs) :
    RaisesOnly errs (fltDecGo n t out s) := by
  fun_induction fltDecGo n t out s
  case case1 => exact raisesOnly_ok _
  case case4 ih | case6 ih | case9 ih => exact ih
  all_goals exact (raisesOnly_error _).mpr h

@[simp] theorem fltDecode_raisesOnly (s : List Byte) (n : Nat) (h : Err.corruptStream ∈ errs) :
    RaisesOnly errs (fltDecode s n) := fltDecGo_raisesOnly n [] [] s h

/-! ### The range coder -/

theorem shiftLow_raisesOnly (e : Enc) (h : Err.capacityExceeded ∈ errs) : RaisesOnly errs (shiftLow e) := by
  have hemit := emitAll_raisesOnly e.cap e.out (heldBytes e.cache e.csize (e.low >>> 32)) h
  unfold shiftLow
  refine (raisesOnly_ite ..).mpr ⟨fun _ => ?_, fun _ => raisesOnly_ok _⟩
  cases he : emitAll e.cap e.out (heldBytes e.cache e.csize (e.low >>> 32)) with
  | ok out => exact raisesOnly_ok _
  | error x => exact hemit.rethrow he

theorem encRenorm_raisesOnly (k : Nat) (e : Enc) (h : Err.capacityExceeded ∈ errs) :
    RaisesOnly errs (encRenorm k e) := by
  induction k generalizing e with
  | zero => exact raisesOnly_ok e
  | succ k ih => simp [encRenorm_succ, ih, shiftLow_raisesOnly, h]

theorem encodeBit_raisesOnly (e : Enc) (c : Ctx) (b : Bool) (h : Err.capacityExceeded ∈ errs) :
    RaisesOnly errs (encodeBit e c b) :=
  encRenorm_raisesOnly renormRounds (narrow e c b) h

theorem shiftTimes_raisesOnly (k : Nat) (e : Enc) (h : Err.capacityExceeded ∈ errs) :
    RaisesOnly errs (shiftTimes k e) := by
  induction k generalizing e with
  | zero => exact raisesOnly_ok e
  | succ k ih => simp [shiftTimes_succ, ih, shiftLow_raisesOnly, h]

theorem encodeTree_raisesOnly (mk : Nat → Ctx) (v k node : Nat) (e : Enc) (h : Err.capacityExceeded ∈ errs) :
    RaisesOnly errs (encodeTree mk v k node e) := by
  induction k generalizing node e with
  | zero => exact raisesOnly_ok e
  | succ k ih => simp [encodeTree_succ, ih, encodeBit_raisesOnly, h]

theorem encodeLowBits_raisesOnly (v k : Nat) (e : Enc) (h : Err.capacityExceeded ∈ errs) :
    RaisesOnly errs (encodeLowBits v k e) := by
  induction k generalizing e with
  | zero => exact raisesOnly_ok e
  | succ k ih => simp [encodeLowBits_succ, ih, encodeBit_raisesOnly, h]

theorem encodeToken_raisesOnly (e : Enc) (prev : Bool) (t : Token) (h : Err.capacityExceeded ∈ errs) :
    RaisesOnly errs (encodeToken e prev t) := by
  cases t <;> simp [encodeToken, encodeBit_raisesOnly, encodeTree_raisesOnly, encodeLowBits_raisesOnly, h]

theorem encodeTokensGo_raisesOnly (maxBlock : Nat) (e : Enc) (prev : Bool) (m : Nat) (ts : List Token)
    (h1 : Err.invalidInput ∈ errs) (h4 : Err.capacityExceeded ∈ errs) :
    RaisesOnly errs (encodeTokensGo maxBlock e prev m ts) := by
  induction ts generalizing e prev m with
  | nil => exact raisesOnly_ok _
  | cons t ts ih =>
    have htoken := encodeToken_raisesOnly e prev t h4
    unfold encodeTokensGo
    cases he : encodeToken e prev t with
    | ok e' => exact (raisesOnly_ite ..).mpr ⟨fun _ => (raisesOnly_error _).mpr h1, fun _ => ih _ _ _⟩
    | error x => exact htoken.rethrow he

@[simp] theorem rcEncode_raisesOnly (maxBlock : Nat) (cap : Option Nat) (ts : List Token) (h1 : Err.invalidInput ∈ errs)
    (h4 : Err.capacityExceeded ∈ errs) : RaisesOnly errs (rcEncode maxBlock cap ts) := by
  have hgo := encodeTokensGo_raisesOnly maxBlock (Enc.init cap) false 0 ts h1 h4
  unfold rcEncode
  cases he : encodeTokensGo maxBlock (Enc.init cap) false 0 ts with
  | error x => exact hgo.rethrow he
  | ok r =>
    have hflush := shiftTimes_raisesOnly 5 r.1 h4
    simp only [flushEnc]
    cases hf : shiftTimes 5 r.1 with
    | ok e' => exact raisesOnly_ok _
    | error x => exact hflush.rethrow hf

theorem rcDecode_raisesOnly (cap : Option Nat) (p : List Byte) (m : Nat) (hm : m < 2 ^ 32)
    (h3 : Err.corruptStream ∈ errs) (h4 : Err.capacityExceeded ∈ errs) : RaisesOnly errs (rcDecode cap p m) := by
  unfold rcDecode
  cases hx : Dec.init p with
  | error e => simpa [init_error p e hx] using h3
  | ok x =>
    obtain ⟨-, hready⟩ := init_starts p x hx
    simp only
    cases hgo : decodeTokensGo cap m x false m [] with
    | error e =>
      obtain rfl | ⟨rfl, -⟩ := tokensGo_error cap m m x false [] e hready hm hgo
      · exact (raisesOnly_error _).mpr h3
      · exact (raisesOnly_error _).mpr h4
    | ok r => exact (raisesOnly_ite ..).mpr ⟨fun _ => raisesOnly_ok _, fun _ => (raisesOnly_error _).mpr h3⟩

@[simp] theorem rcDecode_word_raisesOnly (cap : Option Nat) (p : List Byte) (m : Word) (h3 : Err.corruptStream ∈ errs)
    (h4 : Err.capacityExceeded ∈ errs) : RaisesOnly errs (rcDecode cap p m.toNat) :=
  rcDecode_raisesOnly cap p m.toNat m.isLt h3 h4

end

/-! ### Every command -/

/-- The errors of `raises` (60_exceptions.md R301) by name. -/
def errorsOf : Instr → List Err
  | .nop => []
  | .halt => []
  | .jump _ => []
  | .saCheck _ _ => [.invalidInput, .corruptStream, .addressError]
  | .rleDec _ _ => [.invalidInput, .corruptStream, .capacityExceeded, .addressError]
  | .fltDec _ _ _ => [.invalidInput, .corruptStream, .capacityExceeded, .addressError]
  | .rcDec _ _ _ => [.invalidInput, .corruptStream, .capacityExceeded, .addressError]
  | .crc32 _ => [.addressError]
  | .decompress _ _ => [.invalidInput, .unsupportedFormat, .corruptStream, .capacityExceeded, .addressError]
  | _ => [.invalidInput, .capacityExceeded, .addressError]

theorem map_code_errorsOf (i : Instr) : (errorsOf i).map Err.code = raises i := by
  cases i <;> rfl

theorem checksOf_raisesOnly (i : Instr) (s : State) : RaisesOnly (errorsOf i) (checksOf i s) := by
  cases i <;>
    simp [checksOf, errorsOf, sortChecks, saCheckChecks, bwtFwdChecks, bwtInvChecks, mapChecks, rleEncChecks,
      rleDecChecks, fltEncChecks, fltDecChecks, rcEncChecks, rcDecChecks, crcChecks, compressChecks, decompressChecks]

theorem bwtOrder_raisesOnly {errs : List Err} (internal : Bool) (aux : Word) (b : List Byte) (s : State)
    (h : Err.invalidInput ∈ errs) : RaisesOnly errs (bwtOrder internal aux b s) := by
  simp [bwtOrder, h]

theorem compressBlock_raisesOnly {errs : List Err} (maxBlock : Nat) (b : List Byte) (tf : Bool)
    (h1 : Err.invalidInput ∈ errs) (h4 : Err.capacityExceeded ∈ errs) :
    RaisesOnly errs (compressBlock maxBlock b tf) := by
  simp [compressBlock, h1, h4]

theorem decompressBlock_raisesOnly {errs : List Err} (maxBlock : Nat) (e : List Byte) (cap : Nat)
    (h2 : Err.unsupportedFormat ∈ errs) (h3 : Err.corruptStream ∈ errs) (h4 : Err.capacityExceeded ∈ errs) :
    RaisesOnly errs (decompressBlock maxBlock e cap) := by
  simp [decompressBlock, decodeBlock, h2, h3, h4]

/-- R301 for the commands with a destination: the checks, then the stages that can fail. -/
theorem dataResult_raisesOnly {i : Instr} {s : State} {r : Except Err Done} (h : dataResult i s = some r) :
    RaisesOnly (errorsOf i) r := by
  have hchecks := checksOf_raisesOnly i s
  cases i <;> cases h <;> simp only [checksOf, errorsOf] at hchecks ⊢
  case sort => simp [sortResult, hchecks]
  case bwtFwd => simp [bwtFwdResult, hchecks, bwtOrder_raisesOnly]
  case bwtInv => simp [bwtInvResult, hchecks]
  case mtfEnc | mtfDec => simp [mapResult, hchecks]
  case rleEnc => simp [rleEncResult, hchecks]
  case rleDec => simp [rleDecResult, hchecks]
  case fltEnc => simp [fltEncResult, hchecks]
  case fltDec => simp [fltDecResult, hchecks]
  case rcEnc => simp [rcEncResult, hchecks]
  case rcDec => simp [rcDecResult, hchecks]
  case compress => simp [compressResult, hchecks, compressBlock_raisesOnly]
  case decompress => simp [decompressResult, hchecks, decompressBlock_raisesOnly]

/-- R301 for the data commands without a destination. -/
theorem scalarResult_raisesOnly {i : Instr} {s : State} {r : Except Err Word} (h : scalarResult i s = some r) :
    RaisesOnly (errorsOf i) r := by
  have hchecks := checksOf_raisesOnly i s
  cases i <;> cases h <;> simp only [checksOf, errorsOf] at hchecks ⊢
  case saCheck => simp [saCheckResult, hchecks]
  case crc32 => simp [crcResult, hchecks]

/-! ### How a command fails -/

/-- No command raises ILLEGAL_COMMAND once it is decoded, so its code is one of the other five (R300, R301). -/
theorem code_mem_of_mem_errorsOf {i : Instr} {e : Err} (h : e ∈ errorsOf i) :
    e.code ∈ ([0x01, 0x02, 0x03, 0x04, 0x11] : List Byte) := by
  have hlegal : Err.illegalCommand ∉ errorsOf i := by cases i <;> simp [errorsOf]
  cases e
  case illegalCommand => exact absurd h hlegal
  all_goals decide

theorem destination_eq (i : Instr) : destination i = ⟨dstAddr i, dstCap i⟩ := by
  cases i <;> rfl

theorem has_eq_false_of_not_within {r : Region} {x : Nat} (h : ¬Within r.addr r.len x) : r.has x = false := by
  simpa [Region.has, Within] using h

/-- A command that raises an error, with ERR clear before: which error, and the state the trap path leaves (R134). -/
theorem exec_failure {i : Instr} {s t : State} (hs : s.err = false) (h : exec i s = .next t) (ht : t.err = true) :
    ∃ e ∈ errorsOf i, t = (s.scramble (destination i)).fail e i.opcode ∨ t = s.fail e i.opcode := by
  rcases exec_cases i s t h with
    ⟨-, rfl⟩ | ⟨-, rfl⟩ | ⟨a, -, rfl⟩ | ⟨x, -, rfl⟩ | ⟨e, hr, rfl⟩ | ⟨w, -, rfl⟩ | ⟨e, hr, rfl⟩
  · simp [hs] at ht
  · simp [hs] at ht
  · simp [hs] at ht
  · simp [hs] at ht
  · exact ⟨e, dataResult_raisesOnly hr e rfl, .inl rfl⟩
  · simp [hs] at ht
  · exact ⟨e, scalarResult_raisesOnly hr e rfl, .inr rfl⟩

end Sys2Proof.Machine

namespace Sys2Proof.Proofs

open Sys2Proof.Machine Sys2Proof.Claims

/-- Settles O15: a failing command takes the trap path with an error of its own list, having changed at most bytes of
its destination. -/
theorem failureIsPrecise : Obligations.FailureIsPrecise := by
  intro i s t hs h ht
  obtain ⟨e, he, rfl | rfl⟩ := exec_failure hs h ht
  · refine ⟨code_mem_of_mem_errorsOf he, _, _, h, fun x hx => ?_⟩
    rw [destination_eq]
    exact byte_scramble_outside s _ x (has_eq_false_of_not_within hx)
  · exact ⟨code_mem_of_mem_errorsOf he, _, _, h, fun _ _ => rfl⟩

end Sys2Proof.Proofs
end

section
/-! SUPPORT. The checks a command makes against the tables of 40_sequencer.md R139, and the two ends of a data command
in the terms of the statements: the first check that fails is the error it reports (R134), and a command that computes
a result completes with it (R133). -/

namespace Sys2Proof.Machine

open Sys2Proof.Claims

/-! ### The error of a list of checks -/

/-- The code of the error a computation ends with, if any. -/
def errorCode {α : Type} : Except Err α → Option Byte
  | .ok _ => none
  | .error e => some e.code

@[simp] theorem errorCode_ok {α : Type} (a : α) : errorCode (.ok a) = none := rfl

@[simp] theorem errorCode_error {α : Type} (e : Err) : errorCode (.error e : Except Err α) = some e.code := rfl

@[simp] theorem errorCode_pure {α : Type} (a : α) : errorCode (pure a) = none := rfl

theorem errorCode_eq_none_iff (x : Except Err Unit) : errorCode x = none ↔ x = .ok () := by
  cases x <;> simp

theorem errorCode_eq_some_iff {α : Type} (x : Except Err α) (code : Byte) :
    errorCode x = some code ↔ ∃ e, x = .error e ∧ e.code = code := by
  cases x <;> simp

/-- Of two checks in order the first one that fails is reported. -/
theorem errorCode_bind (x : Except Err Unit) (f : Unit → Except Err Unit) :
    errorCode (x >>= f) = (errorCode x).or (errorCode (f ())) := by
  cases x <;> simp

theorem errorCode_forM {α : Type} {check : α → Except Err Unit} {bad : α → Bool} {code : Byte}
    (h : ∀ c, errorCode (check c) = if bad c then some code else none) (cs : List α) :
    errorCode (forM cs check) = if cs.any bad then some code else none := by
  induction cs with
  | nil => simp
  | cons c cs ih =>
    rw [List.forM_cons, errorCode_bind, h, ih]
    cases hc : bad c <;> simp [hc]

/-! ### The checks of R139, one for each row of a table -/

/-- The check of a row of `lengthChecks`. -/
def checkLength (c : Nat × Nat × Nat) : Except Err Unit := needLen c.1 c.2.1 c.2.2

/-- The check of a row of `regionChecks` in a buffer of `size` bytes. -/
def checkRegion (size : Nat) (c : Nat × Nat × Nat) : Except Err Unit := needRegion size ⟨c.1, c.2.1⟩ c.2.2

/-- The check of a row of `overlapChecks` against the destination `dst`. -/
def checkOverlap (dst : Region) (c : Nat × Nat × Nat) : Except Err Unit := noOverlap dst ⟨c.1, c.2.1⟩

theorem errorCode_checkLength (c : Nat × Nat × Nat) :
    errorCode (checkLength c) = if c.1 < c.2.1 || c.2.2 < c.1 then some 0x01 else none := by
  simp only [checkLength, needLen, Bool.or_eq_true, decide_eq_true_eq, gt_iff_lt]
  split <;> rfl

theorem errorCode_checkRegion (size : Nat) (c : Nat × Nat × Nat) :
    errorCode (checkRegion size c) = if c.1 % c.2.2 != 0 || size < c.1 + c.2.1 then some 0x11 else none := by
  simp only [checkRegion, needRegion, Bool.or_eq_true, bne_iff_ne, decide_eq_true_eq, gt_iff_lt]
  split <;> rfl

theorem errorCode_checkOverlap (a k : Nat) (c : Nat × Nat × Nat) :
    errorCode (checkOverlap ⟨a, k⟩ c) = if clashes a k c then some 0x01 else none := by
  have hclash : clashes a k c = Region.overlaps ⟨a, k⟩ ⟨c.1, c.2.1⟩ := rfl
  rw [checkOverlap, noOverlap, hclash]
  split <;> rfl

theorem errorCode_needCap (cap k : Nat) : errorCode (needCap cap k) = if cap < k then some 0x04 else none := by
  rw [needCap]
  split <;> rfl

/-- A command with no output length known beforehand has no capacity check. -/
@[simp] theorem needCap_zero (cap : Nat) : needCap cap 0 = .ok () := (needCap_ok cap 0).mpr cap.zero_le

/-- The checks of R139 in the order of its tables. -/
def tableChecks (i : Instr) (s : State) : Except Err Unit := do
  forM (lengthChecks s i) checkLength
  forM (regionChecks i) (checkRegion s.size)
  forM (overlapChecks i) (checkOverlap (destination i))
  needCap (dstCap i) (knownOutput i)

theorem errorCode_tableChecks (i : Instr) (s : State) : errorCode (tableChecks i s) = firstError i s := by
  have hfirst (c : Bool) (code : Byte) (later : Option Byte) :
      (if c then some code else none).or later = if c then some code else later := by cases c <;> rfl
  rw [tableChecks, destination_eq, errorCode_bind, errorCode_bind, errorCode_bind,
    errorCode_forM errorCode_checkLength, errorCode_forM (errorCode_checkRegion s.size),
    errorCode_forM (errorCode_checkOverlap _ _), errorCode_needCap, hfirst, hfirst, hfirst]
  rfl

@[simp] theorem bind_ok_unit (x : Except Err Unit) : (x >>= fun _ => .ok ()) = x := by
  cases x <;> rfl

/-- Every command makes the checks of its rows, in their order. -/
theorem checksOf_eq_tableChecks (i : Instr) (s : State) : checksOf i s = tableChecks i s := by
  cases i
  case bwtFwd internal src dst aux =>
    cases internal <;>
      simp [checksOf, bwtFwdChecks, tableChecks, lengthChecks, regionChecks, overlapChecks, knownOutput] <;> rfl
  all_goals
    simp [checksOf, sortChecks, saCheckChecks, bwtInvChecks, mapChecks, rleEncChecks, rleDecChecks, fltEncChecks,
      fltDecChecks, rcEncChecks, rcDecChecks, crcChecks, compressChecks, decompressChecks, tableChecks, lengthChecks,
      regionChecks, overlapChecks, knownOutput] <;> rfl

theorem errorCode_checksOf (i : Instr) (s : State) : errorCode (checksOf i s) = firstError i s := by
  rw [checksOf_eq_tableChecks, errorCode_tableChecks]

theorem checksOf_ok_iff (i : Instr) (s : State) : checksOf i s = .ok () ↔ firstError i s = none := by
  rw [← errorCode_checksOf, errorCode_eq_none_iff]

/-! ### The ends of a data command as the statements say them -/

theorem fails_of_dataResult {i : Instr} {s : State} {e : Err} (h : dataResult i s = some (.error e)) :
    Fails i s e.code := by
  refine ⟨(s.scramble (destination i)).mem, (s.scramble (destination i)).draws, exec_data i s _ h, fun x hx => ?_⟩
  rw [destination_eq]
  exact byte_scramble_outside s _ x (has_eq_false_of_not_within hx)

theorem fails_of_scalarResult {i : Instr} {s : State} {e : Err} (h : scalarResult i s = some (.error e)) :
    Fails i s e.code :=
  ⟨s.mem, s.draws, exec_scalar i s _ h, fun _ _ => rfl⟩

theorem stored_write (m : Memory) (a : Nat) (out : List Byte) : Stored m (m.write a out) a out := by
  refine ⟨fun k hk => byte_write_inside m a k out hk, fun x hx => byte_write_outside m a x out ?_⟩
  unfold Within at hx
  omega

theorem succeeds_of_dataResult {i : Instr} {s : State} {x : Done} (h : dataResult i s = some (.ok x)) :
    Succeeds i s (destination i).addr x.out x.r1 :=
  ⟨s.mem.write (destination i).addr x.out, exec_data i s _ h, stored_write ..⟩

theorem succeedsQuietly_of_scalarResult {i : Instr} {s : State} {w : Word} (h : scalarResult i s = some (.ok w)) :
    SucceedsQuietly i s w :=
  exec_scalar i s _ h

/-! ### A check that fails -/

/-- A data command makes its checks first, so their error is its result. -/
theorem result_of_checksOf_error {i : Instr} {s : State} {e : Err} (h : checksOf i s = .error e) :
    dataResult i s = some (.error e) ∨ scalarResult i s = some (.error e) := by
  cases i <;> simp only [checksOf, reduceCtorEq] at h
  case saCheck => right; simp [scalarResult, saCheckResult, h]
  case crc32 => right; simp [scalarResult, crcResult, h]
  all_goals
    left
    simp [dataResult, sortResult, bwtFwdResult, bwtInvResult, mapResult, rleEncResult, rleDecResult, fltEncResult,
      fltDecResult, rcEncResult, rcDecResult, compressResult, decompressResult, h]

/-- R139: the first check that fails is the error the command reports. -/
theorem checksRaise (i : Instr) (s : State) : ChecksRaise i s := by
  intro code hcode
  rw [← errorCode_checksOf, errorCode_eq_some_iff] at hcode
  obtain ⟨e, he, rfl⟩ := hcode
  exact (result_of_checksOf_error he).elim fails_of_dataResult fails_of_scalarResult

end Sys2Proof.Machine
end

section
/-! SUPPORT. The order of rotations (41_suffix_sort.md R150): the relation of the statements, the model's test and the
order of numbers agree; what the model's sort gives and what the checks of SA_CHECK accept (R152, R153); and the
statements about SORT and SA_CHECK. -/

namespace Sys2Proof.Machine

open Sys2Proof.Claims

/-! ### Rotations as strings of numbers -/

/-- The bytes of `rot(B, i)` as numbers, in the order of lists of numbers. -/
def rotNumbers (b : List Byte) (i : Nat) : List Nat := (rot b i).map BitVec.toNat

theorem rot_eq_rotate {b : List Byte} {i : Nat} (hi : i < b.length) : rot b i = b.rotate i :=
  (List.rotate_eq_drop_append_take hi.le).symm

theorem rotNumbers_length {b : List Byte} {i : Nat} (hi : i < b.length) : (rotNumbers b i).length = b.length := by
  rw [rotNumbers, rot_eq_rotate hi, List.length_map, List.length_rotate]

theorem rotNumbers_getElem {b : List Byte} {i k : Nat} (hi : i < b.length) (hk : k < (rotNumbers b i).length) :
    (rotNumbers b i)[k] = (rotByte b i k).toNat := by
  have hmod : (k + i) % b.length < b.length := Nat.mod_lt _ (by omega)
  simp [rotNumbers, rot_eq_rotate hi, List.getElem_rotate, rotByte, Nat.add_comm i k, hmod]

theorem rotLess_iff {b : List Byte} {i j : Nat} (hi : i < b.length) (hj : j < b.length) :
    RotLess b i j ↔ rotNumbers b i < rotNumbers b j := by
  simp [List.lt_iff_exists, rotNumbers_length, rotNumbers_getElem, hi, hj, RotLess, BitVec.toNat_inj, and_left_comm]

theorem rotEqual_iff {b : List Byte} {i j : Nat} (hi : i < b.length) (hj : j < b.length) :
    RotEqual b i j ↔ rotNumbers b i = rotNumbers b j := by
  simp [List.ext_getElem_iff, rotNumbers_length, rotNumbers_getElem, hi, hj, RotEqual, BitVec.toNat_inj]

/-! ### The model's test -/

theorem lexLt_iff (xs ys : List Byte) (h : xs.length = ys.length) :
    lexLt xs ys = true ↔ xs.map BitVec.toNat < ys.map BitVec.toNat := by
  induction xs generalizing ys with
  | nil => cases ys <;> simp_all [lexLt]
  | cons x xs ih =>
    cases ys with
    | nil => simp at h
    | cons y ys => simp [lexLt, List.cons_lt_cons_iff, BitVec.toNat_inj, ih ys (by simpa using h)]

/-- What `SA(B)` is sorted by: the rotation, then the index (R150). -/
def rotKey (b : List Byte) (i : Nat) : List Nat ×ₗ Nat := toLex (rotNumbers b i, i)

theorem rotKey_injective (b : List Byte) : Function.Injective (rotKey b) := by
  intro i j h
  exact (Prod.mk.inj (toLex.injective h)).2

theorem before_iff (b : List Byte) (i j : Nat) : before b i j = true ↔ rotKey b i < rotKey b j := by
  have hlength : (rot b i).length = (rot b j).length := by simp [rot]; omega
  have hequal : rot b i = rot b j ↔ rotNumbers b i = rotNumbers b j :=
    (List.map_inj_right fun _ _ => BitVec.eq_of_toNat_eq).symm
  rw [rotKey, rotKey, Prod.Lex.toLex_lt_toLex, ← hequal, rotNumbers, rotNumbers, ← lexLt_iff _ _ hlength]
  simp [before]

/-- `before` is the order of the statements. -/
theorem before_iff_rotLess {b : List Byte} {i j : Nat} (hi : i < b.length) (hj : j < b.length) :
    before b i j = true ↔ RotLess b i j ∨ RotEqual b i j ∧ i < j := by
  rw [before_iff, rotLess_iff hi hj, rotEqual_iff hi hj, rotKey, rotKey, Prod.Lex.toLex_lt_toLex]

theorem before_trans {b : List Byte} {i j k : Nat} (hij : before b i j = true) (hjk : before b j k = true) :
    before b i k = true := by
  rw [before_iff] at hij hjk ⊢
  exact hij.trans hjk

/-- Of two positions one comes first. -/
theorem before_of_not_before {b : List Byte} {i j : Nat} (hne : i ≠ j) (h : ¬before b i j = true) :
    before b j i = true := by
  rw [before_iff, not_lt] at h
  exact (before_iff b j i).mpr (h.lt_of_ne fun heq => hne (rotKey_injective b heq.symm))

/-- R150 as a chain: no entry twice, all of them positions, each before its successor. -/
theorem isSuffixOrder_iff (b : List Byte) (sa : List Nat) :
    IsSuffixOrder b sa ↔
      sa.length = b.length ∧ sa.Nodup ∧ (∀ x ∈ sa, x < b.length) ∧ sa.IsChain fun i j => before b i j = true := by
  refine and_congr_right fun hlength => and_congr_right fun _ => and_congr_right fun hin => ?_
  rw [List.isChain_iff_getElem, ← hlength]
  refine forall₂_congr fun i hnext => ?_
  have hfirst : i < sa.length := by omega
  rw [before_iff_rotLess (hin _ (sa.getElem_mem hfirst)) (hin _ (sa.getElem_mem hnext)),
    List.getD_eq_getElem _ _ hfirst, List.getD_eq_getElem _ _ hnext]

/-! ### The model's sort -/

theorem insertPosition_pairwise {b : List Byte} {i : Nat} {js : List Nat} (hnew : i ∉ js)
    (h : js.Pairwise fun x y => before b x y = true) :
    (insertPosition b i js).Pairwise fun x y => before b x y = true := by
  induction js with
  | nil => simp [insertPosition]
  | cons j js ih =>
    obtain ⟨hne, hnew⟩ : i ≠ j ∧ i ∉ js := by simpa using hnew
    obtain ⟨hj, hjs⟩ := List.pairwise_cons.mp h
    rw [insertPosition]
    split
    case isTrue hij =>
      refine .cons (fun k hk => ?_) h
      obtain rfl | hk := List.mem_cons.mp hk
      · exact hij
      · exact before_trans hij (hj k hk)
    case isFalse hij =>
      refine .cons (fun k hk => ?_) (ih hnew hjs)
      obtain rfl | hk := List.mem_cons.mp ((insertPosition_perm b i js).mem_iff.mp hk)
      · exact before_of_not_before hne hij
      · exact hj k hk

theorem sortPositions_pairwise {b : List Byte} {is : List Nat} (h : is.Nodup) :
    (sortPositions b is).Pairwise fun x y => before b x y = true := by
  induction is with
  | nil => exact .nil
  | cons i is ih =>
    obtain ⟨hi, his⟩ := List.nodup_cons.mp h
    exact insertPosition_pairwise (mt (sortPositions_perm b is).mem_iff.mp hi) (ih his)

theorem suffixOrder_perm (b : List Byte) : (suffixOrder b).Perm (List.range b.length) := by
  rw [List.range_eq_range', ← positionsFrom_eq_range]
  exact sortPositions_perm b _

theorem isSuffixOrder_suffixOrder (b : List Byte) : IsSuffixOrder b (suffixOrder b) := by
  have hperm := suffixOrder_perm b
  have hpositions : (positionsFrom 0 b.length).Nodup := by
    rw [positionsFrom_eq_range]
    exact List.nodup_range'
  exact (isSuffixOrder_iff b _).mpr ⟨suffixOrder_length b, hperm.nodup_iff.mpr List.nodup_range,
    fun x hx => List.mem_range.mp (hperm.mem_iff.mp hx), (sortPositions_pairwise hpositions).isChain⟩

/-! ### The checks of SA_CHECK -/

theorem isPermutation_iff (n : Nat) (seen a : List Nat) :
    isPermutation n seen a = true ↔ a.Nodup ∧ (∀ x ∈ a, x < n) ∧ ∀ x ∈ a, x ∉ seen := by
  induction a generalizing seen with
  | nil => simp [isPermutation]
  | cons x xs ih =>
    have hseen : (∀ y ∈ xs, y ∉ x :: seen) ↔ x ∉ xs ∧ ∀ y ∈ xs, y ∉ seen := by
      simp only [List.mem_cons, not_or, forall₂_and, List.forall_mem_ne']
    have hstep : isPermutation n seen (x :: xs) = true ↔
        (x < n ∧ x ∉ seen) ∧ xs.Nodup ∧ (∀ y ∈ xs, y < n) ∧ x ∉ xs ∧ ∀ y ∈ xs, y ∉ seen := by
      simp [isPermutation, ih (x :: seen), ← hseen]
    rw [hstep, List.nodup_cons, List.forall_mem_cons, List.forall_mem_cons]
    tauto

theorem inSuffixOrder_iff (b : List Byte) (a : List Nat) :
    inSuffixOrder b a = true ↔ a.IsChain fun i j => before b i j = true := by
  match a with
  | [] | [_] => simp [inSuffixOrder]
  | x :: y :: r => simp [inSuffixOrder, inSuffixOrder_iff b (y :: r)]

/-- SA_CHECK accepts an array of the block's length exactly when it is the suffix order. -/
theorem saCheck_accepts_iff {b : List Byte} {a : List Nat} (h : a.length = b.length) :
    (isPermutation b.length [] a && inSuffixOrder b a) = true ↔ IsSuffixOrder b a := by
  simp [isSuffixOrder_iff, isPermutation_iff, inSuffixOrder_iff, h, and_assoc]

/-! ### Suffix-order arrays in memory -/

theorem orderBytes_eq_arrayBytes (sa : List Nat) : orderBytes sa = arrayBytes sa := by
  induction sa with
  | nil => rfl
  | cons x xs ih => rw [arrayBytes, ← ih]; rfl

theorem array_eq_map (s : State) (a n : Nat) :
    s.array a n = (List.range n).map fun j => (s.mem.read32 (a + 4 * j)).toNat := by
  induction n generalizing a with
  | zero => rfl
  | succ n ih =>
    simp [State.array, ih, List.range_succ_eq_map, Nat.mul_succ, Nat.add_assoc, Nat.add_comm 4]

theorem orderIn_eq_array (s : State) (aux : Word) (n : Nat) : orderIn s aux n = s.array aux.toNat n :=
  (array_eq_map s aux.toNat n).symm

/-! ### The results of SORT and SA_CHECK -/

theorem sortResult_of_checks {src dst : Span} {s : State} (h : firstError (.sort src dst) s = none) :
    sortResult src dst s = .ok ⟨orderBytes (suffixOrder (s.source src)), 0⟩ := by
  have hchecks : sortChecks src dst s = .ok () := (checksOf_ok_iff (.sort src dst) s).mpr h
  rw [sortResult, hchecks, orderBytes_eq_arrayBytes]
  rfl

open Classical in
theorem saCheckResult_of_checks {src : Span} {aux : Word} {s : State} (h : firstError (.saCheck src aux) s = none) :
    saCheckResult src aux s =
      if IsSuffixOrder (s.source src) (orderIn s aux src.len.toNat) then .ok 0 else .error .corruptStream := by
  have hchecks : saCheckChecks src aux s = .ok () := (checksOf_ok_iff (.saCheck src aux) s).mpr h
  have haccepts := saCheck_accepts_iff (b := s.source src) (a := s.array aux.toNat src.len.toNat) (by simp)
  rw [source_length] at haccepts
  simp only [saCheckResult, hchecks, ok_bind, haccepts, orderIn_eq_array]

end Sys2Proof.Machine

namespace Sys2Proof.Proofs

open Sys2Proof.Machine Sys2Proof.Claims

/-- Settles O24: once the checks pass, SORT stores the array of `suffixOrder`, which insertion by the key of R150 keeps
in order. -/
theorem sortWritesTheSuffixOrder : Obligations.SortWritesTheSuffixOrder := by
  intro src dst s
  refine ⟨checksRaise _ s, fun hpass => ?_⟩
  have hresult : dataResult (.sort src dst) s = some (.ok ⟨orderBytes (suffixOrder (s.source src)), 0⟩) :=
    congrArg some (sortResult_of_checks hpass)
  refine ⟨suffixOrder (s.source src), isSuffixOrder_suffixOrder _, ?_, succeeds_of_dataResult hresult⟩
  simp [orderBytes_eq_arrayBytes]

/-- Settles O25: the two tests of SA_CHECK together say that the array is the suffix order. -/
theorem saCheckVerifiesTheSuffixOrder : Obligations.SaCheckVerifiesTheSuffixOrder := by
  intro src aux s
  refine ⟨checksRaise _ s, fun hpass => ⟨fun horder => ?_, fun horder => ?_⟩⟩
  · have hresult : saCheckResult src aux s = .ok 0 := by rw [saCheckResult_of_checks hpass, if_pos horder]
    exact succeedsQuietly_of_scalarResult (congrArg some hresult)
  · have hresult : saCheckResult src aux s = .error .corruptStream := by
      rw [saCheckResult_of_checks hpass, if_neg horder]
    exact fails_of_scalarResult (i := .saCheck src aux) (congrArg some hresult)

end Sys2Proof.Proofs
end

section
/-! SUPPORT. The functions of the block transform against the relations of the statements (42_bwt.md R170, R171), the
orders BWT_FWD takes and refuses (R172), and the statements about BWT_FWD and BWT_INV. -/

namespace Sys2Proof.Machine

open Sys2Proof.Claims

/-! ### The length checks -/

/-- When no check fails, each value of R139 (1) lies between its bounds. -/
theorem lengthChecks_of_firstError {i : Instr} {s : State} (h : firstError i s = none) {c : Nat × Nat × Nat}
    (hc : c ∈ lengthChecks s i) : c.2.1 ≤ c.1 ∧ c.1 ≤ c.2.2 := by
  rw [firstError] at h
  split at h
  · cases h
  · next hnone => simpa using List.any_eq_false.mp (Bool.of_not_eq_true hnone) c hc

/-! ### The forward transform -/

/-- An order of the block's length with an entry 0 is enough for R170: it need not be a permutation. -/
theorem bwtForward_isBwt {b : List Byte} {order : List Nat} (hlength : order.length = b.length) (hzero : 0 ∈ order) :
    IsBwt b order (bwtForward b order).1 (bwtForward b order).2 := by
  have hprimary : order.idxOf 0 < order.length := List.idxOf_lt_length_iff.mpr hzero
  refine ⟨by simp [hlength], fun i hi => ?_, hlength ▸ hprimary, ?_, fun j hj => ?_⟩
  · simp [bwtForward, hlength, hi]
  · simp [bwtForward, hprimary]
  · have hbefore : j < order.idxOf 0 := hj
    rw [List.getD_eq_getElem _ _ (hbefore.trans hprimary)]
    simpa using List.not_of_lt_findIdx hbefore

theorem zero_mem_suffixOrder {b : List Byte} (h : 0 < b.length) : 0 ∈ suffixOrder b :=
  (suffixOrder_perm b).mem_iff.mpr (List.mem_range.mpr h)

/-! ### The order BWT_FWD uses -/

theorem bwtOrder_of_not_usable {aux : Word} {b : List Byte} {s : State}
    (h : (∃ x ∈ s.array aux.toNat b.length, b.length ≤ x) ∨ 0 ∉ s.array aux.toNat b.length) :
    bwtOrder false aux b s = .error .invalidInput := by
  simp only [bwtOrder, Bool.false_eq_true, if_false, List.any_eq_true, decide_eq_true_eq]
  split
  · rfl
  · next hrange => simp [h.resolve_left hrange]

theorem bwtOrder_of_usable {aux : Word} {b : List Byte} {s : State}
    (hrange : ∀ x ∈ s.array aux.toNat b.length, x < b.length) (hzero : 0 ∈ s.array aux.toNat b.length) :
    bwtOrder false aux b s = .ok (s.array aux.toNat b.length) := by
  have hnone : ¬∃ x ∈ s.array aux.toNat b.length, b.length ≤ x := by simpa using hrange
  simp [bwtOrder, hnone, hzero]

/-! ### The result of BWT_FWD -/

section
variable {internal : Bool} {src dst : Span} {aux : Word} {s : State}
  (hpass : firstError (.bwtFwd internal src dst aux) s = none)
include hpass

theorem bwtFwdResult_of_checks :
    bwtFwdResult internal src dst aux s = do
      let order ← bwtOrder internal aux (s.source src) s
      return ⟨(bwtForward (s.source src) order).1, BitVec.ofNat 32 (bwtForward (s.source src) order).2⟩ := by
  have hchecks : bwtFwdChecks internal src dst aux s = .ok () :=
    (checksOf_ok_iff (.bwtFwd internal src dst aux) s).mpr hpass
  rw [bwtFwdResult, hchecks]
  rfl

theorem bwtFwd_fails_of_bwtOrder {e : Err} (h : bwtOrder internal aux (s.source src) s = .error e) :
    Fails (.bwtFwd internal src dst aux) s e.code := by
  have hresult : bwtFwdResult internal src dst aux s = .error e := by
    rw [bwtFwdResult_of_checks hpass, h]
    rfl
  exact fails_of_dataResult (congrArg some hresult)

theorem bwtFwd_succeeds_of_bwtOrder {order : List Nat} (h : bwtOrder internal aux (s.source src) s = .ok order)
    (hlength : order.length = (s.source src).length) (hzero : 0 ∈ order) :
    ∃ l p, IsBwt (s.source src) order l p ∧
      Succeeds (.bwtFwd internal src dst aux) s dst.addr.toNat l (BitVec.ofNat 32 p) := by
  refine ⟨_, _, bwtForward_isBwt hlength hzero, ?_⟩
  have hresult : bwtFwdResult internal src dst aux s =
      .ok ⟨(bwtForward (s.source src) order).1, BitVec.ofNat 32 (bwtForward (s.source src) order).2⟩ := by
    rw [bwtFwdResult_of_checks hpass, h]
    rfl
  exact succeeds_of_dataResult (i := .bwtFwd internal src dst aux) (congrArg some hresult)

theorem bwtFwd_source_nonempty : 0 < (s.source src).length := by
  rw [source_length]
  exact (lengthChecks_of_firstError hpass (List.mem_singleton.mpr rfl)).1

end

/-! ### The backward walk -/

theorem lastToFirst_eq_lastFirst {l : List Byte} {i : Nat} (hi : i < l.length) : lastToFirst l i = lastFirst l i := by
  have hprefix : l.take i = (List.range i).map (l.getD · 0) := by
    refine List.ext_getElem (by simp [hi.le]) fun j _ hj => ?_
    have hj : j < l.length := (by simpa using hj : j < i).trans hi
    simp [hj]
  rw [lastToFirst, lastFirst, bytesBelow, List.countP_eq_length_filter, List.count, hprefix, List.countP_map,
    List.countP_eq_length_filter]
  rfl

/-- The bytes below `L[i]`, the equal ones before `i`, and `L[i]` itself are different bytes of `L`. -/
theorem lastToFirst_lt {l : List Byte} {i : Nat} (hi : i < l.length) : lastToFirst l i < l.length := by
  have hequal : (l.take i).count l[i] < l.count l[i] := by
    calc (l.take i).count l[i]
      _ < (l.take i).count l[i] + [l[i]].count l[i] := by simp
      _ = (l.take i ++ [l[i]]).count l[i] := List.count_append.symm
      _ = (l.take (i + 1)).count l[i] := by rw [List.take_append_getElem hi]
      _ ≤ l.count l[i] := (List.take_sublist _ _).count_le _
  have hbelow : l.countP (fun x => x.toNat < l[i].toNat) + l.count l[i] ≤ l.length := by
    rw [List.length_eq_countP_add_countP fun x : Byte => decide (x.toNat < l[i].toNat)]
    exact Nat.add_le_add_left (List.countP_mono_left fun x _ hx => by
      rw [beq_iff_eq.mp hx]
      simp) _
  rw [lastToFirst, bytesBelow, List.getD_eq_getElem _ _ hi]
  omega

/-- One step of the walk: the row that the rank table gives. -/
def nextRow (l : List Byte) (p : Nat) : Nat := (rankTable l).getD p 0

theorem nextRow_eq_lastFirst {l : List Byte} {p : Nat} (hp : p < l.length) : nextRow l p = lastFirst l p := by
  rw [← lastToFirst_eq_lastFirst hp]
  simp [nextRow, rankTable, positionsFrom_eq_range, hp]

theorem iterate_nextRow_lt {l : List Byte} {p : Nat} (hp : p < l.length) (k : Nat) : (nextRow l)^[k] p < l.length := by
  induction k with
  | zero => exact hp
  | succ k ih =>
    rw [Function.iterate_succ_apply', nextRow_eq_lastFirst ih, ← lastToFirst_eq_lastFirst ih]
    exact lastToFirst_lt ih

/-- The walk places the byte of its first row last: byte `j` of `k` is that of the row `k - 1 - j` steps on. -/
theorem walkBack_eq_map (l : List Byte) (k p : Nat) (placed : List Byte) :
    walkBack l (rankTable l) k p placed =
      ((List.range k).map fun j => l.getD ((nextRow l)^[k - 1 - j] p) 0) ++ placed := by
  induction k generalizing p placed with
  | zero => rfl
  | succ k ih =>
    have hstep : ∀ j ∈ List.range k,
        l.getD ((nextRow l)^[k - 1 - j] (nextRow l p)) 0 = l.getD ((nextRow l)^[k + 1 - 1 - j] p) 0 := by
      intro j hj
      have hsteps : k + 1 - 1 - j = (k - 1 - j) + 1 := by have := List.mem_range.mp hj; omega
      rw [hsteps, Function.iterate_succ_apply]
    have hnext : (rankTable l).getD p 0 = nextRow l p := rfl
    rw [walkBack, hnext, ih, List.map_congr_left hstep]
    simp [List.range_succ]

theorem bwtInverse_isInverseBwt {l : List Byte} {primary : Nat} (h : primary < l.length) :
    IsInverseBwt l primary (bwtInverse l primary) := by
  refine ⟨bwtInverse_length l primary, fun k => (nextRow l)^[l.length - 1 - k] primary, by simp, fun k hk => ?_,
    fun k hk => ?_⟩
  · have hsteps : l.length - 1 - k = (l.length - 1 - (k + 1)) + 1 := by omega
    dsimp only
    rw [hsteps, Function.iterate_succ_apply', nextRow_eq_lastFirst (iterate_nextRow_lt h _)]
  · simp [bwtInverse, walkBack_eq_map, hk]

/-! ### The result of BWT_INV -/

section
variable {src dst : Span} {primary : Word} {s : State} (hpass : firstError (.bwtInv src dst primary) s = none)
include hpass

theorem bwtInvResult_of_checks :
    bwtInvResult src dst primary s = .ok ⟨bwtInverse (s.source src) primary.toNat, 0⟩ := by
  have hchecks : bwtInvChecks src dst primary s = .ok () := (checksOf_ok_iff (.bwtInv src dst primary) s).mpr hpass
  rw [bwtInvResult, hchecks]
  rfl

theorem bwtInv_primary_lt : primary.toNat < (s.source src).length := by
  have hlength := lengthChecks_of_firstError hpass (c := (src.len.toNat, 1, s.caps.toNat))
    (by simp [lengthChecks])
  have hprimary := lengthChecks_of_firstError hpass (c := (primary.toNat, 0, src.len.toNat - 1))
    (by simp [lengthChecks])
  rw [source_length]
  dsimp only at hlength hprimary
  omega

end

end Sys2Proof.Machine

namespace Sys2Proof.Proofs

open Sys2Proof.Machine Sys2Proof.Claims

/-- Settles O27: the order is the computed one, or the array when it has a 0 and all its entries are in range; R170 asks
no more of it than its length and the 0. -/
theorem bwtFwdWritesTheTransform : Obligations.BwtFwdWritesTheTransform := by
  intro src dst aux s
  refine ⟨⟨checksRaise _ s, fun hpass => ?_⟩, checksRaise _ s, fun hpass => ?_⟩
  · have hzero := zero_mem_suffixOrder (bwtFwd_source_nonempty hpass)
    obtain ⟨l, p, hbwt, hdone⟩ := bwtFwd_succeeds_of_bwtOrder hpass rfl (suffixOrder_length _) hzero
    exact ⟨_, l, p, isSuffixOrder_suffixOrder _, hbwt, hdone⟩
  · have hrefuses := bwtOrder_of_not_usable (aux := aux) (b := s.source src) (s := s)
    have haccepts := bwtOrder_of_usable (aux := aux) (b := s.source src) (s := s)
    rw [source_length] at hrefuses haccepts
    rw [orderIn_eq_array]
    refine ⟨fun hrange => ?_, fun hzero => ?_, fun hrange hzero => ?_⟩
    · exact bwtFwd_fails_of_bwtOrder hpass (hrefuses (.inl hrange))
    · exact bwtFwd_fails_of_bwtOrder hpass (hrefuses (.inr fun hmem => hzero 0 hmem rfl))
    · exact bwtFwd_succeeds_of_bwtOrder hpass (haccepts hrange hzero) (by simp) hzero

/-- Settles O28: the walk by the rank table is the walk by `lastFirst`, which stays in range from a primary index in
range. -/
theorem bwtInvWritesTheBlock : Obligations.BwtInvWritesTheBlock := by
  intro src dst p s
  refine ⟨checksRaise _ s, fun hpass => ⟨_, bwtInverse_isInverseBwt (bwtInv_primary_lt hpass), ?_⟩⟩
  exact succeeds_of_dataResult (i := .bwtInv src dst p) (congrArg some (bwtInvResult_of_checks hpass))

end Sys2Proof.Proofs
end

section
/-! SUPPORT. The move-to-front functions against the relation of the statements (43_rank_run.md R190 to R192), and the
statements about MTF_ENC and MTF_DEC. -/

namespace Sys2Proof.Machine

open Sys2Proof.Claims

/-! ### The relation from any list on -/

/-- `IsMtf` with the list `start` before the first symbol. -/
def IsMtfFrom (start x r : List Byte) : Prop :=
  x.length = r.length ∧
    ∃ q : Nat → List Byte, q 0 = start ∧
      ∀ i, i < x.length →
        (q i)[(r.getD i 0).toNat]? = some (x.getD i 0) ∧
          q (i + 1) =
            x.getD i 0 :: ((q i).take (r.getD i 0).toNat ++ (q i).drop ((r.getD i 0).toNat + 1))

theorem isMtf_iff (x r : List Byte) : IsMtf x r ↔ IsMtfFrom mtfInitial x r := Iff.rfl

theorem isMtfFrom_nil (start : List Byte) : IsMtfFrom start [] [] := ⟨rfl, fun _ => start, rfl, nofun⟩

/-- One symbol: its value stands at its rank, and the rest goes on from the list with that value in front. -/
theorem isMtfFrom_cons {start x r : List Byte} {c k : Byte} (hc : start[k.toNat]? = some c)
    (h : IsMtfFrom (moveToFront start k.toNat) x r) : IsMtfFrom start (c :: x) (k :: r) := by
  obtain ⟨hlength, q, hfirst, hstep⟩ := h
  refine ⟨congrArg (· + 1) hlength, fun i => i.casesOn start q, rfl, fun i hi => ?_⟩
  cases i with
  | zero => exact ⟨hc, by simpa [moveToFront, hc] using hfirst⟩
  | succ i => exact hstep i (Nat.lt_of_succ_lt_succ hi)

/-! ### The list -/

theorem moveToFront_perm {q : List Byte} {k : Nat} (hk : k < q.length) : (moveToFront q k).Perm q := by
  have hparts : q.take k ++ q[k] :: q.drop (k + 1) = q := by rw [List.getElem_cons_drop, List.take_append_drop]
  rw [moveToFront, List.getD_eq_getElem _ _ hk]
  exact List.perm_middle.symm.trans (.of_eq hparts)

section
variable {q : List Byte} (hq : q.Perm mtfInitial)
include hq

theorem length_of_perm_mtfInitial : q.length = 256 := hq.length_eq.trans (by simp [mtfInitial])

theorem mem_of_perm_mtfInitial (c : Byte) : c ∈ q :=
  hq.mem_iff.mpr (List.mem_map.mpr ⟨c.toNat, List.mem_range.mpr c.isLt, by simp⟩)

theorem idxOf_toNat_of_perm_mtfInitial (c : Byte) : (BitVec.ofNat 8 (q.idxOf c)).toNat = q.idxOf c := by
  have hlt := List.idxOf_lt_length_iff.mpr (mem_of_perm_mtfInitial hq c)
  rw [length_of_perm_mtfInitial hq] at hlt
  exact (BitVec.toNat_ofNat _ _).trans (Nat.mod_eq_of_lt hlt)

theorem rank_lt_length (k : Byte) : k.toNat < q.length := length_of_perm_mtfInitial hq ▸ k.isLt

theorem moveToFront_perm_mtfInitial (k : Byte) : (moveToFront q k.toNat).Perm mtfInitial :=
  (moveToFront_perm (rank_lt_length hq k)).trans hq

end

/-! ### The two functions -/

/-- Every value stands in the list, at an index that is a byte. -/
theorem mtfEncGo_isMtfFrom {q : List Byte} (hq : q.Perm mtfInitial) (x : List Byte) :
    IsMtfFrom q x (mtfEncGo q x) := by
  induction x generalizing q with
  | nil => exact isMtfFrom_nil q
  | cons c x ih =>
    have hrank := idxOf_toNat_of_perm_mtfInitial hq c
    have hnext := moveToFront_perm_mtfInitial hq (BitVec.ofNat 8 (q.idxOf c))
    refine isMtfFrom_cons ?_ ?_
    · rw [hrank, List.getElem?_idxOf (mem_of_perm_mtfInitial hq c)]
    · rw [hrank] at hnext ⊢
      exact ih hnext

/-- Every byte is an index of the list. -/
theorem mtfDecGo_isMtfFrom {q : List Byte} (hq : q.Perm mtfInitial) (r : List Byte) :
    IsMtfFrom q (mtfDecGo q r) r := by
  induction r generalizing q with
  | nil => exact isMtfFrom_nil q
  | cons k r ih =>
    have hrank := rank_lt_length hq k
    refine isMtfFrom_cons ?_ (ih (moveToFront_perm_mtfInitial hq k))
    rw [List.getElem?_eq_getElem hrank, List.getD_eq_getElem _ _ hrank]

theorem mtfEncode_isMtf (x : List Byte) : IsMtf x (mtfEncode x) :=
  (isMtf_iff _ _).mpr (mtfEncGo_isMtfFrom (.refl _) x)

theorem mtfDecode_isMtf (r : List Byte) : IsMtf (mtfDecode r) r :=
  (isMtf_iff _ _).mpr (mtfDecGo_isMtfFrom (.refl _) r)

/-! ### The result of MTF_ENC and MTF_DEC -/

theorem mapResult_of_checks {src dst : Span} {s : State} (f : List Byte → List Byte)
    (h : mapChecks src dst s = .ok ()) : mapResult f src dst s = .ok ⟨f (s.source src), 0⟩ := by
  rw [mapResult, h]
  rfl

end Sys2Proof.Machine

namespace Sys2Proof.Proofs

open Sys2Proof.Machine Sys2Proof.Claims

/-- Settles O30: the list stays a permutation of all bytes, so every source byte has a rank in it. -/
theorem mtfEncWritesTheRanks : Obligations.MtfEncWritesTheRanks := by
  intro src dst s
  refine ⟨checksRaise _ s, fun hpass => ⟨mtfEncode (s.source src), mtfEncode_isMtf _, ?_⟩⟩
  have hresult := mapResult_of_checks mtfEncode ((checksOf_ok_iff (.mtfEnc src dst) s).mpr hpass)
  exact succeeds_of_dataResult (i := .mtfEnc src dst) (congrArg some hresult)

/-- Settles O31: the list keeps its 256 entries, so every source byte is the rank of one. -/
theorem mtfDecWritesTheBytes : Obligations.MtfDecWritesTheBytes := by
  intro src dst s
  refine ⟨checksRaise _ s, fun hpass => ⟨mtfDecode (s.source src), mtfDecode_isMtf _, ?_⟩⟩
  have hresult := mapResult_of_checks mtfDecode ((checksOf_ok_iff (.mtfDec src dst) s).mpr hpass)
  exact succeeds_of_dataResult (i := .mtfDec src dst) (congrArg some hresult)

end Sys2Proof.Proofs
end

section
/-! SUPPORT. What RLE_ENC and RLE_DEC do with a token stream (43_rank_run.md R195, R198): the encoder's tokens are the
canonical ones of its ranks, the decoder's loop outputs the expansion token by token; and the statements about the two
commands. -/

namespace Sys2Proof.Machine

open Sys2Proof.Claims

/-! ### The encoder's tokens -/

@[simp] theorem expand_runToken (z : Nat) : expand (runToken z) = List.replicate z 0 := by
  rw [runToken]
  split
  · next hz => simp [hz, expand]
  · simp [expand, Token.ranks]

theorem expand_rleEncGo (z : Nat) (r : List Byte) : expand (rleEncGo z r) = List.replicate z 0 ++ r := by
  induction r generalizing z with
  | nil => simp [rleEncGo]
  | cons b r ih =>
    rw [rleEncGo]
    split
    · next hb => rw [ih, hb, List.replicate_succ', List.append_assoc, List.singleton_append]
    · simp [expand, Token.ranks, ih]

theorem expand_rleTokens (r : List Byte) : expand (rleTokens r) = r := expand_rleEncGo 0 r

theorem valid_of_mem_runToken {z : Nat} (hz : z < 2 ^ 32) {t : Token} (ht : t ∈ runToken z) : t.Valid := by
  rw [runToken] at ht
  split at ht
  · cases ht
  · next hne =>
    obtain rfl := List.mem_singleton.mp ht
    exact ⟨Nat.one_le_iff_ne_zero.mpr hne, hz⟩

/-- A run is no longer than the ranks it stands for. -/
theorem valid_of_mem_rleEncGo {z : Nat} {r : List Byte} (h : z + r.length < 2 ^ 32) {t : Token}
    (ht : t ∈ rleEncGo z r) : t.Valid := by
  induction r generalizing z with
  | nil => exact valid_of_mem_runToken h ht
  | cons b r ih =>
    rw [List.length_cons] at h
    rw [rleEncGo] at ht
    split at ht
    · exact ih (by omega) ht
    · next hb =>
      rcases List.mem_append.mp ht with hrun | hlit
      · exact valid_of_mem_runToken (by omega) hrun
      · rcases List.mem_cons.mp hlit with rfl | hrest
        · exact hb
        · exact ih (by omega) hrest

theorem tokensOk_rleTokens {r : List Byte} (h : r.length < 2 ^ 32) : TokensOk (rleTokens r) :=
  (tokensOk_iff _).mpr fun _ ht => valid_of_mem_rleEncGo (by omega) ht

/-- Two neighbours of a canonical token list (30_encoding.md R111). -/
def NotBothRuns (t u : Token) : Prop := t.isRun = false ∨ u.isRun = false

theorem canonical_of_isChain {ts : List Token} (h : ts.IsChain NotBothRuns) : Canonical ts := by
  rintro pre post j k rfl
  obtain ⟨-, hruns, -⟩ := List.isChain_append_cons_cons.mp h
  simp [NotBothRuns, Token.isRun] at hruns

/-- A literal may stand anywhere. -/
theorem isChain_lit_cons {b : Byte} {ts : List Token} (h : ts.IsChain NotBothRuns) :
    (Token.lit b :: ts).IsChain NotBothRuns :=
  List.isChain_cons.mpr ⟨fun _ _ => .inl rfl, h⟩

/-- After the pending run the encoder puts a literal or nothing. -/
theorem isChain_rleEncGo (z : Nat) (r : List Byte) : (rleEncGo z r).IsChain NotBothRuns := by
  induction r generalizing z with
  | nil =>
    rw [rleEncGo, runToken]
    split
    · exact .nil
    · exact .singleton _
  | cons b r ih =>
    rw [rleEncGo]
    split
    · exact ih (z + 1)
    · rw [runToken]
      split
      · exact isChain_lit_cons (ih 0)
      · exact .cons_cons (.inr rfl) (isChain_lit_cons (ih 0))

theorem canonical_rleTokens (r : List Byte) : Canonical (rleTokens r) := canonical_of_isChain (isChain_rleEncGo 0 r)

/-! ### The decoder's loop -/

theorem emitAll_singleton (cap : Option Nat) (out : List Byte) (b : Byte) : emitAll cap out [b] = emit cap out b := by
  rw [emitAll]
  cases emit cap out b <;> rfl

/-- A valid token at the head of the stream: its ranks are output, and the loop goes on behind it. -/
theorem rleDecGo_token (cap : Option Nat) (out s : List Byte) {t : Token} (ht : t.Valid) :
    rleDecGo cap out (t.bytes ++ s) = emitAll cap out t.ranks >>= fun o => rleDecGo cap o s := by
  cases t with
  | lit b =>
    have hb : b ≠ 0 := ht
    rw [Token.bytes, List.singleton_append, rleDecGo_lit cap out b s hb, Token.ranks, emitAll_singleton]
    cases emit cap out b <;> rfl
  | run k =>
    obtain ⟨hpos, hlt⟩ := ht
    have hk : (BitVec.ofNat 32 k).toNat = k := (BitVec.toNat_ofNat _ _).trans (Nat.mod_eq_of_lt hlt)
    have hne : BitVec.ofNat 32 k ≠ 0 := fun hzero => by
      rw [hzero] at hk
      exact Nat.ne_of_lt hpos hk
    simp only [Token.bytes, le32, List.cons_append, List.nil_append, rleDecGo_run, ofLe32_le32, hne, if_false, hk,
      emitZeros_eq, Token.ranks]
    cases emitAll cap out (List.replicate k 0) <;> rfl

/-- R198 over the valid tokens a stream starts with, canonical or not. -/
theorem rleDecGo_tokenBytes_append (cap : Option Nat) (out s : List Byte) {ts : List Token} (h : TokensOk ts) :
    rleDecGo cap out (tokenBytes ts ++ s) = emitAll cap out (expand ts) >>= fun o => rleDecGo cap o s := by
  rw [tokensOk_iff] at h
  induction ts generalizing out with
  | nil => rfl
  | cons t ts ih =>
    obtain ⟨ht, hts⟩ := List.forall_mem_cons.mp h
    rw [tokenBytes, List.append_assoc, rleDecGo_token cap out _ ht, expand, emitAll_append, bind_assoc]
    simp only [fun o => ih o hts]

theorem rleDecGo_malformed (cap : Option Nat) (out : List Byte) {bad : List Byte} (h : Malformed bad) :
    rleDecGo cap out bad = .error .corruptStream := by
  rcases h with ⟨r, rfl, hr⟩ | ⟨r, rfl⟩
  · exact rleDecGo_short cap out r hr
  · rw [rleDecGo_run, if_pos (by decide)]

/-- `emit` from an empty destination of capacity `c`. -/
theorem emitAll_nil_of_fits {c : Nat} {bs : List Byte} (h : bs.length ≤ c) : emitAll (some c) [] bs = .ok bs := by
  simp [emitAll_capped, h]

theorem emitAll_nil_of_overflows {c : Nat} {bs : List Byte} (h : c < bs.length) :
    emitAll (some c) [] bs = .error .capacityExceeded := by
  simp [emitAll_capped, h]

/-! ### The results of RLE_ENC and RLE_DEC -/

theorem rleEncResult_of_checks {src dst : Span} {s : State} (h : firstError (.rleEnc src dst) s = none) :
    rleEncResult src dst s = do
      let out ← emitAll (some dst.len.toNat) [] (tokenBytes (rleTokens (s.source src)))
      return ⟨out, BitVec.ofNat 32 (rleTokens (s.source src)).length⟩ := by
  have hchecks : rleEncChecks src dst s = .ok () := (checksOf_ok_iff (.rleEnc src dst) s).mpr h
  rw [rleEncResult, hchecks]
  rfl

section
variable {src dst : Span} {s : State} (hpass : firstError (.rleDec src dst) s = none)
include hpass

theorem rleDecResult_of_checks :
    rleDecResult src dst s = do
      let out ← rleDecGo (some dst.len.toNat) [] (s.source src)
      return ⟨out, 0⟩ := by
  have hchecks : rleDecChecks src dst s = .ok () := (checksOf_ok_iff (.rleDec src dst) s).mpr hpass
  rw [rleDecResult, hchecks]
  rfl

theorem rleDec_succeeds_of_rleDecGo {out : List Byte}
    (h : rleDecGo (some dst.len.toNat) [] (s.source src) = .ok out) :
    Succeeds (.rleDec src dst) s dst.addr.toNat out 0 := by
  have hresult : rleDecResult src dst s = .ok ⟨out, 0⟩ := by
    rw [rleDecResult_of_checks hpass, h]
    rfl
  exact succeeds_of_dataResult (i := .rleDec src dst) (congrArg some hresult)

theorem rleDec_fails_of_rleDecGo {e : Err} (h : rleDecGo (some dst.len.toNat) [] (s.source src) = .error e) :
    Fails (.rleDec src dst) s e.code := by
  have hresult : rleDecResult src dst s = .error e := by
    rw [rleDecResult_of_checks hpass, h]
    rfl
  exact fails_of_dataResult (congrArg some hresult)

end

end Sys2Proof.Machine

namespace Sys2Proof.Proofs

open Sys2Proof.Machine Sys2Proof.Claims

/-- Settles O33: the tokens are those of `rleTokens`; a source is shorter than `2 ^ 32`, so each run fits its `u32`. -/
theorem rleEncWritesTheCanonicalStream : Obligations.RleEncWritesTheCanonicalStream := by
  intro src dst s
  refine ⟨checksRaise _ s, fun hpass => ⟨rleTokens (s.source src), tokensOk_rleTokens ?_, canonical_rleTokens _,
    expand_rleTokens _, fun hfits => ?_, fun hover => ?_⟩⟩
  · rw [source_length]
    exact src.len.isLt
  · have hresult := rleEncResult_of_checks hpass
    rw [emitAll_nil_of_fits hfits] at hresult
    exact succeeds_of_dataResult (i := .rleEnc src dst) (congrArg some hresult)
  · have hresult := rleEncResult_of_checks hpass
    rw [emitAll_nil_of_overflows hover] at hresult
    exact fails_of_dataResult (i := .rleEnc src dst) (congrArg some hresult)

/-- Settles O34: the loop outputs the expansion of the tokens the source starts with before it reads what follows them,
so an overflow comes before a malformed token. -/
theorem rleDecWritesTheExpansion : Obligations.RleDecWritesTheExpansion := by
  intro src dst s ts hts
  refine ⟨checksRaise _ s, fun hpass => ⟨fun hsrc hfits => ?_, fun bad hbad hsrc hfits => ?_,
    fun rest hsrc hover => ?_⟩⟩
  · refine rleDec_succeeds_of_rleDecGo hpass ?_
    rw [hsrc, ← List.append_nil (tokenBytes ts), rleDecGo_tokenBytes_append _ _ _ hts, emitAll_nil_of_fits hfits]
    rfl
  · refine rleDec_fails_of_rleDecGo hpass (e := .corruptStream) ?_
    rw [hsrc, rleDecGo_tokenBytes_append _ _ _ hts, emitAll_nil_of_fits hfits]
    exact rleDecGo_malformed _ _ hbad
  · refine rleDec_fails_of_rleDecGo hpass (e := .capacityExceeded) ?_
    rw [hsrc, rleDecGo_tokenBytes_append _ _ _ hts, emitAll_nil_of_overflows hover]
    rfl

end Sys2Proof.Proofs
end

section
/-! SUPPORT. The pre-filter against the relations of the statements (44_prefilter.md R220 to R223): the model's table is
the relations' table, the predicted length is the maximal match, the copy loop is the copy of a match; and the
statements about FLT_ENC and FLT_DEC. -/

namespace Sys2Proof.Machine

open Sys2Proof.Claims

/-! ### The table and its contexts -/

theorem contextHash_eq_contextIndex (b : List Byte) (i : Nat) : contextHash b i = contextIndex b i := by
  rw [contextHash, fltHash, ofLe32_toNat, Nat.shiftRight_eq_div_pow]
  rfl

theorem candidate_eq (t : FilterTable) (b : List Byte) (i : Nat) :
    candidate t b i = if 4 ≤ i then FilterTable.get t (contextIndex b i) else none := by
  rw [candidate, contextHash_eq_contextIndex, fltK]

@[simp] theorem get_noteDecision (t : FilterTable) (b : List Byte) (i : Nat) :
    FilterTable.get (noteDecision t b i) = noteContext b (FilterTable.get t) i := by
  funext h
  rw [noteDecision, noteContext, contextHash_eq_contextIndex, fltK]
  by_cases hi : 4 ≤ i
  · simp only [hi, if_true, true_and, FilterTable.get, eq_comm]
  · simp only [hi, if_false, false_and]

/-! ### The predicted length -/

/-- `matchLength` with the bound `k` in place of `FLT_MAXLEN` is the maximal match of R222. -/
theorem matchLength_maximal (b : List Byte) (k : Nat) {p i : Nat} (hi : i ≤ b.length) :
    matchLength b p i k ≤ k ∧ i + matchLength b p i k ≤ b.length ∧
      (∀ j, j < matchLength b p i k → b.getD (p + j) 0 = b.getD (i + j) 0) ∧
      (matchLength b p i k = k ∨ i + matchLength b p i k = b.length ∨
        b.getD (p + matchLength b p i k) 0 ≠ b.getD (i + matchLength b p i k) 0) := by
  induction k generalizing p i with
  | zero => exact ⟨le_rfl, hi, nofun, .inl rfl⟩
  | succ k ih =>
    rw [matchLength]
    split
    · next hmatch =>
      obtain ⟨hlt, hbyte⟩ := hmatch
      obtain ⟨hbound, hinside, hagree, hstop⟩ := ih (p := p + 1) (i := i + 1) hlt
      simp only [Nat.add_assoc] at hinside hagree hstop ⊢
      refine ⟨by omega, hinside, fun j hj => ?_, hstop.imp_left (by omega)⟩
      cases j with
      | zero => exact hbyte
      | succ j => simpa only [Nat.add_comm 1] using hagree j (by omega)
    · next hstop =>
      refine ⟨k.succ.zero_le, hi, nofun, .inr ?_⟩
      rw [not_and_or] at hstop
      exact hstop.imp_left (by omega)

theorem isMatchLength_predicted (t : FilterTable) {b : List Byte} {i : Nat} (hi : i ≤ b.length) :
    IsMatchLength b (FilterTable.get t) i (predicted b i (candidate t b i)) := by
  rw [IsMatchLength, ← candidate_eq]
  cases candidate t b i with
  | none => rfl
  | some p => exact matchLength_maximal b fltMaxLen hi

theorem inside_of_isMatchLength {b : List Byte} {t : Nat → Option Nat} {i len : Nat} (h : IsMatchLength b t i len)
    (hi : i ≤ b.length) : i + len ≤ b.length := by
  rw [IsMatchLength] at h
  split at h
  · rwa [h]
  · obtain ⟨-, hinside, -⟩ := h
    exact hinside

/-! ### The encoding loop -/

/-- Every decision point advances, so the bytes left are decision points enough. -/
theorem fltEncGo_filteredFrom (b : List Byte) (fuel : Nat) (t : FilterTable) {i : Nat} (hi : i ≤ b.length)
    (hfuel : b.length ≤ i + fuel) : FilteredFrom b (FilterTable.get t) i (fltEncGo b fuel t i) := by
  induction fuel generalizing t i with
  | zero =>
    obtain rfl : i = b.length := by omega
    exact .done _
  | succ fuel ih =>
    rw [fltEncGo]
    split
    · next hlt =>
      have hlen := isMatchLength_predicted t hi
      have hnext (j : Nat) (hj : 1 ≤ j) (hinside : i + j ≤ b.length) :=
        get_noteDecision t b i ▸ ih (noteDecision t b i) hinside (by omega)
      generalize predicted b i (candidate t b i) = len at hlen
      have hmin : fltMinLen = 3 := rfl
      dsimp only
      split
      · next hmatch =>
        have hcode : len - fltMinLen + 1 = len - 2 := by omega
        rw [hcode]
        exact .found _ _ _ _ hlt hlen (hmin ▸ hmatch) (hnext len (by omega) (inside_of_isMatchLength hlen hi))
      · next hshort =>
        have hrest := hnext 1 le_rfl hlt
        split
        · next hesc => exact .stuffed _ _ _ _ hlt hlen (Nat.lt_of_not_le hshort) hesc hrest
        · next hlit => exact .literal _ _ _ _ hlt hlen (Nat.lt_of_not_le hshort) hlit hrest
    · next hend =>
      obtain rfl : i = b.length := by omega
      exact .done _

theorem fltEncode_filteredFrom (b : List Byte) : FilteredFrom b (fun _ => none) 0 (fltEncode b) :=
  fltEncGo_filteredFrom b b.length [] b.length.zero_le (by omega)

/-! ### The copy of a match -/

/-- `more` is what a match at position `p` appends to `out`, overlap allowed (R223). -/
def IsCopy (out : List Byte) (p : Nat) (more : List Byte) : Prop :=
  ∀ k, k < more.length → more.getD k 0 = (out ++ more).getD (p + k) 0

theorem isCopy_cons {out : List Byte} {p : Nat} (hp : p < out.length) (x : Byte) (xs : List Byte) :
    IsCopy out p (x :: xs) ↔ x = out.getD p 0 ∧ IsCopy (out ++ [x]) (p + 1) xs := by
  have hfirst : (out ++ x :: xs).getD p 0 = out.getD p 0 := List.getD_append _ _ _ _ hp
  rw [IsCopy, IsCopy, List.length_cons, Nat.forall_lt_succ_left', Nat.add_zero, hfirst]
  simp only [List.getD_cons_zero, List.getD_cons_succ, List.append_assoc, List.singleton_append, Nat.add_assoc,
    Nat.add_comm 1]

theorem copyMatch_of_isCopy {out : List Byte} {p : Nat} (hp : p < out.length) {more : List Byte}
    (h : IsCopy out p more) : copyMatch out p more.length = out ++ more := by
  induction more generalizing out p with
  | nil => exact (List.append_nil out).symm
  | cons x xs ih =>
    obtain ⟨rfl, hrest⟩ := (isCopy_cons hp x xs).mp h
    rw [List.length_cons, copyMatch, ih (by simpa using hp) hrest, List.append_assoc, List.singleton_append]

theorem exists_isCopy {out : List Byte} {p : Nat} (hp : p < out.length) (len : Nat) :
    ∃ more, more.length = len ∧ IsCopy out p more := by
  induction len generalizing out p with
  | zero => exact ⟨[], rfl, nofun⟩
  | succ len ih =>
    obtain ⟨more, hlength, hcopy⟩ := ih (out := out ++ [out.getD p 0]) (p := p + 1) (by simpa using hp)
    exact ⟨out.getD p 0 :: more, congrArg (· + 1) hlength, (isCopy_cons hp _ _).mpr ⟨rfl, hcopy⟩⟩

/-! ### Positions in the table -/

/-- Every position in the table is before `j`: a match copies from bytes that are there already. -/
def PositionsBelow (t : Nat → Option Nat) (j : Nat) : Prop := ∀ h p, t h = some p → p < j

theorem positionsBelow_empty (j : Nat) : PositionsBelow (fun _ => none) j := nofun

theorem PositionsBelow.note {t : Nat → Option Nat} {j k : Nat} (ht : PositionsBelow t j) (b : List Byte) (hk : j < k) :
    PositionsBelow (noteContext b t j) k := by
  intro h p hp
  rw [noteContext] at hp
  split at hp
  · cases hp
    exact hk
  · exact (ht h p hp).trans hk

theorem PositionsBelow.candidate_lt {t : Nat → Option Nat} {j h p : Nat} (ht : PositionsBelow t j)
    (hp : (if 4 ≤ j then t h else none) = some p) : p < j := by
  split at hp
  · exact ht h p hp
  · cases hp

/-! ### The decoding loop -/

section
variable {n : Nat} {t : FilterTable} {out : List Byte}

theorem fltDecGo_inputLeft (b : Byte) (s : List Byte) (hfull : n ≤ out.length) :
    fltDecGo n t out (b :: s) = .error .corruptStream := by
  rw [fltDecGo.eq_def]
  exact if_pos hfull

variable (hroom : out.length < n)
include hroom

theorem fltDecGo_literal {b : Byte} (s : List Byte) (hb : b ≠ 0xFE) :
    fltDecGo n t out (b :: s) = fltDecGo n (noteDecision t out out.length) (out ++ [b]) s := by
  rw [fltDecGo.eq_def]
  exact (if_neg hroom.not_ge).trans (if_pos hb)

theorem fltDecGo_escapeAtEnd : fltDecGo n t out [0xFE] = .error .corruptStream := by
  rw [fltDecGo.eq_def]
  exact if_neg hroom.not_ge

theorem fltDecGo_stuffed (s : List Byte) :
    fltDecGo n t out (0xFE :: 0 :: s) = fltDecGo n (noteDecision t out out.length) (out ++ [0xFE]) s := by
  rw [fltDecGo.eq_def]
  exact if_neg hroom.not_ge

variable {c : Byte} (s : List Byte) (hc : c ≠ 0)
include hc

theorem fltDecGo_noPrediction (hp : candidate t out out.length = none) :
    fltDecGo n t out (0xFE :: c :: s) = .error .corruptStream := by
  rw [fltDecGo.eq_def]
  simp only [fltEsc, ne_eq, not_true, hroom.not_ge, hc, hp, if_false]

theorem fltDecGo_match {p : Nat} (hp : candidate t out out.length = some p) :
    fltDecGo n t out (0xFE :: c :: s) =
      if n < out.length + (c.toNat + 2) then .error .corruptStream
      else fltDecGo n (noteDecision t out out.length) (copyMatch out p (c.toNat + 2)) s := by
  rw [fltDecGo.eq_def]
  simp only [fltEsc, ne_eq, not_true, hroom.not_ge, hc, hp, if_false]
  rfl

end

/-- The loop's outcome is one that the relation gives. -/
theorem fltDecGo_unfiltered (n : Nat) (t : FilterTable) (out s : List Byte)
    (ht : PositionsBelow (FilterTable.get t) out.length) :
    Unfiltered n (FilterTable.get t) out s (fltDecGo n t out s).toOption := by
  have hesc {b : Byte} (hb : ¬b ≠ fltEsc) : b = 0xFE := not_not.mp hb
  fun_induction fltDecGo n t out s
  case case1 t out hlength => exact .done _ _ hlength
  case case2 t out hlength => exact .outputShort _ _ hlength
  case case3 t out b s hfull => exact .inputLeft _ _ _ _ hfull
  case case4 t out b s hroom hlit ih =>
    rw [get_noteDecision] at ih
    exact .literal _ _ _ _ _ (Nat.lt_of_not_le hroom) hlit (ih (ht.note _ (by simp)))
  case case5 t out b hroom hb =>
    rw [hesc hb]
    exact .escapeAtEnd _ _ (Nat.lt_of_not_le hroom)
  case case6 t out b hroom hb s ih =>
    rw [get_noteDecision] at ih
    rw [hesc hb]
    exact .stuffed _ _ _ _ (Nat.lt_of_not_le hroom) (ih (ht.note _ (by simp)))
  case case7 t out b hroom hb c s hc hp =>
    rw [candidate_eq] at hp
    rw [hesc hb]
    exact .noPrediction _ _ _ _ (Nat.lt_of_not_le hroom) hc hp
  case case8 t out b hroom hb c s hc p hp hpast =>
    rw [candidate_eq] at hp
    rw [hesc hb]
    exact .pastEnd _ _ _ _ p (Nat.lt_of_not_le hroom) hc hp hpast
  case case9 t out b hroom hb c s hc p hp hinside ih =>
    rw [candidate_eq] at hp
    obtain ⟨more, hlength, hcopy⟩ := exists_isCopy (ht.candidate_lt hp) (c.toNat + fltMinLen - 1)
    rw [← hlength, copyMatch_of_isCopy (ht.candidate_lt hp) hcopy, get_noteDecision] at ih
    rw [hesc hb, ← hlength, copyMatch_of_isCopy (ht.candidate_lt hp) hcopy]
    have hgrows : 0 < c.toNat + fltMinLen - 1 := Nat.succ_pos _
    exact .copied _ _ _ _ p more _ (Nat.lt_of_not_le hroom) hc hp (Nat.le_of_not_lt hinside) hlength hcopy
      (ih (ht.note _ (by simp; omega)))

/-- The relation gives no other outcome. -/
theorem toOption_fltDecGo_of_unfiltered {n : Nat} {T : Nat → Option Nat} {out s : List Byte} {r : Option (List Byte)}
    (h : Unfiltered n T out s r) {t : FilterTable} (hT : FilterTable.get t = T) (ht : PositionsBelow T out.length) :
    (fltDecGo n t out s).toOption = r := by
  induction h generalizing t with subst hT
  | done T out hlength =>
    rw [fltDecGo, if_pos hlength]
    rfl
  | outputShort T out hlength =>
    rw [fltDecGo, if_neg hlength]
    rfl
  | inputLeft T out b s hfull =>
    rw [fltDecGo_inputLeft b s hfull]
    rfl
  | literal T out b s r hroom hlit _ ih =>
    rw [fltDecGo_literal hroom s hlit]
    exact ih (get_noteDecision ..) (ht.note _ (by simp))
  | escapeAtEnd T out hroom =>
    rw [fltDecGo_escapeAtEnd hroom]
    rfl
  | stuffed T out s r hroom _ ih =>
    rw [fltDecGo_stuffed hroom s]
    exact ih (get_noteDecision ..) (ht.note _ (by simp))
  | noPrediction T out c s hroom hc hp =>
    rw [← candidate_eq] at hp
    rw [fltDecGo_noPrediction hroom s hc hp]
    rfl
  | pastEnd T out c s p hroom hc hp hpast =>
    rw [← candidate_eq] at hp
    rw [fltDecGo_match hroom s hc hp, if_pos hpast]
    rfl
  | copied T out c s p more r hroom hc hp hinside hlength hcopy _ ih =>
    have hbelow := ht.candidate_lt hp
    rw [← candidate_eq] at hp
    rw [fltDecGo_match hroom s hc hp, if_neg hinside.not_gt, ← hlength, copyMatch_of_isCopy hbelow hcopy]
    exact ih (get_noteDecision ..) (ht.note _ (by simp; omega))

/-- R223: `flt_dec` gives the one outcome of the relation. -/
theorem unfiltered_iff (n : Nat) (s : List Byte) (r : Option (List Byte)) :
    Unfiltered n (fun _ => none) [] s r ↔ (fltDecode s n).toOption = r := by
  refine ⟨fun h => toOption_fltDecGo_of_unfiltered h rfl (positionsBelow_empty 0), fun h => ?_⟩
  rw [← h]
  exact fltDecGo_unfiltered n [] [] s (positionsBelow_empty 0)

theorem unfiltered_some_iff (n : Nat) (s b : List Byte) :
    Unfiltered n (fun _ => none) [] s (some b) ↔ fltDecode s n = .ok b := by
  rw [unfiltered_iff]
  cases fltDecode s n <;> simp [Except.toOption]

theorem unfiltered_none_iff (n : Nat) (s : List Byte) :
    Unfiltered n (fun _ => none) [] s none ↔ ∃ e, fltDecode s n = .error e := by
  rw [unfiltered_iff]
  cases fltDecode s n <;> simp [Except.toOption]

/-! ### The results of FLT_ENC and FLT_DEC -/

theorem fltEncResult_of_checks {src dst : Span} {s : State} (h : firstError (.fltEnc src dst) s = none) :
    fltEncResult src dst s = do
      let out ← emitAll (some dst.len.toNat) [] (fltEncode (s.source src))
      return ⟨out, 0⟩ := by
  have hchecks : fltEncChecks src dst s = .ok () := (checksOf_ok_iff (.fltEnc src dst) s).mpr h
  rw [fltEncResult, hchecks]
  rfl

section
variable {src dst : Span} {n : Word} {s : State} (hpass : firstError (.fltDec src dst n) s = none)
include hpass

theorem fltDecResult_of_checks :
    fltDecResult src dst n s = do
      let out ← fltDecode (s.source src) n.toNat
      return ⟨out, 0⟩ := by
  have hchecks : fltDecChecks src dst n s = .ok () := (checksOf_ok_iff (.fltDec src dst n) s).mpr hpass
  rw [fltDecResult, hchecks]
  rfl

theorem fltDec_succeeds_of_fltDecode {b : List Byte} (h : fltDecode (s.source src) n.toNat = .ok b) :
    b.length = n.toNat ∧ Succeeds (.fltDec src dst n) s dst.addr.toNat b 0 := by
  have hresult : fltDecResult src dst n s = .ok ⟨b, 0⟩ := by
    rw [fltDecResult_of_checks hpass, h]
    rfl
  exact ⟨fltDecode_length _ _ _ h, succeeds_of_dataResult (i := .fltDec src dst n) (congrArg some hresult)⟩

theorem fltDec_fails_of_fltDecode {e : Err} (h : fltDecode (s.source src) n.toNat = .error e) :
    Fails (.fltDec src dst n) s 0x03 := by
  have hcorrupt := fltDecode_raisesOnly (errs := [.corruptStream]) _ _ (List.mem_singleton_self _) e h
  obtain rfl := List.mem_singleton.mp hcorrupt
  have hresult : fltDecResult src dst n s = .error .corruptStream := by
    rw [fltDecResult_of_checks hpass, h]
    rfl
  exact fails_of_dataResult (i := .fltDec src dst n) (congrArg some hresult)

end

end Sys2Proof.Machine

namespace Sys2Proof.Proofs

open Sys2Proof.Machine Sys2Proof.Claims

/-- Settles O36: the model's loop outputs what the relation says from the empty table on, and `emit` stores it when it
fits. -/
theorem fltEncWritesTheFilteredBlock : Obligations.FltEncWritesTheFilteredBlock := by
  intro src dst s
  refine ⟨checksRaise _ s, fun hpass => ⟨fltEncode (s.source src), fltEncode_filteredFrom _, fun hfits => ?_,
    fun hover => ?_⟩⟩
  · have hresult := fltEncResult_of_checks hpass
    rw [emitAll_nil_of_fits hfits] at hresult
    exact succeeds_of_dataResult (i := .fltEnc src dst) (congrArg some hresult)
  · have hresult := fltEncResult_of_checks hpass
    rw [emitAll_nil_of_overflows hover] at hresult
    exact fails_of_dataResult (i := .fltEnc src dst) (congrArg some hresult)

/-- Settles O37: the relation has the outcome of the model's function and no other, and that function has one error. -/
theorem fltDecWritesTheBlock : Obligations.FltDecWritesTheBlock := by
  intro src dst n s
  refine ⟨checksRaise _ s, fun hpass => ⟨⟨_, (unfiltered_iff ..).mpr rfl⟩, fun b hreturns => ?_, fun hraises => ?_,
    fun b => fltDec_succeeds_of_fltDecode hpass, fun e => fltDec_fails_of_fltDecode hpass⟩⟩
  · exact fltDec_succeeds_of_fltDecode hpass ((unfiltered_some_iff ..).mp hreturns)
  · obtain ⟨e, he⟩ := (unfiltered_none_iff ..).mp hraises
    exact fltDec_fails_of_fltDecode hpass he

end Sys2Proof.Proofs
end

section
/-! SUPPORT. The block codec against the statements (46_codec.md): the model's register of R270 is that of the relation,
compression into scratch has no error (R272), and the statements about CRC32 and COMPRESS. -/

namespace Sys2Proof.Machine

open Sys2Proof.Claims

/-! ### The checksum -/

theorem crcRound_eq_crcBit (c : Word) : crcRound c = crcBit c := by
  have hlow : c.getLsbD 0 = true ↔ c.toNat % 2 = 1 := by rw [BitVec.getLsbD, Nat.testBit_zero, decide_eq_true_iff]
  simp only [crcRound, crcBit, hlow]

theorem crcRounds_eq_iterate (k : Nat) (c : Word) : crcRounds k c = crcBit^[k] c := by
  induction k generalizing c with
  | zero => rfl
  | succ k ih => rw [crcRounds, ih, crcRound_eq_crcBit, Function.iterate_succ_apply]

theorem crcGo_append (c : Word) (s t : List Byte) : crcGo c (s ++ t) = crcGo (crcGo c s) t := by
  induction s generalizing c with
  | nil => rfl
  | cons b s ih => exact ih _

/-- The register after one more byte of the string. -/
theorem crcGo_take_succ (c : Word) {s : List Byte} {k : Nat} (hk : k < s.length) :
    crcGo c (s.take (k + 1)) = crcBit^[8] (crcGo c (s.take k) ^^^ BitVec.ofNat 32 (s.getD k 0).toNat) := by
  rw [← List.take_append_getElem hk, crcGo_append, crcGo, crcGo, crcRounds_eq_iterate, BitVec.ofNat_toNat,
    List.getD_eq_getElem s 0 hk]

theorem isCrc32_crc32 (s : List Byte) : IsCrc32 s (crc32 s) :=
  ⟨fun k => crcGo 0xFFFFFFFF (s.take k), rfl, fun _ hk => crcGo_take_succ _ hk,
    by simp only [List.take_length, crc32]⟩

theorem crcResult_of_checks {src : Span} {s : State} (h : firstError (.crc32 src) s = none) :
    crcResult src s = .ok (crc32 (s.source src)) := by
  have hchecks : crcChecks src s = .ok () := (checksOf_ok_iff (.crc32 src) s).mpr h
  rw [crcResult, hchecks]
  rfl

/-! ### The stages of R272 -/

/-- The filter is kept only when it shortens the block (R276). -/
theorem stageBlock_length_le (b : List Byte) (tf : Bool) : (stageBlock b tf).1.length ≤ b.length := by
  rw [stageBlock]
  split
  · next hkept => exact Nat.le_of_lt (of_decide_eq_true (Bool.and_eq_true_iff.mp hkept).2)
  · exact Nat.le_refl _

/-- The tokens COMPRESS codes for a stage block: the canonical ones of the ranks of its transform. -/
def stageTokens (x : List Byte) : List Token := rleTokens (mtfEncode (bwtForward x (suffixOrder x)).1)

theorem expand_stageTokens (x : List Byte) : expand (stageTokens x) = mtfEncode (bwtForward x (suffixOrder x)).1 :=
  expand_rleTokens _

theorem countAll_stageTokens (x : List Byte) : countAll (stageTokens x) = x.length := by
  rw [← expand_length, expand_stageTokens, mtfEncode_length, bwtForward_length, suffixOrder_length]

theorem tokensOk_stageTokens {x : List Byte} (h : x.length < 2 ^ 32) : TokensOk (stageTokens x) :=
  tokensOk_rleTokens (by rwa [mtfEncode_length, bwtForward_length, suffixOrder_length])

/-- R272 after its stages: the tokens are read back from their stream, and only the range coder is left. -/
theorem compressBlock_eq (maxBlock : Nat) {b : List Byte} (tf : Bool) (h : b.length < 2 ^ 32) :
    let x := (stageBlock b tf).1
    compressBlock maxBlock b tf = do
      let r ← rcEncode maxBlock none (stageTokens x)
      return header (stageBlock b tf).2 b.length x.length (bwtForward x (suffixOrder x)).2 (crc32 b) r.1.length ++
        r.1 := by
  intro x
  have hok : TokensOk (stageTokens x) := tokensOk_stageTokens (Nat.lt_of_le_of_lt (stageBlock_length_le b tf) h)
  have hparse : parseTokens .invalidInput (tokenBytes (stageTokens x)) = .ok (stageTokens x) :=
    parseTokens_tokenBytes _ _ ((tokensOk_iff _).mp hok)
  change (parseTokens .invalidInput (tokenBytes (stageTokens x)) >>= _) = _
  rw [hparse]
  rfl

/-- R272 has no error for a block the core accepts: its ranks are no more than its bytes, and scratch holds any output. -/
theorem compressBlock_ok {maxBlock : Nat} {b : List Byte} (tf : Bool) (hfits : b.length ≤ maxBlock)
    (hword : b.length < 2 ^ 32) : ∃ e, compressBlock maxBlock b tf = .ok e := by
  have hranks : countAll (stageTokens (stageBlock b tf).1) ≤ maxBlock := by
    rw [countAll_stageTokens]
    exact (stageBlock_length_le b tf).trans hfits
  obtain ⟨p, hp, -⟩ := rcEncode_ok maxBlock _ hranks
  rw [compressBlock_eq maxBlock tf hword, hp]
  exact ⟨_, rfl⟩

/-! ### The result of COMPRESS -/

section
variable {tf : Bool} {src dst : Span} {s : State} (hpass : firstError (.compress tf src dst) s = none)
include hpass

theorem compress_source_le_maxBlock : (s.source src).length ≤ s.maxBlock := by
  obtain ⟨-, hle⟩ := lengthChecks_of_firstError hpass (List.mem_singleton_self (src.len.toNat, 1, s.caps.toNat))
  rwa [source_length]

theorem compressResult_of_compressBlock {e : List Byte} (h : compressBlock s.maxBlock (s.source src) tf = .ok e) :
    compressResult tf src dst s = do
      let out ← emitAll (some dst.len.toNat) [] e
      return ⟨out, BitVec.ofNat 32 (e.getD 4 0).toNat⟩ := by
  have hchecks : compressChecks src dst s = .ok () := (checksOf_ok_iff (.compress tf src dst) s).mpr hpass
  rw [compressResult, hchecks, ok_bind, h, ok_bind, BitVec.ofNat_toNat]

end

end Sys2Proof.Machine

namespace Sys2Proof.Proofs

open Sys2Proof.Machine Sys2Proof.Claims

/-- Settles O44: the register of the model after the first `k` bytes is the relation's `reg k`. -/
theorem crc32GivesTheChecksum : Obligations.Crc32GivesTheChecksum := by
  intro src s
  refine ⟨checksRaise _ s, fun hpass => ⟨crc32 (s.source src), isCrc32_crc32 _, ?_⟩⟩
  exact succeedsQuietly_of_scalarResult (congrArg some (crcResult_of_checks hpass))

/-- Settles O45: the checks bound the block, so `compressBlock` gives an Encoded Block, and `emit` stores it when it
fits. -/
theorem compressWritesTheEncodedBlock : Obligations.CompressWritesTheEncodedBlock := by
  intro tf src dst s
  refine ⟨checksRaise _ s, fun hpass => ?_⟩
  have hword : (s.source src).length < 2 ^ 32 := by
    rw [source_length]
    exact src.len.isLt
  obtain ⟨e, he⟩ := compressBlock_ok tf (compress_source_le_maxBlock hpass) hword
  have hresult := compressResult_of_compressBlock hpass he
  refine ⟨e, he, fun hfits => ?_, fun hover => ?_⟩
  · rw [emitAll_nil_of_fits hfits] at hresult
    exact succeeds_of_dataResult (i := .compress tf src dst) (congrArg some hresult)
  · rw [emitAll_nil_of_overflows hover] at hresult
    exact fails_of_dataResult (i := .compress tf src dst) (congrArg some hresult)

end Sys2Proof.Proofs
end

section
/-! SUPPORT. What takes BUSY from 0 to 1: of the writes to the register window only START, and of the turns only the
host's write of START (10_state.md R24 to R26, 40_sequencer.md R130, R131); and the statement that an idle engine begins
to run in no other way (70_reset_and_hazards.md R343). -/

namespace Sys2Proof.Machine

open Sys2Proof.Claims

/-! ### BUSY after a write to the register window -/

@[simp] theorem State.softReset_busy (s : State) : s.softReset.busy = false := rfl

@[simp] theorem State.hardReset_busy (s : State) : s.hardReset.busy = false := rfl

@[simp] theorem State.writeStatus_busy (s : State) (v : Word) : (s.writeStatus v).busy = s.busy := by
  unfold State.writeStatus
  split
  · rfl
  · dsimp only
    split <;> split <;> rfl

@[simp] theorem State.writeCmdPtr_busy (s : State) (v : Word) : (s.writeCmdPtr v).busy = s.busy := by
  unfold State.writeCmdPtr
  split <;> rfl

theorem State.starts_of_writeCtrl {s : State} {v : Word} (hidle : s.busy = false)
    (hrun : (s.writeCtrl v).busy = true) : v.getLsbD 0 = true ∧ v.getLsbD 1 = false := by
  unfold State.writeCtrl at hrun
  split at hrun
  · simp at hrun
  · next hreset =>
    split at hrun
    · next hstart => exact ⟨hstart, by simpa using hreset⟩
    · simp [hidle] at hrun

theorem State.starts_of_writeReg {s : State} {o : Nat} {v : Word} (hidle : s.busy = false)
    (hrun : (s.writeReg o v).busy = true) : o = 0x04 ∧ v.getLsbD 0 = true ∧ v.getLsbD 1 = false := by
  unfold State.writeReg at hrun
  split at hrun
  · next ho => exact ⟨ho, starts_of_writeCtrl hidle hrun⟩
  · split at hrun
    · simp [hidle] at hrun
    · split at hrun <;> simp [hidle] at hrun

/-! ### BUSY after a turn -/

theorem engineTurn_keeps_idle {s t : State} (hidle : s.busy = false) (h : engineTurn s = .next t) :
    t.busy = false := by
  obtain ⟨-, rfl⟩ | ⟨hb, -⟩ | ⟨hb, -⟩ := engineTurn_cases s t h
  · exact hidle
  · simp [hidle] at hb
  · simp [hidle] at hb

/-- The only action of the host that makes an idle engine run is a write of START. -/
theorem starts_of_hostTurn {a : HostAction} {s t : State} (hidle : s.busy = false) (h : hostTurn a s = .next t)
    (hrun : t.busy = true) :
    ∃ v, a = .writeReg 0x04 4 v ∧ v.getLsbD 0 = true ∧ v.getLsbD 1 = false := by
  obtain ⟨-, he⟩ | ⟨o, v, rfl, -, -, rfl⟩ | ⟨o, -, -, -, rfl⟩ | ⟨x, bs, -, -, hwrite⟩ | ⟨x, -, -, hread⟩ |
    ⟨-, rfl⟩ | ⟨-, rfl⟩ := hostTurn_cases a s t h
  · simp [engineTurn_keeps_idle hidle he] at hrun
  · obtain ⟨rfl, hstart, hreset⟩ := State.starts_of_writeReg hidle hrun
    exact ⟨v, rfl, hstart, hreset⟩
  · simp [hidle] at hrun
  · obtain ⟨hb, -⟩ | ⟨hb, -⟩ | ⟨-, rfl⟩ := hwrite
    · simp [hidle] at hb
    · simp [hidle] at hb
    · simp [hidle] at hrun
  · obtain ⟨-, rfl⟩ | ⟨-, rfl⟩ := hread <;> simp [hidle] at hrun
  · simp [hidle] at hrun
  · simp at hrun

/-- A step that takes BUSY from 0 to 1 is the host's write of START. -/
theorem hostDoes_start_of_step {s t : State} (hidle : s.busy = false) (h : step s = .next t) (hrun : t.busy = true) :
    ∃ v, HostDoes s (.writeReg 0x04 4 v) ∧ v.getLsbD 0 = true ∧ v.getLsbD 1 = false := by
  obtain ⟨-, he⟩ | ⟨a, rest, hhost, ha⟩ := step_cases s t h
  · simp [engineTurn_keeps_idle hidle he] at hrun
  · obtain ⟨v, rfl, hstart, hreset⟩ := starts_of_hostTurn (s := { s with host := rest }) hidle ha hrun
    exact ⟨v, ⟨rest, hhost⟩, hstart, hreset⟩

end Sys2Proof.Machine

namespace Sys2Proof.Proofs

open Sys2Proof.Machine

/-- Settles O9: no step but the host's START takes BUSY from 0 to 1, and O51 says what that START leaves in CMD_PTR. -/
theorem onlyStartBeginsARun : Obligations.OnlyStartBeginsARun := by
  intro s t hidle hstep hrun
  obtain ⟨v, hwrite, hstart, hreset⟩ := hostDoes_start_of_step hidle hstep hrun
  obtain ⟨u, hstep', hstarted, -⟩ := startBeginsARun s v hwrite hstart hreset
  obtain rfl : t = u := Host.Outcome.next.inj (hstep.symm.trans hstep')
  obtain ⟨-, -, -, -, -, -, hptr, -⟩ := hstarted hidle
  exact ⟨hptr, v, hwrite, hstart, hreset⟩

end Sys2Proof.Proofs
end

section
/-! SUPPORT. The range decoder against the range encoder (45_entropy.md R242 to R247): the digits an encoder has
output and holds back are a number, the coded interval starts there, and a payload inside the interval of an encoder
state is read by the decoder that has consumed as many digits; and the statement that the decoder undoes the encoder
(R249). -/

namespace Sys2Proof.Machine

open Sys2Proof.Claims

/-! ### Byte strings as numbers -/

/-- A byte string as a number, most significant byte first. -/
def bigEndian (s : List Byte) : Nat := s.foldl (fun n b => n * 256 + b.toNat) 0

@[simp] theorem bigEndian_nil : bigEndian [] = 0 := rfl

@[simp] theorem bigEndian_concat (s : List Byte) (b : Byte) : bigEndian (s ++ [b]) = bigEndian s * 256 + b.toNat := by
  simp [bigEndian]

theorem bigEndian_append (s t : List Byte) : bigEndian (s ++ t) = bigEndian s * 256 ^ t.length + bigEndian t := by
  induction t using List.reverseRecOn with
  | nil => simp
  | append_singleton t b ih =>
    rw [← List.append_assoc, bigEndian_concat, bigEndian_concat, ih, List.length_append, List.length_singleton,
      pow_succ]
    ring

theorem bigEndian_take_succ {p : List Byte} {n : Nat} (h : n < p.length) :
    bigEndian (p.take (n + 1)) = bigEndian (p.take n) * 256 + p[n].toNat := by
  rw [← List.take_append_getElem h, bigEndian_concat]

theorem bigEndian_replicate_zero (k : Nat) : bigEndian (List.replicate k 0) = 0 := by
  induction k with
  | zero => rfl
  | succ k ih => rw [List.replicate_succ', bigEndian_concat, ih]; rfl

theorem bigEndian_replicate_ff (k : Nat) : bigEndian (List.replicate k 0xFF) + 1 = 256 ^ k := by
  induction k with
  | zero => rfl
  | succ k ih =>
    have hbyte : (0xFF : Byte).toNat = 255 := rfl
    rw [List.replicate_succ', bigEndian_concat, hbyte, pow_succ]
    omega

/-! ### The number an encoder stands for -/

/-- The digits of `cache` and of the held-back `0xFF` bytes (R244), without a carry. -/
def heldNumber (cache csize : Nat) : Nat := cache * 256 ^ (csize - 1) + (256 ^ (csize - 1) - 1)

/-- What one `shift_low` outputs is the held-back digits with the carry added, provided the cache has room for it. -/
theorem bigEndian_held {cache csize carry : Nat} {out : List Byte} (hsize : 1 ≤ csize) (hcarry : carry ≤ 1)
    (hroom : cache + carry < 256) (hlength : out.length = csize)
    (hdigits : ∀ k, k < csize →
      (out.getD k 0).toNat = ((if k = 0 then cache else 0xFF) + carry) % 2 ^ 8) :
    bigEndian out = heldNumber cache csize + carry := by
  have hout : out = [BitVec.ofNat 8 (cache + carry)] ++ List.replicate (csize - 1) (BitVec.ofNat 8 (0xFF + carry)) := by
    refine List.ext_getElem (by simp; omega) fun k hk _ => BitVec.eq_of_toNat_eq ?_
    have hdigit := hdigits k (by omega)
    rw [List.getD_eq_getElem _ _ hk] at hdigit
    cases k <;> simpa using hdigit
  have hfirst : bigEndian [BitVec.ofNat 8 (cache + carry)] = cache + carry := by
    simp [bigEndian, Nat.mod_eq_of_lt hroom]
  have hff := bigEndian_replicate_ff (csize - 1)
  rw [hout, bigEndian_append, hfirst, List.length_replicate, heldNumber]
  obtain rfl | rfl : carry = 0 ∨ carry = 1 := by omega
  · have hbyte : BitVec.ofNat 8 (0xFF + 0) = 0xFF := rfl
    rw [hbyte, Nat.add_zero]
    omega
  · have hbyte : BitVec.ofNat 8 (0xFF + 1) = 0 := rfl
    rw [hbyte, bigEndian_replicate_zero, Nat.add_mul]
    omega

end Sys2Proof.Machine

namespace Sys2Proof.Claims

open Sys2Proof.Machine

/-- The low end of the coded interval: the digits output, the digits held back, and `low`. -/
def Encoder.value (e : Encoder) (out : List Byte) : Nat :=
  (bigEndian out * 256 ^ e.csize + heldNumber e.cache e.csize) * 2 ^ 32 + e.low

/-- The digits of `value`. -/
def Encoder.digits (e : Encoder) (out : List Byte) : Nat := out.length + e.csize + 4

/-- The cache takes a carry when one can still come from an interval of length `r` (R244): a cache of `0xFF` is one that
has taken a carry, and then none follows. -/
structure Encoder.Absorbs (e : Encoder) (r : Nat) : Prop where
  csize : 1 ≤ e.csize
  cache : e.cache < 256
  carry : e.low + r ≤ 2 ^ 32 ∨ e.cache < 255 ∧ e.low + r ≤ 2 ^ 33

/-- One `shift_low` moves the interval up by one digit and changes nothing else. -/
theorem shiftsLow_value {e f : Encoder} {bs : List Byte} {r : Nat} (h : ShiftsLow e f bs) (ha : e.Absorbs r)
    (hpos : 1 ≤ r) (hr : r ≤ 2 ^ 24) (out : List Byte) :
    f.value (out ++ bs) = e.value out * 256 ∧ f.digits (out ++ bs) = e.digits out + 1 ∧ f.Absorbs (r * 256) := by
  obtain ⟨hsize, hcache, hcarry⟩ := ha
  obtain ⟨-, -, hlow, hrest⟩ := h
  split at hrest
  · next hemit =>
    obtain ⟨hfcache, hfsize, hlength, hdigits⟩ := hrest
    have hnumber := bigEndian_held hsize (carry := e.low / 2 ^ 32) (by omega) (by omega) hlength hdigits
    refine ⟨?_, ?_, ?_, ?_, ?_⟩
    · simp only [Encoder.value, bigEndian_append, hnumber, hlength, hfcache, hfsize, hlow, heldNumber]
      omega
    · simp only [Encoder.digits, List.length_append, hlength, hfsize]
    · omega
    · omega
    · omega
  · next hkeep =>
    obtain ⟨hfcache, hfsize, rfl⟩ := hrest
    refine ⟨?_, ?_, ?_, ?_, ?_⟩
    · obtain ⟨k, hk⟩ : ∃ k, e.csize = k + 1 := ⟨e.csize - 1, by omega⟩
      have hpow : 1 ≤ 256 ^ k := Nat.one_le_pow _ _ (by decide)
      simp only [Encoder.value, List.append_nil, hfcache, hfsize, hlow, heldNumber, hk, Nat.add_sub_cancel, pow_succ,
        ← Nat.mul_assoc]
      have : e.low % 2 ^ 24 = e.low - 0xFF000000 := by omega
      omega
    · simp only [Encoder.digits, List.append_nil, hfsize]
      omega
    · omega
    · omega
    · omega
/-- The digits of `p` that `e` has fixed lie in the coded interval of `e`, after the output `out`. -/
def Encoder.Holds (e : Encoder) (out p : List Byte) : Prop :=
  e.digits out ≤ p.length ∧ e.value out ≤ bigEndian (p.take (e.digits out)) ∧
    bigEndian (p.take (e.digits out)) < e.value out + e.range

/-- The decoder that has read as many digits of `p` as `e` has fixed: its code counts from the low end of the interval
(R246, R247). -/
def Encoder.decoder (e : Encoder) (out p : List Byte) : Decoder :=
  ⟨e.range, bigEndian (p.take (e.digits out)) - e.value out, e.cell, p.drop (e.digits out)⟩

/-! ### One decision -/

/-- Between two decisions of the encoder (R243). -/
structure Encoder.Between (e : Encoder) : Prop where
  range : 2 ^ 24 ≤ e.range
  small : e.range < 2 ^ 32
  cells : ∀ c, 31 ≤ e.cell c ∧ e.cell c ≤ 4065
  absorbs : e.Absorbs e.range

/-- After the interval of R243 is narrowed, before the renormalisation. -/
structure Encoder.Narrow (e : Encoder) : Prop where
  range : 1 ≤ e.range
  small : e.range < 2 ^ 32
  cells : ∀ c, 31 ≤ e.cell c ∧ e.cell c ≤ 4065
  absorbs : e.Absorbs e.range

theorem Encoder.Between.narrowed {e : Encoder} (he : e.Between) (c : Ctx) (b : Bool) : (e.narrowed c b).Narrow := by
  obtain ⟨hrange, hsmall, hcells, hsize, hcache, hcarry⟩ := he
  obtain ⟨hlower, hupper⟩ := parts_pos e.range (e.cell c) hrange (hcells c)
  rw [boundOf, Nat.shiftRight_eq_div_pow] at hlower hupper
  have hadapted : ∀ x, 31 ≤ adapted e.cell c b x ∧ adapted e.cell c b x ≤ 4065 := fun x => by
    rw [adapted]
    split
    · exact updated_bounds _ _ (hcells c)
    · exact hcells x
  cases b
  · exact ⟨hupper, Nat.lt_of_le_of_lt (Nat.sub_le ..) hsmall, hadapted, hsize, hcache, by
      simp only [Encoder.narrowed, Bool.false_eq_true, if_false]
      omega⟩
  · exact ⟨hlower, by simp only [Encoder.narrowed, if_true]; omega, hadapted, hsize, hcache, by
      simp only [Encoder.narrowed, if_true]
      omega⟩

theorem Encoder.digits_narrowed (e : Encoder) (c : Ctx) (b : Bool) (out : List Byte) :
    (e.narrowed c b).digits out = e.digits out := rfl

theorem Encoder.value_narrowed (e : Encoder) (c : Ctx) (b : Bool) (out : List Byte) :
    (e.narrowed c b).value out = e.value out + if b then 0 else e.range / 2 ^ 12 * e.cell c := by
  cases b <;> simp [Encoder.value, Encoder.narrowed, Nat.add_assoc]

/-- The part of the interval that holds the payload tells the decision, and the decoder narrows to that part (R247). -/
theorem Encoder.decides {e : Encoder} (he : e.Between) {c : Ctx} {b : Bool} {out p : List Byte}
    (h : (e.narrowed c b).Holds out p) :
    e.Holds out p ∧ (b = true ↔ (e.decoder out p).code < e.range / 2 ^ 12 * e.cell c) ∧
      (e.decoder out p).narrowed c b = (e.narrowed c b).decoder out p := by
  obtain ⟨hlower, hupper⟩ := parts_pos e.range (e.cell c) he.range (he.cells c)
  rw [boundOf, Nat.shiftRight_eq_div_pow] at hlower hupper
  obtain ⟨hlength, hlow, hhigh⟩ := h
  simp only [Encoder.digits_narrowed, Encoder.value_narrowed] at hlength hlow hhigh
  simp only [Encoder.Holds, Encoder.decoder, Decoder.narrowed, Encoder.digits_narrowed, Encoder.value_narrowed]
  simp only [Encoder.narrowed] at hhigh ⊢
  generalize e.range / 2 ^ 12 * e.cell c = bound at *
  generalize bigEndian (p.take (e.digits out)) = T at *
  cases b
  · simp only [Bool.false_eq_true, if_false, false_iff, Nat.sub_sub] at hlow hhigh ⊢
    exact ⟨⟨hlength, by omega, by omega⟩, by omega, trivial⟩
  · simp only [if_true, Nat.add_zero, true_iff] at hlow hhigh ⊢
    exact ⟨⟨hlength, hlow, by omega⟩, by omega, trivial⟩

/-! ### Renormalisation -/

/-- Both ends of an interval shorter than `2 ^ 24` move up by one digit: so does the distance of a number inside it. -/
theorem distance_round {low number r b : Nat} (hlow : low ≤ number) (hhigh : number < low + r) (hr : r < 2 ^ 24)
    (hb : b < 256) : ((number - low) * 2 ^ 8 + b) % 2 ^ 32 = number * 256 + b - low * 256 := by
  rw [Nat.mod_eq_of_lt (by omega)]
  omega

/-- One round of the loop of R243 keeps a payload inside the interval, and the decoder reads one byte meanwhile
(R247). -/
theorem Encoder.shift_reads {e f : Encoder} {bs : List Byte} (he : e.Narrow) (hlt : e.range < 2 ^ 24)
    (h : ShiftsLow { e with range := e.range * 2 ^ 8 % 2 ^ 32 } f bs) :
    f.Narrow ∧ ∀ out p, f.Holds (out ++ bs) p → e.Holds out p ∧
      ∃ b rest, (e.decoder out p).rest = b :: rest ∧
        { e.decoder out p with
          range := e.range * 2 ^ 8 % 2 ^ 32
          code := ((e.decoder out p).code * 2 ^ 8 + b.toNat) % 2 ^ 32, rest := rest } = f.decoder (out ++ bs) p := by
  obtain ⟨hpos, hsmall, hcells, hsize, hcache, hcarry⟩ := he
  have hround : e.range * 2 ^ 8 % 2 ^ 32 = e.range * 256 := Nat.mod_eq_of_lt (by omega)
  rw [hround] at h ⊢
  have hvalues := shiftsLow_value h ⟨hsize, hcache, hcarry⟩ hpos hlt.le
  obtain ⟨hrange, hcell, -⟩ := h
  dsimp only at hrange hcell
  refine ⟨⟨by omega, by omega, hcell ▸ hcells, hrange ▸ (hvalues []).2.2⟩, fun out p hf => ?_⟩
  obtain ⟨hvalue, hdigits, -⟩ := hvalues out
  have hsamevalue : ({ e with range := e.range * 256 } : Encoder).value out = e.value out := rfl
  have hsamedigits : ({ e with range := e.range * 256 } : Encoder).digits out = e.digits out := rfl
  rw [hsamevalue] at hvalue
  rw [hsamedigits] at hdigits
  obtain ⟨hlength, hlow, hhigh⟩ := hf
  rw [hdigits] at hlength hlow hhigh
  have hin : e.digits out < p.length := hlength
  have hbyte := p[e.digits out].isLt
  rw [bigEndian_take_succ hin, hvalue] at hlow hhigh
  rw [hrange] at hhigh
  have hin' : e.Holds out p := ⟨hin.le, by omega, by omega⟩
  refine ⟨hin', p[e.digits out], p.drop (e.digits out + 1), List.drop_eq_getElem_cons hin, ?_⟩
  simp only [Encoder.decoder, hdigits, hvalue, hrange, hcell, bigEndian_take_succ hin,
    distance_round hin'.2.1 hin'.2.2 hlt hbyte]

theorem Encoder.renormalises_reads {e g : Encoder} {bs : List Byte} (h : Renormalises e g bs) (he : e.Narrow) :
    g.Between ∧ ∀ out p, g.Holds (out ++ bs) p →
      e.Holds out p ∧ Refills (e.decoder out p) (g.decoder (out ++ bs) p) := by
  induction h with
  | done e hrange =>
    refine ⟨⟨hrange, he.small, he.cells, he.absorbs⟩, fun out p h => ?_⟩
    rw [List.append_nil] at h ⊢
    exact ⟨h, .done _ hrange⟩
  | shift e f g xs ys hlt hshift _ ih =>
    obtain ⟨hf, hread⟩ := shift_reads he hlt hshift
    obtain ⟨hg, hmore⟩ := ih hf
    refine ⟨hg, fun out p h => ?_⟩
    rw [← List.append_assoc] at h ⊢
    obtain ⟨hholds, hrefills⟩ := hmore _ _ h
    obtain ⟨hin, b, rest, hrest, hnext⟩ := hread _ _ hholds
    exact ⟨hin, .byte _ _ b rest hlt hrest (hnext ▸ hrefills)⟩

/-! ### Whole payloads -/

/-- A payload inside the interval after some decisions is one from which the decoder gets those decisions. -/
theorem Encoder.encodes_reads {e g : Encoder} {ds : List (Ctx × Bool)} {bs : List Byte} (h : Encodes e ds g bs)
    (he : e.Between) :
    g.Between ∧ ∀ out p, g.Holds (out ++ bs) p →
      e.Holds out p ∧ Answers (e.decoder out p) ds (g.decoder (out ++ bs) p) := by
  induction h with
  | none e =>
    refine ⟨he, fun out p h => ?_⟩
    rw [List.append_nil] at h ⊢
    exact ⟨h, .none _⟩
  | bit e f g c b ds xs ys hrenorm _ ih =>
    obtain ⟨hf, hread⟩ := renormalises_reads hrenorm (he.narrowed c b)
    obtain ⟨hg, hmore⟩ := ih hf
    refine ⟨hg, fun out p h => ?_⟩
    rw [← List.append_assoc] at h ⊢
    obtain ⟨hholds, hanswers⟩ := hmore _ _ h
    obtain ⟨hnarrow, hrefills⟩ := hread _ _ hholds
    obtain ⟨hin, hbit, hnext⟩ := decides he hnarrow
    exact ⟨hin, .bit _ _ _ _ _ _ hbit (hnext ▸ hrefills) hanswers⟩

theorem Encoder.Absorbs.mono {e : Encoder} {r q : Nat} (h : e.Absorbs r) (hq : q ≤ r) : e.Absorbs q := by
  obtain ⟨hsize, hcache, hcarry⟩ := h
  exact ⟨hsize, hcache, by omega⟩

/-- `k` calls of `shift_low()` move the low end up by `k` digits. -/
theorem flushes_value {k : Nat} {e f : Encoder} {bs : List Byte} (h : Flushes k e f bs) (he : e.Absorbs 1)
    (out : List Byte) :
    f.value (out ++ bs) = e.value out * 256 ^ k ∧ f.digits (out ++ bs) = e.digits out + k ∧
      f.low % 2 ^ 32 = e.low * 256 ^ k % 2 ^ 32 := by
  induction h generalizing out with
  | done e => simp
  | shift k e f g xs ys hshift _ ih =>
    obtain ⟨hvalue, hdigits, hf⟩ := shiftsLow_value hshift he le_rfl (by decide) out
    obtain ⟨hvalue', hdigits', hlow'⟩ := ih (hf.mono (by decide)) (out ++ xs)
    obtain ⟨-, -, hlow, -⟩ := hshift
    have hround : f.low % 2 ^ 32 = e.low * 256 % 2 ^ 32 := by omega
    rw [List.append_assoc] at hvalue' hdigits'
    refine ⟨by rw [hvalue', hvalue, pow_succ', Nat.mul_assoc], by omega, ?_⟩
    rw [hlow', Nat.mul_mod, hround, ← Nat.mul_mod, Nat.mul_assoc, ← Nat.pow_succ']

/-- The last of some `shift_low()`. -/
theorem flushes_last {k : Nat} {e g : Encoder} {bs : List Byte} (h : Flushes (k + 1) e g bs) :
    ∃ f xs ys, Flushes k e f xs ∧ ShiftsLow f g ys ∧ bs = xs ++ ys := by
  induction k generalizing e bs with
  | zero =>
    cases h with
    | shift _ _ f _ xs ys hshift hrest =>
      cases hrest
      exact ⟨e, [], xs, .done e, hshift, by simp⟩
  | succ k ih =>
    cases h with
    | shift _ _ f _ xs ys hshift hrest =>
      obtain ⟨f', zs, ws, hflush, hlast, rfl⟩ := ih hrest
      exact ⟨f', xs ++ zs, ws, .shift _ _ _ _ _ _ hshift hflush, hlast, by simp⟩

/-- After the five `shift_low()` of R245 every digit of the low end is output, and nothing else. -/
theorem bigEndian_of_flushes {e f : Encoder} {bs : List Byte} (h : Flushes 5 e f bs) (he : e.Absorbs 1)
    (out : List Byte) : bigEndian (out ++ bs) = e.value out ∧ (out ++ bs).length = e.digits out := by
  obtain ⟨hvalue, hdigits, -⟩ := flushes_value h he out
  obtain ⟨f', xs, ys, hfour, ⟨-, -, hlow, hrest⟩, -⟩ := flushes_last h
  obtain ⟨-, -, hlow'⟩ := flushes_value hfour he out
  have hzero : f'.low % 2 ^ 32 = 0 := by omega
  rw [if_pos (by omega)] at hrest
  obtain ⟨hcache, hsize, -⟩ := hrest
  simp only [Encoder.value, Encoder.digits, hsize, heldNumber] at hvalue hdigits ⊢
  refine ⟨by omega, by omega⟩

theorem start_between : Encoder.start.Between :=
  ⟨by decide, by decide, fun _ => by simp [Encoder.start, freshCells], by decide, by decide, .inl (by decide)⟩

/-- A payload inside the first interval starts the decoder (R246). -/
theorem starts_of_holds {p : List Byte} (h : Encoder.start.Holds [] p) : Starts p (Encoder.start.decoder [] p) := by
  obtain ⟨hlength, -, hlt⟩ := h
  obtain ⟨a, b, c, d, e, rest, rfl⟩ : ∃ a b c d e rest, p = a :: b :: c :: d :: e :: rest := by
    rcases p with _ | ⟨a, _ | ⟨b, _ | ⟨c, _ | ⟨d, _ | ⟨e, r⟩⟩⟩⟩⟩
    case cons.cons.cons.cons.cons => exact ⟨a, b, c, d, e, r, rfl⟩
    all_goals simp [Encoder.digits, Encoder.start] at hlength
  have hvalue : Encoder.start.value [] = 0 := by simp [Encoder.value, Encoder.start, heldNumber]
  have hdigits : Encoder.start.digits [] = 5 := rfl
  have hrange : Encoder.start.range = 0xFFFFFFFF := rfl
  have hnumber : bigEndian [a, b, c, d, e] =
      a.toNat * 2 ^ 32 + b.toNat * 2 ^ 24 + c.toNat * 2 ^ 16 + d.toNat * 2 ^ 8 + e.toNat := by
    simp only [bigEndian, List.foldl_cons, List.foldl_nil]
    omega
  rw [hvalue, hdigits, hrange] at hlt
  simp only [List.take_succ_cons, List.take_zero, hnumber] at hlt
  have ha : a = 0 := BitVec.eq_of_toNat_eq (by simp; omega)
  subst ha
  have hzero : (0 : Byte).toNat = 0 := rfl
  refine ⟨b, c, d, e, rest, rfl, ?_, ?_⟩
  · simp only [Encoder.decoder, hvalue, hdigits, hrange, List.take_succ_cons, List.take_zero, hnumber, hzero,
      List.drop_succ_cons, List.drop_zero, Nat.zero_mul, Nat.zero_add, Nat.sub_zero]
    rfl
  · simp only [Encoder.decoder, hvalue, hdigits, hrange, List.take_succ_cons, List.take_zero, hnumber]
    omega

/-- R249: from the payload of some decisions the decoder gets those decisions, and has then read every byte. -/
theorem payload_answers {ds : List (Ctx × Bool)} {e f : Encoder} {body tail : List Byte}
    (hbody : Encodes Encoder.start ds e body) (htail : Flushes 5 e f tail) :
    5 ≤ (body ++ tail).length ∧
      ∃ x y, Starts (body ++ tail) x ∧ Answers x ds y ∧ y.rest = [] := by
  obtain ⟨he, hread⟩ := Encoder.encodes_reads hbody start_between
  obtain ⟨hnumber, hlength⟩ := bigEndian_of_flushes htail (he.absorbs.mono (by have := he.range; omega)) body
  have htake : (body ++ tail).take (e.digits body) = body ++ tail := List.take_of_length_le hlength.le
  have hrange := he.range
  have hholds : e.Holds ([] ++ body) (body ++ tail) := by
    rw [List.nil_append]
    refine ⟨hlength.ge, ?_⟩
    rw [htake, hnumber]
    omega
  obtain ⟨hstart, hanswers⟩ := hread _ _ hholds
  refine ⟨hstart.1, _, _, starts_of_holds hstart, hanswers, ?_⟩
  rw [List.nil_append, Encoder.decoder, List.drop_eq_nil_of_le hlength.le]

end Sys2Proof.Claims

namespace Sys2Proof.Machine

open Sys2Proof.Claims

/-- The payload of tokens of R110 decodes to them, with their rank count (R249). -/
theorem decodes_of_isPayload {ts : List Token} {p : List Byte} (hts : TokensOk ts) (hp : IsPayload ts p) :
    Decodes p (expand ts).length ts := by
  obtain ⟨e, f, body, tail, hbody, htail, rfl⟩ := hp
  exact ⟨hts, rfl, (payload_answers hbody htail).2⟩

theorem length_of_isPayload {ts : List Token} {p : List Byte} (hp : IsPayload ts p) : 5 ≤ p.length := by
  obtain ⟨e, f, body, tail, hbody, htail, rfl⟩ := hp
  exact (payload_answers hbody htail).1

theorem codable_of_valid {t : Token} (h : t.Valid) : t.Codable := by
  cases t with
  | lit r => trivial
  | run k => exact h.2

theorem codable_of_tokensOk {ts : List Token} (h : TokensOk ts) : ∀ t ∈ ts, t.Codable := fun t ht =>
  codable_of_valid ((tokensOk_iff ts).mp h t ht)

end Sys2Proof.Machine

namespace Sys2Proof.Proofs

open Sys2Proof.Machine Sys2Proof.Claims

/-- Settles O43: the payload stays in the coded interval of every state of the encoder, and the part of the interval it
lies in is the answer of the decoder. -/
theorem rangeCoderRoundTrip : Obligations.RangeCoderRoundTrip := by
  intro maxBlock ts hts hranks
  rw [expand_length] at hranks
  obtain ⟨p, hp, hencode⟩ := rcEncode_payload maxBlock ts (codable_of_tokensOk hts) hranks
  have hdecodes := decodes_of_isPayload hts hp
  refine ⟨p, hp, hdecodes, ?_, ?_⟩
  · simp [hencode, expand_length]
  · simp [decodes_rcDecode none p _ ts hdecodes]

end Sys2Proof.Proofs
end

section
/-! SUPPORT. The rows of the block transform (41_suffix_sort.md R150, 42_bwt.md R170, R171): the rank table sends the
row of a rotation to the row of the rotation one position earlier, since it is the place of that rotation among the
sorted rows; and the statements that the suffix order is the one array SA_CHECK accepts and that the inverse transform
undoes the transform. -/

namespace Sys2Proof.Machine

open Sys2Proof.Claims

/-! ### Places in a sorted sequence -/

/-- How many of the first `n` indices satisfy `P`. -/
def countBelow (n : Nat) (P : Nat → Prop) [DecidablePred P] : Nat := ((Finset.range n).filter P).card

/-- In a sorted sequence `x` stands at each place that has no more places before it than values below `x`, and fewer
than values up to `x`. -/
theorem eq_of_countBelow {α : Type} [LinearOrder α] {f : Nat → α} {n k : Nat} {x : α}
    [DecidablePred (f · < x)] [DecidablePred (f · ≤ x)]
    (hsorted : ∀ i j, i ≤ j → j < n → f i ≤ f j) (hk : k < n) (hlow : countBelow n (f · < x) ≤ k)
    (hhigh : k < countBelow n (f · ≤ x)) : f k = x := by
  refine le_antisymm ?_ ?_
  · by_contra hgt
    have hsub : (Finset.range n).filter (f · ≤ x) ⊆ Finset.range k := fun j hj => by
      obtain ⟨hjn, hjx⟩ := Finset.mem_filter.mp hj
      rw [Finset.mem_range] at hjn ⊢
      by_contra hkj
      exact hgt ((hsorted k j (not_lt.mp hkj) hjn).trans hjx)
    have := Finset.card_le_card hsub
    rw [Finset.card_range] at this
    exact absurd hhigh this.not_gt
  · by_contra hlt
    have hsub : Finset.range (k + 1) ⊆ (Finset.range n).filter (f · < x) := fun j hj => by
      have hjk : j ≤ k := Nat.lt_succ_iff.mp (Finset.mem_range.mp hj)
      exact Finset.mem_filter.mpr ⟨Finset.mem_range.mpr (by omega), (hsorted j k hjk hk).trans_lt (not_le.mp hlt)⟩
    have := Finset.card_le_card hsub
    rw [Finset.card_range] at this
    exact absurd hlow (Nat.not_le.mpr this)

/-- A permutation of the indices changes no count. -/
theorem countBelow_comp {n : Nat} {g : Nat → Nat} (hg : ∀ i, i < n → g i < n)
    (hinj : ∀ i j, i < n → j < n → g i = g j → i = j) (P : Nat → Prop) [DecidablePred P] :
    countBelow n (fun j => P (g j)) = countBelow n P := by
  have hinj' : Set.InjOn g (Finset.range n) := fun i hi j hj => by
    simp only [Finset.coe_range, Set.mem_Iio] at hi hj
    exact hinj i j hi hj
  have himage : (Finset.range n).image g = Finset.range n := by
    refine Finset.eq_of_subset_of_card_le (fun x hx => ?_) (Finset.card_image_of_injOn hinj').ge
    obtain ⟨i, hi, rfl⟩ := Finset.mem_image.mp hx
    exact Finset.mem_range.mpr (hg i (Finset.mem_range.mp hi))
  have hfilter : (Finset.range n).filter P = ((Finset.range n).filter fun j => P (g j)).image g := by
    conv_lhs => rw [← himage, Finset.filter_image]
  rw [countBelow, countBelow, hfilter,
    Finset.card_image_of_injOn (hinj'.mono (Finset.coe_subset.mpr (Finset.filter_subset _ _)))]

theorem countBelow_le_add {n i : Nat} {P Q R : Nat → Prop} [DecidablePred P] [DecidablePred Q] [DecidablePred R]
    (h : ∀ j, j < n → P j → Q j ∨ j < i ∧ R j) : countBelow n P ≤ countBelow n Q + countBelow i R := by
  refine (Finset.card_le_card fun j hj => ?_).trans (Finset.card_union_le _ _)
  simp only [Finset.mem_filter, Finset.mem_range, Finset.mem_union] at hj ⊢
  exact (h j hj.1 hj.2).imp (⟨hj.1, ·⟩) id

theorem countBelow_add_lt {n i : Nat} {P Q R : Nat → Prop} [DecidablePred P] [DecidablePred Q] [DecidablePred R]
    (hi : i < n) (hQ : ∀ j, j < n → Q j → P j) (hR : ∀ j, j ≤ i → R j → P j) (hRi : R i) (hQR : ∀ j, R j → ¬Q j) :
    countBelow n Q + countBelow i R < countBelow n P := by
  have hdisjoint : Disjoint ((Finset.range n).filter Q) ((Finset.range (i + 1)).filter R) :=
    Finset.disjoint_left.mpr fun j hj hj' => hQR j (Finset.mem_filter.mp hj').2 (Finset.mem_filter.mp hj).2
  have hlast : countBelow (i + 1) R = countBelow i R + 1 := by
    rw [countBelow, Finset.range_add_one, Finset.filter_insert, if_pos hRi,
      Finset.card_insert_of_notMem (by simp)]
    rfl
  have hsub : (Finset.range n).filter Q ∪ (Finset.range (i + 1)).filter R ⊆ (Finset.range n).filter P := fun j hj => by
    simp only [Finset.mem_filter, Finset.mem_range, Finset.mem_union] at hj ⊢
    rcases hj with ⟨hjn, hj⟩ | ⟨hji, hj⟩
    · exact ⟨hjn, hQ j hjn hj⟩
    · exact ⟨by omega, hR j (by omega) hj⟩
  have hcard := Finset.card_le_card hsub
  rw [Finset.card_union_of_disjoint hdisjoint] at hcard
  change countBelow n Q + countBelow (i + 1) R ≤ countBelow n P at hcard
  omega

/-- `LF` of R171 as two counts. -/
theorem lastFirst_eq_counts (l : List Byte) (i : Nat) :
    lastFirst l i =
      countBelow l.length (fun j => (l.getD j 0).toNat < (l.getD i 0).toNat) +
        countBelow i (fun j => l.getD j 0 = l.getD i 0) := by
  have hl : l = (List.range l.length).map (l.getD · 0) :=
    List.ext_getElem (by simp) fun j hj _ => by simp [hj]
  have hbelow : (l.filter fun x => x.toNat < (l.getD i 0).toNat).length =
      countBelow l.length (fun j => (l.getD j 0).toNat < (l.getD i 0).toNat) := by
    conv_lhs => rw [hl, List.filter_map, List.length_map, ← hl]
    rfl
  have hequal : ((List.range i).filter fun j => l.getD j 0 == l.getD i 0).length =
      countBelow i (fun j => l.getD j 0 = l.getD i 0) := rfl
  rw [lastFirst, hbelow, hequal]

/-! ### Rows -/

/-- The position before `i`, around a block of `n` bytes (R170). -/
def positionBefore (n i : Nat) : Nat := (i + n - 1) % n

theorem positionBefore_lt {n i : Nat} (hi : i < n) : positionBefore n i < n := Nat.mod_lt _ (by omega)

theorem positionBefore_succ {n k : Nat} (hk : k < n) : positionBefore n ((k + 1) % n) = k := by
  unfold positionBefore
  rcases Nat.lt_or_ge (k + 1) n with h | h
  · rw [Nat.mod_eq_of_lt h, show k + 1 + n - 1 = k + n by omega, Nat.add_mod_right, Nat.mod_eq_of_lt hk]
  · obtain rfl : n = k + 1 := by omega
    rw [Nat.mod_self, Nat.zero_add, Nat.add_sub_cancel, Nat.mod_eq_of_lt hk]

theorem positionBefore_injective {n i j : Nat} (hi : i < n) (hj : j < n)
    (h : positionBefore n i = positionBefore n j) : i = j := by
  have hmod : i + (n - 1) ≡ j + (n - 1) [MOD n] := by
    simpa only [positionBefore, Nat.ModEq, Nat.add_sub_assoc (show 1 ≤ n by omega)] using h
  exact (Nat.ModEq.add_right_cancel' _ hmod).eq_of_lt_of_lt hi hj

section
variable {b : List Byte} {i : Nat} (hi : i < b.length)
include hi

/-- The last byte of a rotation is the byte before it in the block. -/
theorem rotByte_last : rotByte b i (b.length - 1) = b.getD (positionBefore b.length i) 0 := by
  rw [rotByte, positionBefore, Nat.add_sub_assoc (by omega)]

/-- The rotation one position earlier moves the last byte to the front. -/
theorem rotNumbers_positionBefore :
    rotNumbers b (positionBefore b.length i) =
      (b.getD (positionBefore b.length i) 0).toNat :: (rotNumbers b i).dropLast := by
  have hbefore := positionBefore_lt hi
  refine List.ext_getElem (by simp [rotNumbers_length, hi, hbefore]; omega) fun k hk _ => ?_
  rw [rotNumbers_getElem hbefore hk]
  cases k with
  | zero => simp [rotByte, Nat.mod_eq_of_lt hbefore]
  | succ k =>
    have hindex : (positionBefore b.length i + (k + 1)) % b.length = (i + k) % b.length := by
      rw [positionBefore, Nat.mod_add_mod, show i + b.length - 1 + (k + 1) = i + k + b.length by omega,
        Nat.add_mod_right]
    simp [rotNumbers_getElem, hi, rotByte, hindex]

end

theorem lt_of_dropLast_lt {xs ys : List Nat} (hlength : xs.length = ys.length) (h : xs.dropLast < ys.dropLast) :
    xs < ys := by
  induction xs generalizing ys with
  | nil =>
    obtain rfl := List.length_eq_zero_iff.mp hlength.symm
    exact h
  | cons x xs ih =>
    rcases ys with _ | ⟨y, ys⟩
    · cases hlength
    · have htail : xs.length = ys.length := Nat.succ.inj hlength
      rcases xs with _ | ⟨x', xs⟩ <;> rcases ys with _ | ⟨y', ys⟩
      · simp at h
      · cases htail
      · cases htail
      · rw [List.dropLast_cons_cons, List.dropLast_cons_cons, List.cons_lt_cons_iff] at h
        exact List.cons_lt_cons_iff.mpr (h.imp_right fun ⟨heq, hlt⟩ => ⟨heq, ih htail hlt⟩)

/-- Equal rotations have equal rotations one position earlier. -/
theorem rotNumbers_positionBefore_congr {b : List Byte} {i j : Nat} (hi : i < b.length) (hj : j < b.length)
    (h : rotNumbers b i = rotNumbers b j) :
    b.getD (positionBefore b.length i) 0 = b.getD (positionBefore b.length j) 0 ∧
      rotNumbers b (positionBefore b.length i) = rotNumbers b (positionBefore b.length j) := by
  have hlast := (rotEqual_iff hi hj).mpr h (b.length - 1) (by omega)
  rw [rotByte_last hi, rotByte_last hj] at hlast
  exact ⟨hlast, by rw [rotNumbers_positionBefore hi, rotNumbers_positionBefore hj, hlast, h]⟩

/-! ### The rows of the transform -/

section
variable (b : List Byte)

/-- The position whose rotation is row `j` of the sorted rotations. -/
def rowPosition (j : Nat) : Nat := (suffixOrder b).getD j 0

variable {b}

theorem rowPosition_lt {j : Nat} (hj : j < b.length) : rowPosition b j < b.length := by
  have hin : j < (suffixOrder b).length := by rwa [suffixOrder_length]
  rw [rowPosition, List.getD_eq_getElem _ _ hin]
  exact List.mem_range.mp ((suffixOrder_perm b).mem_iff.mp (List.getElem_mem hin))

theorem suffixOrder_nodup (b : List Byte) : (suffixOrder b).Nodup :=
  (suffixOrder_perm b).nodup_iff.mpr List.nodup_range

theorem rowPosition_injective {i j : Nat} (hi : i < b.length) (hj : j < b.length)
    (h : rowPosition b i = rowPosition b j) : i = j := by
  rw [← suffixOrder_length b] at hi hj
  rw [rowPosition, rowPosition, List.getD_eq_getElem _ _ hi, List.getD_eq_getElem _ _ hj] at h
  exact (suffixOrder_nodup b).getElem_inj_iff.mp h

theorem pairwise_of_isSuffixOrder {sa : List Nat} (h : IsSuffixOrder b sa) :
    sa.Pairwise fun i j => before b i j = true := by
  obtain ⟨-, -, -, hchain⟩ := (isSuffixOrder_iff b _).mp h
  have : IsTrans Nat fun i j => before b i j = true := ⟨fun _ _ _ => before_trans⟩
  exact List.isChain_iff_pairwise.mp hchain

theorem perm_range_of_isSuffixOrder {sa : List Nat} (h : IsSuffixOrder b sa) : sa.Perm (List.range b.length) := by
  obtain ⟨hlength, hnodup, hin, -⟩ := (isSuffixOrder_iff b _).mp h
  exact (List.subperm_of_subset hnodup fun x hx => List.mem_range.mpr (hin x hx)).perm_of_length_le (by simp [hlength])

/-- R150 is a strict order, so a block has one suffix order. -/
theorem eq_suffixOrder_of_isSuffixOrder {sa : List Nat} (h : IsSuffixOrder b sa) : sa = suffixOrder b := by
  have horder := isSuffixOrder_suffixOrder b
  refine ((perm_range_of_isSuffixOrder h).trans (suffixOrder_perm b).symm).eq_of_pairwise (fun i j _ _ hij hji => ?_)
    (pairwise_of_isSuffixOrder h) (pairwise_of_isSuffixOrder horder)
  exact absurd ((before_iff b i j).mp hij) ((before_iff b j i).mp hji).asymm

theorem rows_sorted (i j : Nat) (hij : i ≤ j) (hj : j < b.length) :
    rotNumbers b (rowPosition b i) ≤ rotNumbers b (rowPosition b j) := by
  obtain rfl | hlt := Nat.eq_or_lt_of_le hij
  · exact le_rfl
  · rw [← suffixOrder_length b] at hj
    have hi : i < (suffixOrder b).length := hlt.trans hj
    have hbefore := List.pairwise_iff_getElem.mp (pairwise_of_isSuffixOrder (isSuffixOrder_suffixOrder b)) i j hi hj hlt
    rw [rowPosition, rowPosition, List.getD_eq_getElem _ _ hi, List.getD_eq_getElem _ _ hj]
    rw [before_iff, rotKey, rotKey, Prod.Lex.toLex_lt_toLex] at hbefore
    exact hbefore.elim le_of_lt fun h => h.1.le

variable (b) in
/-- The rotation one position before that of row `j`. -/
def earlierRow (j : Nat) : List Nat := rotNumbers b (positionBefore b.length (rowPosition b j))

variable (b) in
/-- The byte of row `j` in the transform (R170). -/
def rowByte (j : Nat) : Byte := (bwtForward b (suffixOrder b)).1.getD j 0

/-- The byte of a row in the transform is the one before the row's rotation. -/
theorem rowByte_eq {j : Nat} (hj : j < b.length) :
    rowByte b j = b.getD (positionBefore b.length (rowPosition b j)) 0 := by
  obtain ⟨-, hbytes, -⟩ := bwtForward_isBwt (suffixOrder_length b) (zero_mem_suffixOrder (by omega))
  exact hbytes j hj

theorem earlierRow_eq {j : Nat} (hj : j < b.length) :
    earlierRow b j = (rowByte b j).toNat :: (rotNumbers b (rowPosition b j)).dropLast := by
  rw [earlierRow, rotNumbers_positionBefore (rowPosition_lt hj), rowByte_eq hj]

/-- Earlier rotations are in the order of the rows' bytes, and of the rows where those are equal. -/
theorem rowByte_lt_of_earlierRow_lt {j k : Nat} (hj : j < b.length) (hk : k < b.length)
    (h : earlierRow b j < earlierRow b k) :
    (rowByte b j).toNat < (rowByte b k).toNat ∨ rowByte b j = rowByte b k ∧ j < k := by
  rw [earlierRow_eq hj, earlierRow_eq hk, List.cons_lt_cons_iff] at h
  refine h.imp_right fun ⟨hbyte, hlt⟩ => ⟨BitVec.eq_of_toNat_eq hbyte, ?_⟩
  by_contra hkj
  have hlength : (rotNumbers b (rowPosition b j)).length = (rotNumbers b (rowPosition b k)).length := by
    rw [rotNumbers_length (rowPosition_lt hj), rotNumbers_length (rowPosition_lt hk)]
  exact (rows_sorted k j (not_lt.mp hkj) hj).not_gt (lt_of_dropLast_lt hlength hlt)

theorem earlierRow_le {j k : Nat} (hj : j < b.length) (hk : k < b.length)
    (h : (rowByte b j).toNat < (rowByte b k).toNat ∨ rowByte b j = rowByte b k ∧ j ≤ k) :
    earlierRow b j ≤ earlierRow b k := by
  by_contra hgt
  obtain hlt | ⟨heq, hlt⟩ := rowByte_lt_of_earlierRow_lt hk hj (not_le.mp hgt)
  · obtain hlt' | ⟨heq, -⟩ := h
    · omega
    · rw [heq] at hlt
      exact hlt.false
  · obtain hlt' | ⟨-, hle⟩ := h
    · rw [heq] at hlt'
      exact hlt'.false
    · omega

/-- The rows and the earlier rotations are the same rotations, in two orders. -/
theorem countBelow_rows (P : List Nat → Prop) [DecidablePred P] :
    countBelow b.length (fun j => P (rotNumbers b (rowPosition b j))) =
      countBelow b.length (fun j => P (earlierRow b j)) := by
  have hrows := countBelow_comp (fun _ => rowPosition_lt) (fun _ _ => rowPosition_injective (b := b))
    (fun x => P (rotNumbers b x))
  have hearlier := countBelow_comp (g := fun j => positionBefore b.length (rowPosition b j))
    (fun _ hj => positionBefore_lt (rowPosition_lt hj))
    (fun _ _ hj hk h => rowPosition_injective hj hk
      (positionBefore_injective (rowPosition_lt hj) (rowPosition_lt hk) h)) (fun x => P (rotNumbers b x))
  exact hrows.trans hearlier.symm

/-- R171: the rank table sends the row of a rotation to the row of the rotation one position earlier, up to equal
rotations, which a periodic block has. -/
theorem row_lastFirst {i : Nat} (hi : i < b.length) :
    lastFirst (bwtForward b (suffixOrder b)).1 i < b.length ∧
      rotNumbers b (rowPosition b (lastFirst (bwtForward b (suffixOrder b)).1 i)) = earlierRow b i := by
  have hlength : (bwtForward b (suffixOrder b)).1.length = b.length := by simp
  have hlt : lastFirst (bwtForward b (suffixOrder b)).1 i < b.length := by
    rw [← lastToFirst_eq_lastFirst (hlength ▸ hi)]
    exact (lastToFirst_lt (hlength ▸ hi)).trans_eq hlength
  have hcounts : lastFirst (bwtForward b (suffixOrder b)).1 i =
      countBelow b.length (fun j => (rowByte b j).toNat < (rowByte b i).toNat) +
        countBelow i (fun j => rowByte b j = rowByte b i) := by
    rw [lastFirst_eq_counts, hlength]
    rfl
  refine ⟨hlt, eq_of_countBelow (f := fun j => rotNumbers b (rowPosition b j)) rows_sorted hlt ?_ ?_⟩
  · rw [countBelow_rows fun r => r < earlierRow b i, hcounts]
    exact countBelow_le_add fun j hj h => (rowByte_lt_of_earlierRow_lt hj hi h).imp_right And.symm
  · rw [countBelow_rows fun r => r ≤ earlierRow b i, hcounts]
    exact countBelow_add_lt hi (fun j hj h => earlierRow_le hj hi (.inl h))
      (fun j hj h => earlierRow_le (by omega) hi (.inr ⟨h, hj⟩)) rfl (fun j h => by simp [h])

/-! ### The walk -/

theorem rowPosition_primary (h : 0 < b.length) :
    (bwtForward b (suffixOrder b)).2 < b.length ∧ rowPosition b (bwtForward b (suffixOrder b)).2 = 0 := by
  obtain ⟨-, -, hlt, hzero, -⟩ := bwtForward_isBwt (suffixOrder_length b) (zero_mem_suffixOrder h)
  exact ⟨hlt, hzero⟩

/-- The row the walk is in when it emits byte `k` holds the rotation after `k`. -/
theorem row_of_walk {p : Nat → Nat} (hfirst : p (b.length - 1) = (bwtForward b (suffixOrder b)).2)
    (hstep : ∀ k, k + 1 < b.length → p k = lastFirst (bwtForward b (suffixOrder b)).1 (p (k + 1)))
    {k : Nat} (hk : k < b.length) :
    p k < b.length ∧ rotNumbers b (rowPosition b (p k)) = rotNumbers b ((k + 1) % b.length) := by
  induction hm : b.length - 1 - k generalizing k with
  | zero =>
    obtain ⟨hlt, hzero⟩ := rowPosition_primary (by omega : 0 < b.length)
    obtain rfl : k = b.length - 1 := by omega
    have hlast : b.length - 1 + 1 = b.length := by omega
    rw [hfirst, hzero, hlast, Nat.mod_self]
    exact ⟨hlt, rfl⟩
  | succ m ih =>
    have hk' : k + 1 < b.length := by omega
    obtain ⟨hlt, hrow⟩ := ih hk' (by omega)
    obtain ⟨hlt', hrow'⟩ := row_lastFirst hlt
    rw [hstep k hk', hrow', earlierRow,
      (rotNumbers_positionBefore_congr (rowPosition_lt hlt) (Nat.mod_lt _ (by omega)) hrow).2,
      positionBefore_succ hk', Nat.mod_eq_of_lt hk']
    exact ⟨hlt', rfl⟩

theorem eq_of_isInverseBwt {out : List Byte} (h : 0 < b.length)
    (hout : IsInverseBwt (bwtForward b (suffixOrder b)).1 (bwtForward b (suffixOrder b)).2 out) : out = b := by
  obtain ⟨hlength, p, hfirst, hstep, hbytes⟩ := hout
  rw [bwtForward_length, suffixOrder_length] at hlength hfirst hstep hbytes
  refine List.ext_getElem hlength fun k hk hkb => ?_
  obtain ⟨hlt, hrow⟩ := row_of_walk hfirst hstep hkb
  have hbyte := (rotNumbers_positionBefore_congr (rowPosition_lt hlt) (Nat.mod_lt _ h) hrow).1
  rw [← rowByte_eq hlt, positionBefore_succ hkb, rowByte, ← hbytes k hkb] at hbyte
  rwa [List.getD_eq_getElem _ _ hk, List.getD_eq_getElem _ _ hkb] at hbyte

end

end Sys2Proof.Machine

namespace Sys2Proof.Proofs

open Sys2Proof.Machine Sys2Proof.Claims

/-- Settles O26: SA_CHECK accepts the suffix orders of the block, and there is one. -/
theorem saCheckAcceptsExactlyWhatSortWrites : Obligations.SaCheckAcceptsExactlyWhatSortWrites := by
  intro b a hlength
  rw [saCheck_accepts_iff hlength]
  exact ⟨eq_suffixOrder_of_isSuffixOrder, fun h => h ▸ isSuffixOrder_suffixOrder b⟩

/-- Settles O29: the walk visits the rows of the rotations from the last byte of the block to the first, up to equal
rotations, whose bytes are the same. -/
theorem bwtRoundTrip : Obligations.BwtRoundTrip := fun b h => by
  obtain ⟨hlt, -⟩ := rowPosition_primary (b := b) h
  exact eq_of_isInverseBwt h (bwtInverse_isInverseBwt (by simpa using hlt))

end Sys2Proof.Proofs
end

section
/-! SUPPORT. What the byte-string stages undo: move-to-front coding (43_rank_run.md R190 to R192), run-length coding
(R195, R196) and the pre-filter (44_prefilter.md R222, R223) against their decoders, the size of a filtered block
(R227), and the statements about them and about the range of a probability cell (45_entropy.md R240). -/

namespace Sys2Proof.Machine

open Sys2Proof.Claims

/-! ### Move-to-front -/

theorem nodup_mtfInitial : mtfInitial.Nodup := by
  refine List.Nodup.map_on (fun i hi j hj h => ?_) List.nodup_range
  have hnat := congrArg BitVec.toNat h
  rw [List.mem_range] at hi hj
  rwa [BitVec.toNat_ofNat, BitVec.toNat_ofNat, Nat.mod_eq_of_lt hi, Nat.mod_eq_of_lt hj] at hnat

theorem mtfDecGo_mtfEncGo {q : List Byte} (hq : q.Perm mtfInitial) (x : List Byte) :
    mtfDecGo q (mtfEncGo q x) = x := by
  induction x generalizing q with
  | nil => rfl
  | cons c x ih =>
    have hrank := idxOf_toNat_of_perm_mtfInitial hq c
    have hnext := moveToFront_perm_mtfInitial hq (BitVec.ofNat 8 (q.idxOf c))
    have hvalue : q.getD (q.idxOf c) 0 = c := by
      rw [List.getD_eq_getElem _ _ (List.idxOf_lt_length_iff.mpr (mem_of_perm_mtfInitial hq c)), List.getElem_idxOf]
    rw [hrank] at hnext
    rw [mtfEncGo, mtfDecGo, hrank, hvalue, ih hnext]

theorem mtfEncGo_mtfDecGo {q : List Byte} (hq : q.Perm mtfInitial) (r : List Byte) :
    mtfEncGo q (mtfDecGo q r) = r := by
  induction r generalizing q with
  | nil => rfl
  | cons k r ih =>
    have hindex : q.idxOf (q.getD k.toNat 0) = k.toNat := by
      rw [List.getD_eq_getElem _ _ (rank_lt_length hq k)]
      exact (hq.nodup_iff.mpr nodup_mtfInitial).idxOf_getElem _ _
    rw [mtfDecGo, mtfEncGo, hindex, ih (moveToFront_perm_mtfInitial hq k), BitVec.ofNat_toNat, BitVec.setWidth_eq]

theorem mtfDecode_mtfEncode (x : List Byte) : mtfDecode (mtfEncode x) = x := mtfDecGo_mtfEncGo (.refl _) x

theorem mtfEncode_mtfDecode (r : List Byte) : mtfEncode (mtfDecode r) = r := mtfEncGo_mtfDecGo (.refl _) r

/-! ### Run-length coding -/

theorem rleDecode_rleEncode {r : List Byte} (h : r.length < 2 ^ 32) : rleDecode (rleEncode r).1 = .ok r := by
  have hparse := parseTokens_tokenBytes .corruptStream (rleTokens r) ((tokensOk_iff _).mp (tokensOk_rleTokens h))
  rw [rleDecode, rleEncode, hparse]
  exact congrArg Except.ok (expand_rleTokens r)

/-! ### The pre-filter -/

theorem contextIndex_take (b : List Byte) {i : Nat} (hi : i ≤ b.length) (h : 4 ≤ i) :
    contextIndex (b.take i) i = contextIndex b i := by
  have hbyte (j : Nat) (hj : j < i) : (b.take i).getD j 0 = b.getD j 0 := by
    rw [List.getD_eq_getElem _ _ (by simp; omega), List.getD_eq_getElem _ _ (by omega), List.getElem_take]
  rw [contextIndex, contextIndex, hbyte (i - 4) (by omega), hbyte (i - 3) (by omega), hbyte (i - 2) (by omega),
    hbyte (i - 1) (by omega)]

/-- The decoder's table is the encoder's: a context is made of bytes before the decision point (R221). -/
theorem noteContext_take (b : List Byte) (t : Nat → Option Nat) {i : Nat} (hi : i ≤ b.length) :
    noteContext (b.take i) t i = noteContext b t i := by
  funext h
  by_cases h4 : 4 ≤ i
  · rw [noteContext, noteContext, contextIndex_take b hi h4]
  · rw [noteContext, noteContext, if_neg (by simp [h4]), if_neg (by simp [h4])]

theorem take_append_slice (b : List Byte) (i len : Nat) : b.take i ++ (b.drop i).take len = b.take (i + len) :=
  List.take_add.symm

/-- A maximal match is a copy: each of its bytes stands earlier in the block, or is copied before it. -/
theorem isCopy_of_agree {b : List Byte} {p i len : Nat} (hp : p < i) (hinside : i + len ≤ b.length)
    (hagree : ∀ k, k < len → b.getD (p + k) 0 = b.getD (i + k) 0) :
    IsCopy (b.take i) p ((b.drop i).take len) := by
  intro k hk
  have hk' : k < len := by simp at hk; omega
  rw [take_append_slice, List.getD_eq_getElem _ _ hk, List.getD_eq_getElem _ _ (by simp; omega)]
  have := hagree k hk'
  rw [List.getD_eq_getElem _ _ (by omega), List.getD_eq_getElem _ _ (by omega)] at this
  simp [this]

/-- From each decision point on the decoder restores what the encoder filtered (R222, R223). -/
theorem unfiltered_of_filteredFrom {b s : List Byte} {t : Nat → Option Nat} {i : Nat} (h : FilteredFrom b t i s)
    (hi : i ≤ b.length) (ht : PositionsBelow t i) : Unfiltered b.length t (b.take i) s (some b) := by
  have hlength {i : Nat} (hi : i ≤ b.length) : (b.take i).length = i := List.length_take_of_le hi
  have hnote (t : Nat → Option Nat) {i : Nat} (hi : i ≤ b.length) :
      noteContext (b.take i) t (b.take i).length = noteContext b t i := by rw [hlength hi, noteContext_take b t hi]
  have hbyte {i : Nat} (hi : i < b.length) : b.take i ++ [b.getD i 0] = b.take (i + 1) := by
    rw [List.getD_eq_getElem _ _ hi, List.take_append_getElem]
  induction h with
  | done t =>
    rw [List.take_length]
    exact .done _ _ rfl
  | literal t i len out hlt _ _ hlit _ ih =>
    refine .literal _ _ _ _ _ (by rwa [hlength hi]) hlit ?_
    rw [hnote t hi, hbyte hlt]
    exact ih hlt (ht.note _ (by omega))
  | stuffed t i len out hlt _ _ hesc _ ih =>
    refine .stuffed _ _ _ _ (by rwa [hlength hi]) ?_
    rw [hnote t hi, ← hesc, hbyte hlt]
    exact ih hlt (ht.note _ (by omega))
  | found t i len out hlt hmatch hlen _ ih =>
    have hinside := inside_of_isMatchLength hmatch hi
    rw [IsMatchLength] at hmatch
    split at hmatch
    · omega
    · next p hp =>
      obtain ⟨hmax, -, hagree, -⟩ := hmatch
      have hcode : (BitVec.ofNat 8 (len - 2)).toNat = len - 2 := by
        rw [BitVec.toNat_ofNat]
        omega
      have hne : BitVec.ofNat 8 (len - 2) ≠ 0 := fun hzero => by
        rw [hzero] at hcode
        simp at hcode
        omega
      refine .copied _ _ _ _ p ((b.drop i).take len) _ (by rwa [hlength hi]) hne ?_ ?_ ?_
        (isCopy_of_agree (ht.candidate_lt hp) hinside hagree) ?_
      · rw [hlength hi, ← hp]
        exact ite_congr rfl (fun h4 => by rw [contextIndex_take b hi h4]) fun _ => rfl
      · rw [hlength hi, hcode]
        omega
      · rw [hcode]
        simp
        omega
      · rw [hnote t hi, take_append_slice]
        exact ih hinside (ht.note _ (by omega))

theorem fltDecode_fltEncode (b : List Byte) : fltDecode (fltEncode b) b.length = .ok b :=
  (unfiltered_some_iff ..).mp
    (unfiltered_of_filteredFrom (fltEncode_filteredFrom b) b.length.zero_le (positionsBelow_empty 0))

/-- Each decision point takes at least one byte, and outputs one byte or two that stand for a match or an escape
(R227). -/
theorem filteredFrom_length {b out : List Byte} {t : Nat → Option Nat} {i : Nat} (h : FilteredFrom b t i out) :
    (i < b.length → 1 ≤ out.length) ∧ out.length ≤ 2 * (b.length - i) := by
  induction h with
  | done t => simp
  | literal t i len out hlt _ _ _ _ ih | stuffed t i len out hlt _ _ _ _ ih =>
    simp only [List.length_cons]
    omega
  | found t i len out hlt hmatch hlen _ ih =>
    have := inside_of_isMatchLength hmatch hlt.le
    simp only [List.length_cons]
    omega

/-! ### Probability cells -/

theorem foldl_updated_bounds (bits : List Bool) {p : Nat} (h : 31 ≤ p ∧ p ≤ 4065) :
    31 ≤ bits.foldl updated p ∧ bits.foldl updated p ≤ 4065 := by
  induction bits generalizing p with
  | nil => exact h
  | cons b bits ih => exact ih (updated_bounds p b h)

end Sys2Proof.Machine

namespace Sys2Proof.Proofs

open Sys2Proof.Machine Sys2Proof.Claims

/-- Settles O32: encoder and decoder keep the same list, in which each value stands once. -/
theorem mtfRoundTrip : Obligations.MtfRoundTrip := fun s => ⟨mtfDecode_mtfEncode s, mtfEncode_mtfDecode s⟩

/-- Settles O35: the tokens are read back from their stream, and stand for the ranks. -/
theorem rleRoundTrip : Obligations.RleRoundTrip := fun _ => rleDecode_rleEncode

/-- Settles O38: the decoder's output is always the part of the block before the encoder's decision point. -/
theorem filterRoundTrip : Obligations.FilterRoundTrip := fltDecode_fltEncode

/-- Settles O39: the bounds hold from every decision point on. -/
theorem filterSizeBounds : Obligations.FilterSizeBounds := by
  intro b h
  obtain ⟨hlow, hhigh⟩ := filteredFrom_length (fltEncode_filteredFrom b)
  exact ⟨hlow h, hhigh⟩

/-- Settles O40: each update keeps a cell between 31 and 4065. -/
theorem probabilityStaysInRange : Obligations.ProbabilityStaysInRange :=
  ⟨updateProb_eq, fun bits => foldl_updated_bounds bits (by decide)⟩

end Sys2Proof.Proofs
end

section
/-! SUPPORT. What RC_ENC and RC_DEC do with a token stream and a payload (45_entropy.md R246 to R251): the decoder on a
payload that is cut, goes on too long or holds a token it refuses; and the statements about the two commands. -/

namespace Sys2Proof.Machine

open Sys2Proof.Claims

/-! ### Token streams with a malformed end -/

theorem parseTokens_malformed (e : Err) {bad : List Byte} (h : Malformed bad) : parseTokens e bad = .error e := by
  rcases h with ⟨r, rfl, hr⟩ | ⟨r, rfl⟩
  · exact parseTokens_short e r hr
  · rw [parseTokens_run, if_pos (by decide)]

theorem parseTokens_tokenBytes_malformed (e : Err) {ts : List Token} {bad : List Byte} (hts : TokensOk ts)
    (hbad : Malformed bad) : parseTokens e (tokenBytes ts ++ bad) = .error e := by
  rw [tokensOk_iff] at hts
  induction ts with
  | nil => exact parseTokens_malformed e hbad
  | cons t ts ih =>
    obtain ⟨ht, hts⟩ := List.forall_mem_cons.mp hts
    rw [tokenBytes, List.append_assoc, parseTokens_cons e t ht, ih hts]

/-! ### The result of RC_ENC -/

section
variable {src dst : Span} {s : State} (hpass : firstError (.rcEnc src dst) s = none)
include hpass

theorem rcEncResult_of_checks :
    rcEncResult src dst s = do
      let toks ← parseTokens .invalidInput (s.source src)
      let r ← rcEncode s.maxBlock (some dst.len.toNat) toks
      return ⟨r.1, BitVec.ofNat 32 r.2⟩ := by
  have hchecks : rcEncChecks src dst s = .ok () := (checksOf_ok_iff (.rcEnc src dst) s).mpr hpass
  rw [rcEncResult, hchecks]
  rfl

theorem rcEncResult_of_tokens {ts : List Token} (hts : TokensOk ts) (hsrc : s.source src = tokenBytes ts) :
    rcEncResult src dst s = do
      let r ← rcEncode s.maxBlock (some dst.len.toNat) ts
      return ⟨r.1, BitVec.ofNat 32 r.2⟩ := by
  rw [rcEncResult_of_checks hpass, hsrc, parseTokens_tokenBytes _ _ ((tokensOk_iff ts).mp hts), ok_bind]

end

end Sys2Proof.Machine

namespace Sys2Proof.Claims

open Sys2Proof.Machine

/-! ### A decoder with more bytes to read -/

/-- The decoder with the bytes `r` after those it has not read. -/
def Decoder.extended (x : Decoder) (r : List Byte) : Decoder := { x with rest := x.rest ++ r }

theorem Refills.extended {x y : Decoder} (h : Refills x y) (r : List Byte) :
    Refills (x.extended r) (y.extended r) := by
  induction h with
  | done x hrange => exact .done _ hrange
  | byte x y b rest hlt hrest _ ih =>
    exact .byte _ _ b (rest ++ r) hlt (by rw [Decoder.extended, hrest, List.cons_append]) ih

theorem Answers.extended {x y : Decoder} {ds : List (Ctx × Bool)} (h : Answers x ds y) (r : List Byte) :
    Answers (x.extended r) ds (y.extended r) := by
  induction h with
  | none x => exact .none _
  | bit x y z c b ds hbit hrefills _ ih => exact .bit _ _ _ _ _ _ hbit (hrefills.extended r) ih

theorem Starts.extended {p : List Byte} {x : Decoder} (h : Starts p x) (r : List Byte) :
    Starts (p ++ r) (x.extended r) := by
  obtain ⟨b, c, d, e, rest, rfl, rfl, hlt⟩ := h
  exact ⟨b, c, d, e, rest ++ r, rfl, rfl, hlt⟩

theorem ReadsTokens.extended {p : List Byte} {ts : List Token} {rest : List Byte} (h : ReadsTokens p ts rest)
    (r : List Byte) : ReadsTokens (p ++ r) ts (rest ++ r) := by
  obtain ⟨x, y, hstart, hanswers, rfl⟩ := h
  exact ⟨_, _, hstart.extended r, hanswers.extended r, rfl⟩

theorem HasDecoded.extended {p : List Byte} {m : Nat} {ts : List Token} (h : HasDecoded p m ts) (r : List Byte) :
    HasDecoded (p ++ r) m ts := by
  obtain ⟨hts, hcount, rest, hreads⟩ := h
  exact ⟨hts, hcount, rest ++ r, hreads.extended r⟩

theorem Decodes.hasDecoded {p : List Byte} {m : Nat} {ts : List Token} (h : Decodes p m ts) : HasDecoded p m ts := by
  obtain ⟨hts, hcount, hreads⟩ := h
  exact ⟨hts, hcount.le, [], hreads⟩

end Sys2Proof.Claims

namespace Sys2Proof.Machine

open Sys2Proof.Claims

/-! ### What the decoder does with tokens and what follows them -/

/-- A payload on which the decoder does not start is refused (R246). -/
theorem rcDecode_of_not_starts {p : List Byte} (h : ∀ x, ¬Starts p x) (cap : Option Nat) (m : Nat) :
    rcDecode cap p m = .error .corruptStream := by
  rw [rcDecode]
  cases hx : Dec.init p with
  | error e => rw [init_error p e hx]
  | ok x => exact absurd (init_starts p x hx).1 (h x.view)

/-- After `m` ranks the payload ends, or it is refused for the bytes left over (R249). -/
theorem rcDecode_of_readsTokens (cap : Option Nat) {p : List Byte} {m : Nat} {ts : List Token} {rest : List Byte}
    (hts : TokensOk ts) (hcount : (expand ts).length = m) (h : ReadsTokens p ts rest) :
    rcDecode cap p m =
      emitAll cap [] (tokenBytes ts) >>= fun o => if rest = [] then .ok o else .error .corruptStream := by
  obtain ⟨X, Y, hstart, hanswers, rfl⟩ := h
  obtain ⟨x, hinit, rfl, hready⟩ := starts_init p X hstart
  rw [expand_length] at hcount
  obtain ⟨y, prev, fuel, -, hend, -, hgo⟩ := answers_tokensGo cap ts m m x false [] Y [] hready
    ((tokensOk_iff ts).mp hts) hcount.le le_rfl (by simpa using hanswers)
  cases hend
  have hstop : ∀ o, decodeTokensGo cap fuel y prev 0 o = .ok (o, y) := fun o => by
    cases fuel <;> simp [decodeTokensGo]
  rw [hcount, Nat.sub_self] at hgo
  simp only [rcDecode, hinit, hgo]
  cases emitAll cap [] (tokenBytes ts) with
  | error e => rfl
  | ok o => by_cases hrest : y.rest = [] <;> simp [hstop, Dec.view, hrest]

theorem count_pos_of_valid {t : Token} (h : t.Valid) : 1 ≤ t.count := by
  cases t with
  | lit r => exact le_rfl
  | run k => exact h.1

/-- A valid token that stands for ranks still to come is not refused. -/
theorem not_refused_of_valid {room : Nat} {t : Token} (h : t.Valid) (hroom : t.count ≤ room) : ¬Refused room t := by
  rintro (rfl | ⟨k, rfl, hk⟩)
  · exact h rfl
  · exact absurd hroom (Nat.not_le.mpr hk)

/-- Valid tokens are written before the decoder refuses the token that follows them (R249). -/
theorem tokensGo_refused (cap : Option Nat) {bad : Token} (hbad : bad.Codable) (hpos : 1 ≤ bad.count)
    {post : List Token} {Z : Decoder} {pre : List Token} {fuel room : Nat} {x : Dec} {prev : Bool} {out : List Byte}
    (hx : x.Ready) (hpre : ∀ t ∈ pre, t.Valid) (hcount : countAll pre < room) (hfuel : room ≤ fuel)
    (hrefused : Refused (room - countAll pre) bad)
    (h : Answers x.view (decisions prev (pre ++ bad :: post)) Z) :
    decodeTokensGo cap fuel x prev room out =
      emitAll cap out (tokenBytes pre) >>= fun _ => .error .corruptStream := by
  induction pre generalizing fuel room x prev out with
  | nil =>
    obtain ⟨fuel, rfl⟩ : ∃ f, fuel = f + 1 := ⟨fuel - 1, by omega⟩
    rw [List.nil_append, decisions_cons] at h
    obtain ⟨-, -, -, hraises, -⟩ := answers_decodeToken x Z hx prev room bad _ hbad hpos h
    have hroom : room ≠ 0 := by omega
    simp only [decodeTokensGo, hroom, if_false, hraises hrefused, tokenBytes, emitAll, ok_bind]
  | cons t pre ih =>
    obtain ⟨ht, hpre⟩ := List.forall_mem_cons.mp hpre
    simp only [countAll] at hcount hrefused
    obtain ⟨fuel, rfl⟩ : ∃ f, fuel = f + 1 := ⟨fuel - 1, by omega⟩
    have hpos' := count_pos_of_valid ht
    rw [List.cons_append, decisions_cons] at h
    obtain ⟨y, hy, hrest, -, hreturns⟩ := answers_decodeToken x Z hx prev room t _ (codable_of_valid ht) hpos' h
    have hroom : room ≠ 0 := by omega
    rw [Nat.sub_add_eq] at hrefused
    simp only [decodeTokensGo, hroom, if_false, hreturns (not_refused_of_valid ht (by omega)), tokenBytes,
      emitAll_append]
    cases emitAll cap out t.bytes with
    | error e => rfl
    | ok o => exact ih hy hpre (by omega) (by omega) hrefused hrest

theorem rcDecode_refused (cap : Option Nat) {p : List Byte} {m : Nat} {pre post : List Token} {bad : Token}
    (hbad : bad.Codable) (hpos : 1 ≤ bad.count) (hpre : TokensOk pre) (hcount : countAll pre < m)
    (hrefused : Refused (m - countAll pre) bad) (hp : IsPayload (pre ++ bad :: post) p) :
    rcDecode cap p m = emitAll cap [] (tokenBytes pre) >>= fun _ => .error .corruptStream := by
  obtain ⟨e, f, body, tail, hbody, htail, rfl⟩ := hp
  obtain ⟨-, X, Y, hstart, hanswers, -⟩ := payload_answers hbody htail
  obtain ⟨x, hinit, rfl, hready⟩ := starts_init _ X hstart
  simp only [rcDecode, hinit,
    tokensGo_refused cap hbad hpos hready ((tokensOk_iff pre).mp hpre) hcount le_rfl hrefused hanswers]
  cases emitAll cap [] (tokenBytes pre) <;> rfl

/-- The tokens decoded so far are a part of the stream the decoder returns. -/
theorem hasDecoded_length_le {p t : List Byte} {m : Nat} {ts : List Token} (h : HasDecoded p m ts)
    (hdecode : rcDecode none p m = .ok t) : (tokenBytes ts).length ≤ t.length := by
  by_contra hlt
  have hover := hasDecoded_overflow t.length p m ts h (not_le.mp hlt)
  rw [rcDecode_capped t.length m p t hdecode le_rfl] at hover
  cases hover

theorem decodes_of_rcDecode {p t : List Byte} {m : Nat} (hm : m < 2 ^ 32) (h : rcDecode none p m = .ok t) :
    ∃ ts, Decodes p m ts ∧ t = tokenBytes ts := by
  obtain ⟨ts, hts, hout⟩ := rcDecode_decodes none p m hm t h
  rw [emitAll_scratch, List.nil_append, Except.ok.injEq] at hout
  exact ⟨ts, hts, hout.symm⟩

theorem rcDecode_of_decodes {p : List Byte} {m : Nat} {ts : List Token} (h : Decodes p m ts) :
    rcDecode none p m = .ok (tokenBytes ts) := by
  rw [decodes_rcDecode none p m ts h, emitAll_scratch, List.nil_append]

/-- A payload that decodes does not decode once it is cut short (R249, R251). -/
theorem not_decodes_take {p t : List Byte} {m k : Nat} (h : rcDecode none p m = .ok t) (hk : k < p.length)
    (ts : List Token) : ¬Decodes (p.take k) m ts := by
  rintro ⟨hts, hcount, hreads⟩
  have hrest : p.drop k ≠ [] := by simp [hk]
  have hwhole := hreads.extended (p.drop k)
  rw [List.take_append_drop, List.nil_append] at hwhole
  rw [rcDecode_of_readsTokens none hts hcount hwhole, emitAll_scratch, ok_bind, if_neg hrest] at h
  cases h

/-- No token takes more than five bytes for a rank (R110). -/
theorem tokenBytes_length_le {ts : List Token} (h : TokensOk ts) : (tokenBytes ts).length ≤ 5 * countAll ts := by
  rw [tokensOk_iff] at h
  induction ts with
  | nil => rfl
  | cons t ts ih =>
    obtain ⟨ht, hts⟩ := List.forall_mem_cons.mp h
    have hpos := count_pos_of_valid ht
    have htoken : t.bytes.length ≤ 5 := by cases t <;> simp [Token.bytes]
    have hrest := ih hts
    simp only [tokenBytes, countAll, List.length_append]
    omega

/-! ### Payloads that do not start -/

theorem not_starts_of_short {p : List Byte} (h : p.length < 5) (x : Decoder) : ¬Starts p x := by
  rintro ⟨b, c, d, e, rest, rfl, -⟩
  simp only [List.length_cons] at h
  omega

theorem not_starts_of_first {p : List Byte} (h : p.getD 0 0 ≠ 0) (x : Decoder) : ¬Starts p x := by
  rintro ⟨b, c, d, e, rest, rfl, -⟩
  exact h rfl

theorem not_starts_of_code {p : List Byte} (h : p.take 5 = [0x00, 0xFF, 0xFF, 0xFF, 0xFF]) (x : Decoder) :
    ¬Starts p x := by
  rintro ⟨b, c, d, e, rest, rfl, rfl, hlt⟩
  simp only [List.take_succ_cons, List.take_zero, List.cons.injEq, and_true, true_and] at h
  obtain ⟨rfl, rfl, rfl, rfl⟩ := h
  simp at hlt

/-! ### The result of RC_DEC -/

section
variable {src dst : Span} {m : Word} {s : State} (hpass : firstError (.rcDec src dst m) s = none)
include hpass

theorem rcDecResult_of_checks :
    rcDecResult src dst m s = do
      let out ← rcDecode (some dst.len.toNat) (s.source src) m.toNat
      return ⟨out, src.len⟩ := by
  have hchecks : rcDecChecks src dst m s = .ok () := (checksOf_ok_iff (.rcDec src dst m) s).mpr hpass
  rw [rcDecResult, hchecks]
  rfl

theorem rcDec_succeeds_of_rcDecode {out : List Byte}
    (h : rcDecode (some dst.len.toNat) (s.source src) m.toNat = .ok out) :
    Succeeds (.rcDec src dst m) s dst.addr.toNat out src.len := by
  have hresult : rcDecResult src dst m s = .ok ⟨out, src.len⟩ := by
    rw [rcDecResult_of_checks hpass, h]
    rfl
  exact succeeds_of_dataResult (i := .rcDec src dst m) (congrArg some hresult)

theorem rcDec_fails_of_rcDecode {e : Err} (h : rcDecode (some dst.len.toNat) (s.source src) m.toNat = .error e) :
    Fails (.rcDec src dst m) s e.code := by
  have hresult : rcDecResult src dst m s = .error e := by
    rw [rcDecResult_of_checks hpass, h]
    rfl
  exact fails_of_dataResult (i := .rcDec src dst m) (congrArg some hresult)

theorem rcDec_fails_of_not_starts (h : ∀ x, ¬Starts (s.source src) x) : Fails (.rcDec src dst m) s 0x03 :=
  rcDec_fails_of_rcDecode hpass (rcDecode_of_not_starts h _ _)

theorem rcDec_fails_of_overflow {ts : List Token} (h : HasDecoded (s.source src) m.toNat ts)
    (hover : dst.len.toNat < (tokenBytes ts).length) : Fails (.rcDec src dst m) s 0x04 :=
  rcDec_fails_of_rcDecode hpass (hasDecoded_overflow _ _ _ ts h hover)

/-- A source that does not decode fails with CorruptStream, but for tokens that overflow the destination first. -/
theorem rcDec_fails_cases (h : ∀ ts, ¬Decodes (s.source src) m.toNat ts) :
    Fails (.rcDec src dst m) s 0x03 ∨
      Fails (.rcDec src dst m) s 0x04 ∧
        ∃ ts, HasDecoded (s.source src) m.toNat ts ∧ dst.len.toNat < (tokenBytes ts).length := by
  cases hdecode : rcDecode (some dst.len.toNat) (s.source src) m.toNat with
  | ok out =>
    obtain ⟨ts, hts, -⟩ := rcDecode_decodes _ _ _ m.isLt out hdecode
    exact absurd hts (h ts)
  | error e =>
    obtain rfl | ⟨rfl, hover⟩ := rcDecode_error _ _ _ m.isLt e hdecode
    · exact .inl (rcDec_fails_of_rcDecode hpass hdecode)
    · exact .inr ⟨rcDec_fails_of_rcDecode hpass hdecode, hover⟩

theorem rcDec_corrupt_of_fits (h : ∀ ts, ¬Decodes (s.source src) m.toNat ts)
    (hfits : ∀ ts, HasDecoded (s.source src) m.toNat ts → (tokenBytes ts).length ≤ dst.len.toNat) :
    Fails (.rcDec src dst m) s 0x03 := by
  obtain hcorrupt | ⟨-, ts, hts, hover⟩ := rcDec_fails_cases hpass h
  · exact hcorrupt
  · exact absurd (hfits ts hts) hover.not_ge

theorem rcDec_of_decoded {t : List Byte} (h : rcDecode none (s.source src) m.toNat = .ok t) :
    (t.length ≤ dst.len.toNat → Succeeds (.rcDec src dst m) s dst.addr.toNat t src.len) ∧
      (dst.len.toNat < t.length → Fails (.rcDec src dst m) s 0x04) := by
  obtain ⟨ts, hts, rfl⟩ := decodes_of_rcDecode m.isLt h
  exact ⟨fun hfits => rcDec_succeeds_of_rcDecode hpass (rcDecode_capped _ _ _ _ h hfits),
    rcDec_fails_of_overflow hpass hts.hasDecoded⟩

/-- A source that is refused after some tokens. -/
theorem rcDec_of_refused {ts : List Token}
    (h : rcDecode (some dst.len.toNat) (s.source src) m.toNat =
      emitAll (some dst.len.toNat) [] (tokenBytes ts) >>= fun _ => .error .corruptStream) :
    ((tokenBytes ts).length ≤ dst.len.toNat → Fails (.rcDec src dst m) s 0x03) ∧
      (dst.len.toNat < (tokenBytes ts).length → Fails (.rcDec src dst m) s 0x04) := by
  refine ⟨fun hfits => ?_, fun hover => ?_⟩
  · rw [emitAll_nil_of_fits hfits, ok_bind] at h
    exact rcDec_fails_of_rcDecode hpass h
  · rw [emitAll_nil_of_overflows hover, error_bind] at h
    exact rcDec_fails_of_rcDecode hpass h

theorem rcDec_of_error {e : Err} (h : rcDecode none (s.source src) m.toNat = .error e) :
    (∀ ts, ¬Decodes (s.source src) m.toNat ts) ∧
      (Fails (.rcDec src dst m) s 0x03 ∨ Fails (.rcDec src dst m) s 0x04) ∧
      (5 * m.toNat ≤ dst.len.toNat → Fails (.rcDec src dst m) s 0x03) := by
  have hnone : ∀ ts, ¬Decodes (s.source src) m.toNat ts := fun ts hts => by
    rw [rcDecode_of_decodes hts] at h
    cases h
  refine ⟨hnone, (rcDec_fails_cases hpass hnone).imp_right And.left, fun hroom => ?_⟩
  refine rcDec_corrupt_of_fits hpass hnone fun ts ⟨hts, hcount, _⟩ => ?_
  have hbytes := tokenBytes_length_le hts
  rw [expand_length] at hcount
  omega

theorem rcDec_of_cut {p t : List Byte} {k : Nat} (h : rcDecode none p m.toNat = .ok t) (hk : k < p.length)
    (hsrc : s.source src = p.take k) (hfits : t.length ≤ dst.len.toNat) : Fails (.rcDec src dst m) s 0x03 := by
  refine rcDec_corrupt_of_fits hpass (fun ts => hsrc ▸ not_decodes_take h hk ts) fun ts hts => ?_
  have hwhole := hts.extended (p.drop k)
  rw [hsrc, List.take_append_drop] at hwhole
  exact (hasDecoded_length_le hwhole h).trans hfits

theorem rcDec_of_left {p t rest : List Byte} (h : rcDecode none p m.toNat = .ok t) (hrest : rest ≠ [])
    (hsrc : s.source src = p ++ rest) :
    (t.length ≤ dst.len.toNat → Fails (.rcDec src dst m) s 0x03) ∧
      (dst.len.toNat < t.length → Fails (.rcDec src dst m) s 0x04) := by
  obtain ⟨ts, ⟨hts, hcount, hreads⟩, rfl⟩ := decodes_of_rcDecode m.isLt h
  have hwhole := hreads.extended rest
  rw [List.nil_append, ← hsrc] at hwhole
  refine rcDec_of_refused hpass ?_
  rw [rcDecode_of_readsTokens _ hts hcount hwhole]
  simp only [hrest, if_false]

end

end Sys2Proof.Machine

namespace Sys2Proof.Proofs

open Sys2Proof.Machine Sys2Proof.Claims

/-- Settles O41: the model's encoder outputs through `emit` what the relations give, up to the token whose ranks pass
MAX_BLOCK_SIZE; a malformed stream is refused before anything is output. -/
theorem rcEncWritesThePayload : Obligations.RcEncWritesThePayload := by
  intro src dst s ts hts
  refine ⟨checksRaise _ s, fun hpass => ⟨fun hsrc hranks => ?_, fun pre post t hsrc hsplit hpre hpasses => ?_,
    fun bad hbad hsrc => ?_⟩⟩
  · rw [expand_length] at hranks ⊢
    obtain ⟨p, hp, hencode⟩ := rcEncode_payload s.caps.toNat ts (codable_of_tokensOk hts) hranks
    refine ⟨p, hp, by simp [hencode], length_of_isPayload hp, fun hfits => ?_, fun hover => ?_⟩
    · have hresult := rcEncResult_of_tokens hpass hts hsrc
      rw [State.maxBlock, hencode, emitAll_nil_of_fits hfits] at hresult
      exact succeeds_of_dataResult (i := .rcEnc src dst) (congrArg some hresult)
    · have hresult := rcEncResult_of_tokens hpass hts hsrc
      rw [State.maxBlock, hencode, emitAll_nil_of_overflows hover] at hresult
      exact fails_of_dataResult (i := .rcEnc src dst) (congrArg some hresult)
  · have hcodable : ∀ u ∈ pre ++ [t], u.Codable := fun u hu => codable_of_tokensOk hts u (by
      rw [hsplit]
      simp only [List.mem_append, List.mem_cons, List.not_mem_nil, or_false] at hu ⊢
      exact hu.imp_right .inl)
    rw [expand_append, List.length_append, expand_length, expand_length] at hpasses
    rw [expand_length] at hpre
    obtain ⟨e, out, hout, hencode⟩ := rcEncode_passes s.caps.toNat pre post t hcodable hpre
      (by simpa [countAll] using hpasses)
    refine ⟨e, out, hout, fun hfits => ?_, fun hover => ?_⟩
    · have hresult := rcEncResult_of_tokens hpass hts hsrc
      rw [State.maxBlock, hsplit, hencode, emitAll_nil_of_fits hfits] at hresult
      exact fails_of_dataResult (i := .rcEnc src dst) (congrArg some hresult)
    · have hresult := rcEncResult_of_tokens hpass hts hsrc
      rw [State.maxBlock, hsplit, hencode, emitAll_nil_of_overflows hover] at hresult
      exact fails_of_dataResult (i := .rcEnc src dst) (congrArg some hresult)
  · have hresult := rcEncResult_of_checks hpass
    rw [hsrc, parseTokens_tokenBytes_malformed _ hts hbad] at hresult
    exact fails_of_dataResult (i := .rcEnc src dst) (congrArg some hresult)

/-- Settles O42: the decoder of the relations and the model's give the same tokens, and everything it refuses is refused
after tokens that fit or overflow the destination. -/
theorem rcDecWritesTheTokenStream : Obligations.RcDecWritesTheTokenStream := by
  intro src dst m s
  refine ⟨checksRaise _ s, fun hpass => ⟨fun ts hts => ?_, rcDec_corrupt_of_fits hpass,
    fun ts => rcDec_fails_of_overflow hpass, fun t ht => ⟨decodes_of_rcDecode m.isLt ht, rcDec_of_decoded hpass ht⟩,
    fun e => rcDec_of_error hpass, fun hshort => ?_, fun hfirst => ?_, fun hcode => ?_,
    fun p t k ht hk hsrc hfits => rcDec_of_cut hpass ht hk hsrc hfits,
    fun k pre post bad p hpre _ hcount hbad hp hsrc => ?_,
    fun p t rest ht hrest hsrc => rcDec_of_left hpass ht hrest hsrc⟩⟩
  · have hdecode := rcDecode_of_decodes hts
    exact ⟨hdecode, rcDec_of_decoded hpass hdecode⟩
  · exact rcDec_fails_of_not_starts hpass (not_starts_of_short (by rwa [source_length]))
  · exact rcDec_fails_of_not_starts hpass (not_starts_of_first hfirst)
  · exact rcDec_fails_of_not_starts hpass (not_starts_of_code hcode)
  · rw [expand_length] at hcount hbad
    have hrefused : Refused (m.toNat - countAll pre) bad := by
      obtain rfl | ⟨rfl, -, hpast⟩ := hbad
      · exact .inl rfl
      · exact .inr ⟨k, rfl, by omega⟩
    have hcodes : bad.Codable ∧ 1 ≤ bad.count := by
      obtain rfl | ⟨rfl, hword, hpast⟩ := hbad
      · exact ⟨trivial, le_rfl⟩
      · exact ⟨hword, by simp only [Token.count]; omega⟩
    refine rcDec_of_refused hpass ?_
    rw [hsrc]
    exact rcDecode_refused _ hcodes.1 hcodes.2 hpre hcount hrefused hp

end Sys2Proof.Proofs
end

section
/-! SUPPORT. Decompression (46_codec.md R274 to R277): its header checks are the list of the statements, its stages undo
those of compression; and the statements about Encoded Blocks and DECOMPRESS. -/

namespace Sys2Proof.Machine

open Sys2Proof.Claims

/-! ### The header checks -/

/-- The checks of R274 before the payload is decoded. -/
def headerChecks (maxBlock : Nat) (e : List Byte) (cap : Nat) : Except Err Unit := do
  raiseIf (e.length < hdrSize) .corruptStream
  raiseIf (e.take 3 != [0x42, 0x53, 0x43] || e.getD 3 0 != 0x01) .unsupportedFormat
  raiseIf (e.getD 4 0 &&& 0xFE != 0 || e.getD 5 0 != 0 || e.getD 6 0 != 0 || e.getD 7 0 != 0) .unsupportedFormat
  raiseIf (hdrSize + (le32At e 24).toNat > e.length) .corruptStream
  raiseIf ((le32At e 8).toNat == 0) .corruptStream
  raiseIf ((le32At e 8).toNat > maxBlock) .capacityExceeded
  raiseIf ((le32At e 8).toNat > cap) .capacityExceeded
  raiseIf (if e.getD 4 0 = 0x01 then !(1 ≤ (le32At e 12).toNat && (le32At e 12).toNat < (le32At e 8).toNat)
    else (le32At e 12).toNat != (le32At e 8).toNat) .corruptStream
  raiseIf ((le32At e 16).toNat ≥ (le32At e 12).toNat) .corruptStream

/-- The payload the header announces (30_encoding.md R115). -/
def payloadOf (e : List Byte) : List Byte := (e.drop hdrSize).take (wordAt e 24)

theorem wordAt_eq (e : List Byte) (o : Nat) : wordAt e o = (le32At e o).toNat := (ofLe32_toNat ..).symm

/-- What follows the header checks: the stages, and the checksum (R274). -/
def restoreBlock (e : List Byte) : Except Err (List Byte × Nat) := do
  let b ← decodeBlock (e.getD 4 0 = 0x01) (wordAt e 8) (wordAt e 12) (wordAt e 16) (payloadOf e)
  raiseIf (crc32 b != le32At e 20) .corruptStream
  return (b, hdrSize + wordAt e 24)

theorem decompressBlock_eq (maxBlock : Nat) (e : List Byte) (cap : Nat) :
    decompressBlock maxBlock e cap = headerChecks maxBlock e cap >>= fun _ => restoreBlock e := by
  simp only [decompressBlock, headerChecks, restoreBlock, payloadOf, wordAt_eq, bind_assoc]

theorem errorCode_raiseIf (c : Bool) (e : Err) : errorCode (raiseIf c e) = if c then some e.code else none := by
  cases c <;> rfl

theorem flag_bits_clear_iff (f : Byte) : f &&& 0xFE = 0 ↔ ¬1 < f.toNat := by
  revert f
  decide

/-- A filter_flags byte whose bits 7:1 are clear is 0 or 1. -/
theorem flags_cases {f : Byte} (h : ¬1 < f.toNat) : f = 0 ∨ f = 1 := by
  revert f
  decide

theorem errorCode_headerChecks (maxBlock : Nat) (e : List Byte) (cap : Nat) :
    errorCode (headerChecks maxBlock e cap) = headerError maxBlock cap e := by
  have hfirst (c : Bool) (code : Byte) (later : Option Byte) :
      (if c then some code else none).or later = if c then some code else later := by cases c <;> rfl
  simp only [headerChecks, errorCode_bind, errorCode_raiseIf, hfirst, headerError, ← wordAt_eq]
  generalize e.getD 3 0 = version, e.getD 4 0 = flags, e.getD 5 0 = r5, e.getD 6 0 = r6, e.getD 7 0 = r7
  refine ite_congr decide_eq_true_eq (fun _ => rfl) fun _ => ?_
  refine ite_congr (by simp) (fun _ => rfl) fun _ => ?_
  refine ite_congr ?_ (fun _ => rfl) fun hflags => ?_
  · simp only [Bool.or_eq_true, bne_iff_ne, ne_eq, flag_bits_clear_iff, not_not, or_assoc]
  refine ite_congr decide_eq_true_eq (fun _ => rfl) fun _ => ?_
  refine ite_congr (propext beq_iff_eq) (fun _ => rfl) fun _ => ?_
  refine ite_congr decide_eq_true_eq (fun _ => rfl) fun _ => ?_
  refine ite_congr decide_eq_true_eq (fun _ => rfl) fun _ => ?_
  obtain rfl | rfl := flags_cases (not_or.mp hflags).1
  · rw [if_neg (c := (0 : Byte) = 1 ∧ _) (by simp)]
    exact ite_congr (by simp) (fun _ => rfl) fun _ => ite_congr decide_eq_true_eq (fun _ => rfl) fun _ => rfl
  · rw [if_neg (c := (1 : Byte) = 0 ∧ _) (by simp)]
    exact ite_congr (by simp) (fun _ => rfl) fun _ => ite_congr decide_eq_true_eq (fun _ => rfl) fun _ => rfl

/-- What a good header says (R274). -/
structure GoodHeader (maxBlock cap : Nat) (e : List Byte) : Prop where
  room : 28 ≤ e.length
  payload : 28 + wordAt e 24 ≤ e.length
  length : 1 ≤ wordAt e 8 ∧ wordAt e 8 ≤ maxBlock ∧ wordAt e 8 ≤ cap
  stage : e.getD 4 0 = 0 ∧ wordAt e 12 = wordAt e 8 ∨ e.getD 4 0 = 1
  primary : wordAt e 16 < wordAt e 12

theorem headerError_eq_none_iff {maxBlock cap : Nat} {e : List Byte} : headerError maxBlock cap e = none ↔
    ¬e.length < 28 ∧ ¬(e.take 3 ≠ [0x42, 0x53, 0x43] ∨ e.getD 3 0 ≠ 0x01) ∧
      ¬(1 < (e.getD 4 0).toNat ∨ e.getD 5 0 ≠ 0 ∨ e.getD 6 0 ≠ 0 ∨ e.getD 7 0 ≠ 0) ∧
      ¬e.length < 28 + wordAt e 24 ∧ ¬wordAt e 8 = 0 ∧ ¬maxBlock < wordAt e 8 ∧ ¬cap < wordAt e 8 ∧
      ¬(e.getD 4 0 = 0x01 ∧ (wordAt e 12 = 0 ∨ wordAt e 8 ≤ wordAt e 12)) ∧
      ¬(e.getD 4 0 = 0x00 ∧ wordAt e 12 ≠ wordAt e 8) ∧ ¬wordAt e 12 ≤ wordAt e 16 := by
  have hfirst {c : Prop} [Decidable c] {code : Byte} {later : Option Byte} :
      (if c then some code else later) = none ↔ ¬c ∧ later = none := by split <;> simp_all
  simp only [headerError, hfirst, and_true]

theorem goodHeader_of_headerError {maxBlock cap : Nat} {e : List Byte} (h : headerError maxBlock cap e = none) :
    GoodHeader maxBlock cap e := by
  obtain ⟨hroom, -, hflags, hpayload, hzero, hmax, hcap, -, hplain, hprimary⟩ := headerError_eq_none_iff.mp h
  refine ⟨by omega, by omega, by omega, ?_, by omega⟩
  obtain hflag | hflag := flags_cases (not_or.mp hflags).1
  · exact .inl ⟨hflag, not_not.mp fun hne => hplain ⟨hflag, hne⟩⟩
  · exact .inr hflag

theorem decompressBlock_of_headerError_none {maxBlock cap : Nat} {e : List Byte}
    (h : headerError maxBlock cap e = none) : decompressBlock maxBlock e cap = restoreBlock e := by
  rw [← errorCode_headerChecks, errorCode_eq_none_iff] at h
  rw [decompressBlock_eq, h, ok_bind]

theorem decompressBlock_of_headerError_some {maxBlock cap : Nat} {e : List Byte} {code : Byte}
    (h : headerError maxBlock cap e = some code) :
    ∃ err, decompressBlock maxBlock e cap = .error err ∧ err.code = code := by
  rw [← errorCode_headerChecks, errorCode_eq_some_iff] at h
  obtain ⟨err, herr, hcode⟩ := h
  exact ⟨err, by rw [decompressBlock_eq, herr, error_bind], hcode⟩

/-- A block is returned only after every header check. -/
theorem headerError_of_decompressBlock {maxBlock cap : Nat} {e : List Byte} {r : List Byte × Nat}
    (h : decompressBlock maxBlock e cap = .ok r) : headerError maxBlock cap e = none := by
  cases hcode : headerError maxBlock cap e with
  | none => rfl
  | some code =>
    obtain ⟨err, herr, -⟩ := decompressBlock_of_headerError_some hcode
    rw [h] at herr
    cases herr

/-! ### The stages of R274 -/

theorem rcDecode_scratch_error {p : List Byte} {m : Nat} {e : Err} (hm : m < 2 ^ 32)
    (h : rcDecode none p m = .error e) : e = .corruptStream := by
  rw [rcDecode] at h
  cases hx : Dec.init p with
  | error x =>
    rw [hx] at h
    cases h
    exact init_error p e hx
  | ok x =>
    obtain ⟨-, hready⟩ := init_starts p x hx
    simp only [hx] at h
    cases hgo : decodeTokensGo none m x false m [] with
    | error x =>
      obtain rfl | ⟨-, ts, Y, -, -, hemit, -⟩ := tokensGo_error none m m _ false [] x hready hm hgo
      · rw [hgo] at h
        cases h
        rfl
      · simp at hemit
    | ok r =>
      simp only [hgo] at h
      split at h <;> cases h
      rfl

/-- The block R274 restores from the tokens of the payload, before the filter. -/
def stageOf (ts : List Token) (primary : Nat) : List Byte := bwtInverse (mtfDecode (expand ts)) primary

theorem decodeBlock_of_decodes {filtered : Bool} {n m primary : Nat} {payload : List Byte} {ts : List Token}
    (h : Decodes payload m ts) :
    decodeBlock filtered n m primary payload =
      if filtered then fltDecode (stageOf ts primary) n else .ok (stageOf ts primary) := by
  have hparse := parseTokens_tokenBytes .corruptStream ts ((tokensOk_iff ts).mp h.1)
  rw [decodeBlock, rcDecode_of_decodes h, ok_bind, hparse, ok_bind]
  rfl

theorem decodeBlock_of_rcDecode_error {filtered : Bool} {n m primary : Nat} {payload : List Byte} {e : Err}
    (hm : m < 2 ^ 32) (h : rcDecode none payload m = .error e) :
    decodeBlock filtered n m primary payload = .error .corruptStream := by
  rw [decodeBlock, h, error_bind, rcDecode_scratch_error hm h]

theorem restoreBlock_of_decodeBlock {e b : List Byte}
    (h : decodeBlock (e.getD 4 0 = 0x01) (wordAt e 8) (wordAt e 12) (wordAt e 16) (payloadOf e) = .ok b) :
    restoreBlock e =
      if (crc32 b).toNat = wordAt e 20 then .ok (b, 28 + wordAt e 24) else .error .corruptStream := by
  rw [restoreBlock, h, ok_bind, wordAt_eq e 20]
  simp only [BitVec.toNat_inj]
  split
  · next hcrc =>
    rw [hcrc]
    simp [raiseIf, hdrSize]
  · next hcrc => simp [raiseIf, hcrc]

theorem restoreBlock_of_decodeBlock_error {e : List Byte} {err : Err}
    (h : decodeBlock (e.getD 4 0 = 0x01) (wordAt e 8) (wordAt e 12) (wordAt e 16) (payloadOf e) = .error err) :
    restoreBlock e = .error err := by
  rw [restoreBlock, h, error_bind]

end Sys2Proof.Machine
end

section
/-! SUPPORT. COMPRESS and DECOMPRESS against the statements (46_codec.md): what an Encoded Block is made of, what a
source that decompression accepts says, and that decompression undoes compression. -/

namespace Sys2Proof.Machine

open Sys2Proof.Claims

/-! ### The result of DECOMPRESS -/

section
variable {src dst : Span} {s : State} (hpass : firstError (.decompress src dst) s = none)
include hpass

theorem decompressResult_of_checks :
    decompressResult src dst s = do
      let r ← decompressBlock s.caps.toNat (s.source src) dst.len.toNat
      return ⟨r.1, BitVec.ofNat 32 r.2⟩ := by
  have hchecks : decompressChecks src dst s = .ok () := (checksOf_ok_iff (.decompress src dst) s).mpr hpass
  rw [decompressResult, hchecks]
  rfl

theorem decompress_succeeds {b : List Byte} {used : Nat}
    (h : decompressBlock s.caps.toNat (s.source src) dst.len.toNat = .ok (b, used)) :
    Succeeds (.decompress src dst) s dst.addr.toNat b (BitVec.ofNat 32 used) := by
  have hresult : decompressResult src dst s = .ok ⟨b, BitVec.ofNat 32 used⟩ := by
    rw [decompressResult_of_checks hpass, h]
    rfl
  exact succeeds_of_dataResult (i := .decompress src dst) (congrArg some hresult)

theorem decompress_fails {err : Err}
    (h : decompressBlock s.caps.toNat (s.source src) dst.len.toNat = .error err) :
    Fails (.decompress src dst) s err.code := by
  have hresult : decompressResult src dst s = .error err := by
    rw [decompressResult_of_checks hpass, h]
    rfl
  exact fails_of_dataResult (i := .decompress src dst) (congrArg some hresult)

theorem decompress_fails_of_headerError {code : Byte}
    (h : headerError s.caps.toNat dst.len.toNat (s.source src) = some code) :
    Fails (.decompress src dst) s code := by
  obtain ⟨err, herr, rfl⟩ := decompressBlock_of_headerError_some h
  exact decompress_fails hpass herr

variable (hheader : headerError s.caps.toNat dst.len.toNat (s.source src) = none)
include hheader

theorem decompress_fails_of_decodeBlock {err : Err}
    (h : decodeBlock ((s.source src).getD 4 0 = 0x01) (wordAt (s.source src) 8) (wordAt (s.source src) 12)
      (wordAt (s.source src) 16) (payloadOf (s.source src)) = .error err) :
    Fails (.decompress src dst) s err.code := by
  apply decompress_fails hpass
  rw [decompressBlock_of_headerError_none hheader, restoreBlock_of_decodeBlock_error h]

theorem decompress_endsWith {b : List Byte}
    (h : decodeBlock ((s.source src).getD 4 0 = 0x01) (wordAt (s.source src) 8) (wordAt (s.source src) 12)
      (wordAt (s.source src) 16) (payloadOf (s.source src)) = .ok b) :
    EndsWith (.decompress src dst) s dst.addr.toNat (s.source src) b := by
  have hblock := (decompressBlock_of_headerError_none hheader).trans (restoreBlock_of_decodeBlock h)
  refine ⟨crc32 b, isCrc32_crc32 b, fun hcrc => ?_, fun hcrc => ?_⟩
  · rw [if_pos hcrc] at hblock
    exact decompress_succeeds hpass hblock
  · rw [if_neg hcrc] at hblock
    exact decompress_fails hpass hblock

end

/-- DECOMPRESS completes only after its checks, and with the block R274 returns. -/
theorem decompress_completes {src dst : Span} {s t : State} (hstep : exec (.decompress src dst) s = .next t)
    (herr : t.err = false) :
    ∃ b used, decompressBlock s.caps.toNat (s.source src) dst.len.toNat = .ok (b, used) ∧
      Succeeds (.decompress src dst) s dst.addr.toNat b (BitVec.ofNat 32 used) := by
  have hnot {code : Byte} : ¬Fails (.decompress src dst) s code := by
    rintro ⟨m, k, hfails, -⟩
    rw [hstep] at hfails
    obtain rfl := Host.Outcome.next.inj hfails
    simp at herr
  cases hfirst : firstError (.decompress src dst) s with
  | some code => exact absurd (checksRaise _ s code hfirst) hnot
  | none =>
    cases hblock : decompressBlock s.caps.toNat (s.source src) dst.len.toNat with
    | error err => exact absurd (decompress_fails hfirst hblock) hnot
    | ok r => exact ⟨r.1, r.2, rfl, decompress_succeeds hfirst hblock⟩

/-! ### What a completed decompression says of its source -/

theorem wordAt_lt (e : List Byte) (o : Nat) : wordAt e o < 2 ^ 32 := by
  rw [wordAt_eq]
  exact (le32At e o).isLt

theorem source_le32At {s : State} {src : Span} {o : Nat} (h : o + 4 ≤ src.len.toNat) :
    le32At (s.source src) o = s.mem.read32 (src.addr.toNat + o) := by
  simp only [State.source, le32At, Memory.read32, Nat.add_assoc]
  rw [read_getD _ _ _ _ (by omega), read_getD _ _ _ _ (by omega), read_getD _ _ _ _ (by omega),
    read_getD _ _ _ _ (by omega)]

theorem read_of_stored {m₀ m : Memory} {a : Nat} {out : List Byte} (h : Stored m₀ m a out) :
    m.read a out.length = out := by
  refine List.ext_getElem (by simp) fun k hk hk' => ?_
  rw [← List.getD_eq_getElem _ 0, ← List.getD_eq_getElem _ 0, read_getD _ _ _ _ hk', h.1 k hk']

/-- A block R274 returns has the length and the checksum of its header, which is good. -/
theorem header_of_decompressBlock {maxBlock cap used : Nat} {e b : List Byte}
    (h : decompressBlock maxBlock e cap = .ok (b, used)) :
    GoodHeader maxBlock cap e ∧ b.length = wordAt e 8 ∧ used = 28 + wordAt e 24 ∧
      (crc32 b).toNat = wordAt e 20 := by
  have hheader := headerError_of_decompressBlock h
  have hgood := goodHeader_of_headerError hheader
  rw [decompressBlock_of_headerError_none hheader] at h
  cases hdecode : decodeBlock (e.getD 4 0 = 0x01) (wordAt e 8) (wordAt e 12) (wordAt e 16) (payloadOf e) with
  | error err =>
    rw [restoreBlock_of_decodeBlock_error hdecode] at h
    cases h
  | ok x =>
    rw [restoreBlock_of_decodeBlock hdecode] at h
    split at h
    · next hcrc =>
      obtain ⟨rfl, rfl⟩ := Prod.mk.inj (Except.ok.inj h)
      refine ⟨hgood, decodeBlock_length _ _ _ _ _ _ (wordAt_lt ..) (fun hplain => ?_) hdecode, rfl, hcrc⟩
      obtain ⟨-, hm⟩ | hflag := hgood.stage
      · exact hm
      · rw [hflag] at hplain
        exact absurd hplain (by decide)
    · cases h

/-! ### What an Encoded Block is made of -/

/-- The Encoded Block with its payload as the relation of R242 to R245. -/
theorem compressBlock_payload {maxBlock : Nat} {b e : List Byte} {tf : Bool} (hword : b.length < 2 ^ 32)
    (hmax : b.length ≤ maxBlock) (h : compressBlock maxBlock b tf = .ok e) :
    let x := (stageBlock b tf).1
    ∃ p, IsPayload (stageTokens x) p ∧ rcEncode maxBlock none (stageTokens x) = .ok (p, x.length) ∧
      e = header (stageBlock b tf).2 b.length x.length (bwtForward x (suffixOrder x)).2 (crc32 b) p.length ++ p := by
  intro x
  have hx : x.length ≤ b.length := stageBlock_length_le b tf
  have hts : TokensOk (stageTokens x) := tokensOk_stageTokens (Nat.lt_of_le_of_lt hx hword)
  obtain ⟨p, hp, hencode⟩ := rcEncode_payload maxBlock _ (codable_of_tokensOk hts)
    (countAll_stageTokens x ▸ hx.trans hmax)
  have hencode : rcEncode maxBlock none (stageTokens x) = .ok (p, x.length) := by
    simp [hencode, countAll_stageTokens]
  refine ⟨p, hp, hencode, ?_⟩
  rw [compressBlock_eq maxBlock tf hword, hencode] at h
  exact (Except.ok.inj h).symm

theorem stageBlock_of_kept {b : List Byte} {tf : Bool} (h : tf = true ∧ (fltEncode b).length < b.length) :
    stageBlock b tf = (fltEncode b, 0x01) := by
  simp [stageBlock, h]

theorem stageBlock_of_dropped {b : List Byte} {tf : Bool} (h : ¬(tf = true ∧ (fltEncode b).length < b.length)) :
    stageBlock b tf = (b, 0x00) := by
  rw [stageBlock, if_neg]
  simpa using h

theorem stageBlock_pos {b : List Byte} (tf : Bool) (h : 0 < b.length) : 0 < (stageBlock b tf).1.length := by
  by_cases hkept : tf = true ∧ (fltEncode b).length < b.length
  · rw [stageBlock_of_kept hkept]
    exact (filteredFrom_length (fltEncode_filteredFrom b)).1 h
  · rwa [stageBlock_of_dropped hkept]

/-! ### The header read back -/

theorem toNat_ofNat_word {n : Nat} (h : n < 2 ^ 32) : (BitVec.ofNat 32 n).toNat = n := by
  rw [BitVec.toNat_ofNat, Nat.mod_eq_of_lt h]

section
variable (flags : Byte) (n m primary : Nat) (crc : Word) (plen : Nat) (r : List Byte)

@[simp] theorem header_length : (header flags n m primary crc plen).length = 28 := rfl

/-- The five words of the header. -/
theorem wordAt_header :
    wordAt (header flags n m primary crc plen ++ r) 8 = (BitVec.ofNat 32 n).toNat ∧
      wordAt (header flags n m primary crc plen ++ r) 12 = (BitVec.ofNat 32 m).toNat ∧
      wordAt (header flags n m primary crc plen ++ r) 16 = (BitVec.ofNat 32 primary).toNat ∧
      wordAt (header flags n m primary crc plen ++ r) 20 = crc.toNat ∧
      wordAt (header flags n m primary crc plen ++ r) 24 = (BitVec.ofNat 32 plen).toNat := by
  simp only [wordAt_eq]
  refine ⟨congrArg _ (ofLe32_le32 _), congrArg _ (ofLe32_le32 _), congrArg _ (ofLe32_le32 _),
    congrArg _ (ofLe32_le32 _), congrArg _ (ofLe32_le32 _)⟩

theorem payloadOf_header (p : List Byte) (hp : p.length < 2 ^ 32) :
    payloadOf (header flags n m primary crc p.length ++ (p ++ r)) = p := by
  obtain ⟨-, -, -, -, hplen⟩ := wordAt_header flags n m primary crc p.length (p ++ r)
  rw [payloadOf, hplen, toNat_ofNat_word hp, hdrSize, List.drop_left' (header_length ..), List.take_left' rfl]

end

/-- The header of an Encoded Block passes every check of R274. -/
theorem headerError_header {maxBlock cap : Nat} {flags : Byte} {n m primary : Nat} {crc : Word} {p r : List Byte}
    (hn : 1 ≤ n ∧ n ≤ maxBlock ∧ n ≤ cap) (hword : n < 2 ^ 32) (hp : p.length < 2 ^ 32)
    (hstage : flags = 0 ∧ m = n ∨ flags = 1 ∧ 1 ≤ m ∧ m < n) (hprimary : primary < m) :
    headerError maxBlock cap (header flags n m primary crc p.length ++ (p ++ r)) = none := by
  obtain ⟨hn8, hm12, hp16, -, hp24⟩ := wordAt_header flags n m primary crc p.length (p ++ r)
  rw [toNat_ofNat_word (by omega)] at hn8 hm12 hp16 hp24
  have hflag : (header flags n m primary crc p.length ++ (p ++ r)).getD 4 0 = flags := rfl
  have hlength : (header flags n m primary crc p.length ++ (p ++ r)).length = 28 + (p.length + r.length) := by simp
  rw [headerError_eq_none_iff, hn8, hm12, hp16, hp24, hflag, hlength]
  refine ⟨by omega, not_or.mpr ⟨not_not.mpr rfl, not_not.mpr rfl⟩,
    not_or.mpr ⟨?_, not_or.mpr ⟨not_not.mpr rfl, not_or.mpr ⟨not_not.mpr rfl, not_not.mpr rfl⟩⟩⟩, by omega, by omega,
    by omega, by omega, ?_, ?_, by omega⟩
  · obtain ⟨rfl, -⟩ | ⟨rfl, -⟩ := hstage <;> decide
  · obtain ⟨rfl, -⟩ | ⟨rfl, hm⟩ := hstage
    · simp
    · exact fun ⟨_, hbad⟩ => by omega
  · obtain ⟨rfl, rfl⟩ | ⟨rfl, -⟩ := hstage
    · simp
    · simp

/-! ### Decompression undoes compression -/

/-- The transform and the ranks of a stage block are undone (R274). -/
theorem stageOf_stageTokens {x : List Byte} (h : 0 < x.length) :
    stageOf (stageTokens x) (bwtForward x (suffixOrder x)).2 = x := by
  have hlength : (bwtForward x (suffixOrder x)).1.length = x.length := by simp
  have hprimary := (rowPosition_primary h).1
  rw [stageOf, expand_stageTokens, mtfDecode_mtfEncode]
  exact eq_of_isInverseBwt h (bwtInverse_isInverseBwt (hlength ▸ hprimary))

/-- All stages of R274 undo those of R272. -/
theorem decodeBlock_stages {b p : List Byte} {tf : Bool} (hpos : 0 < b.length) (hword : b.length < 2 ^ 32)
    (hp : IsPayload (stageTokens (stageBlock b tf).1) p) :
    decodeBlock ((stageBlock b tf).2 = 0x01) b.length (stageBlock b tf).1.length
      (bwtForward (stageBlock b tf).1 (suffixOrder (stageBlock b tf).1)).2 p = .ok b := by
  have hx := stageBlock_length_le b tf
  have hdecodes := decodes_of_isPayload (tokensOk_stageTokens (Nat.lt_of_le_of_lt hx hword)) hp
  rw [expand_length, countAll_stageTokens] at hdecodes
  rw [decodeBlock_of_decodes hdecodes, stageOf_stageTokens (stageBlock_pos tf hpos)]
  by_cases hkept : tf = true ∧ (fltEncode b).length < b.length
  · rw [stageBlock_of_kept hkept]
    exact fltDecode_fltEncode b
  · rw [stageBlock_of_dropped hkept]
    rfl

end Sys2Proof.Machine

namespace Sys2Proof.Proofs

open Sys2Proof.Machine Sys2Proof.Claims

/-- Settles O46: the stages of the model are the relations, and the header is written out. -/
theorem encodedBlockLayout : Obligations.EncodedBlockLayout := by
  intro maxBlock b tf e hbound hpos hmax hcompress
  have hword : b.length < 2 ^ 32 := by omega
  obtain ⟨p, hp, hencode, rfl⟩ := compressBlock_payload hword hmax hcompress
  have hx := stageBlock_length_le b tf
  have hzero := zero_mem_suffixOrder (stageBlock_pos tf hpos)
  refine ⟨fltEncode b, (stageBlock b tf).1, _, _, p, (stageBlock b tf).2, _, _, _, crc32 b,
    fltEncode_filteredFrom b, fun hkept => ?_, fun hdropped => ?_, isSuffixOrder_suffixOrder _,
    bwtForward_isBwt (suffixOrder_length _) hzero, mtfEncode_isMtf _, tokensOk_stageTokens (by omega),
    canonical_rleTokens _, expand_stageTokens _, hp, hencode, isCrc32_crc32 b, rfl⟩
  · rw [stageBlock_of_kept hkept]
    exact ⟨rfl, rfl⟩
  · rw [stageBlock_of_dropped hdropped]
    exact ⟨rfl, rfl⟩

/-- Settles O47: the header is good, so the stages decide: the payload's tokens, the filter, the checksum. -/
theorem decompressWritesTheBlock : Obligations.DecompressWritesTheBlock := by
  intro src dst s
  refine ⟨checksRaise _ s, fun hpass => ⟨fun b used => decompress_succeeds hpass, fun err => decompress_fails hpass,
    fun hheader => ?_⟩⟩
  intro e payload
  have hm : wordAt e 12 < 2 ^ 32 := wordAt_lt e 12
  have hgood : GoodHeader s.caps.toNat dst.len.toNat e := goodHeader_of_headerError hheader
  have hrefused {err : Err} (h : rcDecode none payload (wordAt e 12) = .error err) :
      Fails (.decompress src dst) s 0x03 :=
    decompress_fails_of_decodeBlock hpass hheader (decodeBlock_of_rcDecode_error hm h)
  refine ⟨fun hnone => ?_, fun err => hrefused, fun ts => rcDecode_of_decodes, fun t ht => ?_⟩
  · cases hdecode : rcDecode none payload (wordAt e 12) with
    | error err => exact hrefused hdecode
    | ok t =>
      obtain ⟨ts, hts, -⟩ := decodes_of_rcDecode hm hdecode
      exact absurd hts (hnone ts)
  · obtain ⟨ts, hts, rfl⟩ := decodes_of_rcDecode hm ht
    have hlength : (mtfDecode (expand ts)).length = wordAt e 12 := by
      obtain ⟨-, hranks, -⟩ := hts
      rw [mtfDecode_length, hranks]
    have hdecode := decodeBlock_of_decodes (filtered := e.getD 4 0 = 0x01) (n := wordAt e 8)
      (primary := wordAt e 16) hts
    refine ⟨ts, mtfDecode (expand ts), stageOf ts (wordAt e 16), hts, rfl, mtfDecode_isMtf _,
      bwtInverse_isInverseBwt (hlength ▸ hgood.primary), fun hplain => ?_, fun hfiltered => ⟨fun hraises => ?_,
        fun b hreturns => ?_⟩⟩
    · rw [if_neg (by rw [hplain]; decide)] at hdecode
      exact decompress_endsWith hpass hheader hdecode
    all_goals rw [if_pos (decide_eq_true hfiltered)] at hdecode
    · obtain ⟨err, herr⟩ := (unfiltered_none_iff ..).mp hraises
      have hcorrupt := fltDecode_raisesOnly (errs := [.corruptStream]) _ _ (List.mem_singleton_self _) err herr
      obtain rfl := List.mem_singleton.mp hcorrupt
      exact decompress_fails_of_decodeBlock hpass hheader (hdecode.trans herr)
    · have hb := (unfiltered_some_iff ..).mp hreturns
      exact ⟨fltDecode_length _ _ _ hb, decompress_endsWith hpass hheader (hdecode.trans hb)⟩

/-- Settles O48: `decompressBlock` makes the header checks of the list in its order. -/
theorem unknownHeadersAreRefused : Obligations.UnknownHeadersAreRefused := by
  intro src dst s hpass
  refine ⟨fun code => decompress_fails_of_headerError hpass, fun hshort => ?_, fun hroom hunknown => ?_⟩
  · apply decompress_fails_of_headerError hpass
    rw [headerError, source_length, if_pos hshort]
  · apply decompress_fails_of_headerError hpass
    rw [headerError, source_length, if_neg (Nat.not_lt.mpr hroom)]
    by_cases hmagic : (s.source src).take 3 ≠ [0x42, 0x53, 0x43] ∨ (s.source src).getD 3 0 ≠ 0x01
    · exact if_pos hmagic
    · rw [if_neg hmagic]
      exact if_pos ((or_assoc.mpr hunknown).resolve_left hmagic)

/-- Settles O49: a block is returned only when it has the length and the checksum of a good header. -/
theorem decompressAgreesWithTheHeader : Obligations.DecompressAgreesWithTheHeader := by
  intro src dst s t _ hstep herr
  obtain ⟨b, used, hblock, m, hnext, hstored⟩ := decompress_completes hstep herr
  obtain ⟨hgood, hlength, rfl, hcrc⟩ := header_of_decompressBlock hblock
  obtain rfl := Host.Outcome.next.inj (hstep.symm.trans hnext)
  have hroom : 28 ≤ src.len.toNat := source_length s src ▸ hgood.room
  have hused : 28 + wordAt (s.source src) 24 < 2 ^ 32 := by
    have := source_length s src ▸ hgood.payload
    have := src.len.isLt
    omega
  have hfield {o : Nat} (ho : o + 4 ≤ 28) : wordAt (s.source src) o = (s.mem.read32 (src.addr.toNat + o)).toNat := by
    rw [wordAt_eq, source_le32At (by omega)]
  obtain ⟨hfirst, hlast, -⟩ := hgood.length
  have hresult0 : BitVec.ofNat 32 b.length = s.mem.read32 (src.addr.toNat + 8) := by
    rw [hlength, hfield (by omega), BitVec.ofNat_toNat, BitVec.setWidth_eq]
  have hword : (BitVec.ofNat 32 b.length).toNat = b.length := toNat_ofNat_word (hlength ▸ wordAt_lt ..)
  refine ⟨hroom, hresult0, ?_, ?_, ?_, ?_⟩ <;> dsimp only
  · rw [toNat_ofNat_word hused, hfield (by omega)]
  · rwa [hword, hlength]
  · rwa [hword, hlength]
  · have hread : m.read dst.addr.toNat b.length = b := read_of_stored hstored
    rw [hword, hread, ← BitVec.eq_of_toNat_eq (hcrc.trans (hfield (by omega)))]
    exact isCrc32_crc32 b

/-- Settles O50: the header reads back as it was written, and each stage undoes its own. -/
theorem codecRoundTrip : Obligations.CodecRoundTrip := by
  intro maxBlock b tf e rest cap hbound hpos hmax hcap hcompress hsize
  have hword : b.length < 2 ^ 32 := by omega
  obtain ⟨p, hp, -, rfl⟩ := compressBlock_payload hword hmax hcompress
  have hx := stageBlock_length_le b tf
  have hxpos := stageBlock_pos tf hpos
  have hprimary := (rowPosition_primary hxpos).1
  have hplen : p.length < 2 ^ 32 := by
    rw [List.length_append] at hsize
    omega
  have hstage : (stageBlock b tf).2 = 0 ∧ (stageBlock b tf).1.length = b.length ∨
      (stageBlock b tf).2 = 1 ∧ 1 ≤ (stageBlock b tf).1.length ∧ (stageBlock b tf).1.length < b.length := by
    by_cases hkept : tf = true ∧ (fltEncode b).length < b.length
    · rw [stageBlock_of_kept hkept] at hxpos ⊢
      exact .inr ⟨rfl, hxpos, hkept.2⟩
    · rw [stageBlock_of_dropped hkept]
      exact .inl ⟨rfl, rfl⟩
  rw [List.append_assoc, decompressBlock_of_headerError_none
    (headerError_header ⟨hpos, hmax, hcap⟩ hword hplen hstage hprimary)]
  obtain ⟨hn, hm, hprimary', hcrc, hlen⟩ := wordAt_header (stageBlock b tf).2 b.length (stageBlock b tf).1.length
    (bwtForward (stageBlock b tf).1 (suffixOrder (stageBlock b tf).1)).2 (crc32 b) p.length (p ++ rest)
  rw [toNat_ofNat_word (by omega)] at hn hm hprimary' hlen
  have hstages := decodeBlock_stages (tf := tf) hpos hword hp
  rw [← payloadOf_header (stageBlock b tf).2 b.length (stageBlock b tf).1.length
    (bwtForward (stageBlock b tf).1 (suffixOrder (stageBlock b tf).1)).2 (crc32 b) rest p hplen] at hstages
  rw [restoreBlock_of_decodeBlock (b := b) (by rw [hn, hm, hprimary']; exact hstages), hcrc, if_pos rfl, hlen,
    List.length_append, header_length]

end Sys2Proof.Proofs
end

section
/-! SUPPORT. The decoder against the opcode map (30_encoding.md R90 to R96), what a turn of the running engine does in
each case (40_sequencer.md R132), and the statements about descriptors and the reset state. -/

namespace Sys2Proof

open Sys2Proof.Claims

/-! ### Encoding and decoding -/

/-- Each opcode selects its own command, which takes its operands from the words the encoding puts them in. -/
theorem decodeDesc_encodeDesc (i : Instr) : decodeDesc (encodeDesc i) = .ok i := by
  cases i with
  | bwtFwd internal src dst aux => cases internal <;> simp [decodeDesc, Desc.command, encodeDesc, Desc.blank,
      Desc.withSrc, Desc.withDst, Desc.src, Desc.dst, Desc.flag0, flagByte]
  | compress tf src dst => cases tf <;> simp [decodeDesc, Desc.command, encodeDesc, Desc.blank, Desc.withSrc,
      Desc.withDst, Desc.src, Desc.dst, Desc.flag0, flagByte]
  | _ => simp [decodeDesc, Desc.command, encodeDesc, Desc.blank, Desc.withSrc, Desc.withDst, Desc.src, Desc.dst]

theorem decode_bytes (d : Desc) : decode d.bytes = decodeDesc d := by
  rw [decode, Desc.bytes_length, if_neg (by decide), Desc.ofBytes_bytes]

/-! ### Rows of the opcode map -/

theorem append_eq_append_iff {w v : Nat} {x₁ x₂ : BitVec w} {y₁ y₂ : BitVec v} :
    x₁ ++ y₁ = x₂ ++ y₂ ↔ x₁ = x₂ ∧ y₁ = y₂ := by
  refine ⟨fun h => ⟨?_, ?_⟩, fun ⟨hx, hy⟩ => by rw [hx, hy]⟩
  · simpa only [BitVec.extractLsb'_append_eq_left] using congrArg (BitVec.extractLsb' v w) h
  · simpa only [BitVec.extractLsb'_append_eq_right] using congrArg (BitVec.extractLsb' 0 v) h

/-- The mask column of R95: a FLAGS bit the opcode defines is free. -/
def rowMask (op : Byte) : Word := (0xFFFF : BitVec 16) ++ ~~~definedFlags op ++ (0xFF : Byte)

/-- The match column of R95. -/
def rowValue (op : Byte) : Word := (0 : BitVec 16) ++ (0 : Byte) ++ op

/-- The opcode map has one row for each opcode. -/
theorem exists_row_iff (p : Word → Word → Prop) :
    (∃ r, r ∈ opcodeMap ∧ p r.mask r.value) ↔ ∃ op, op ∈ opcodes ∧ p (rowMask op) (rowValue op) := by
  have hrow : ∀ r ∈ opcodeMap, ∃ op ∈ opcodes, rowMask op = r.mask ∧ rowValue op = r.value := by decide
  have hop : ∀ op ∈ opcodes, ∃ r ∈ opcodeMap, r.mask = rowMask op ∧ r.value = rowValue op := by decide
  refine ⟨fun ⟨r, hr, h⟩ => ?_, fun ⟨op, ho, h⟩ => ?_⟩
  · obtain ⟨op, ho, hmask, hvalue⟩ := hrow r hr
    exact ⟨op, ho, by rwa [hmask, hvalue]⟩
  · obtain ⟨r, hr, hmask, hvalue⟩ := hop op ho
    exact ⟨r, hr, by rwa [hmask, hvalue]⟩

theorem word0_matches_iff (d : Desc) (op : Byte) :
    d.word0 &&& rowMask op = rowValue op ↔ d.rsvd = 0 ∧ d.flags &&& ~~~definedFlags op = 0 ∧ d.opcode = op := by
  have hrsvd : d.rsvd &&& 0xFFFF = d.rsvd := BitVec.and_allOnes
  have hcode : d.opcode &&& 0xFF = d.opcode := BitVec.and_allOnes
  rw [Desc.word0, rowMask, rowValue, BitVec.and_append, BitVec.and_append, append_eq_append_iff,
    append_eq_append_iff, hrsvd, hcode, and_assoc]

/-- A row matches word 0 exactly when the descriptor is legal (R96). -/
theorem exists_row_matches_iff (d : Desc) :
    (∃ r, r ∈ opcodeMap ∧ d.word0 &&& r.mask = r.value) ↔ ¬Illegal d := by
  rw [exists_row_iff fun mask value => d.word0 &&& mask = value, illegal_iff]
  simp only [word0_matches_iff, not_or, not_not]
  constructor
  · rintro ⟨op, hop, hrsvd, hflags, rfl⟩
    exact ⟨hop, hrsvd, hflags⟩
  · rintro ⟨hop, hrsvd, hflags⟩
    exact ⟨d.opcode, hop, hrsvd, hflags, rfl⟩

theorem decodeDesc_ok_iff (d : Desc) : (∃ i, decodeDesc d = .ok i) ↔ ¬Illegal d := by
  refine ⟨fun ⟨i, hi⟩ hill => ?_, fun h => ?_⟩
  · obtain ⟨e, he⟩ := decodeDesc_of_illegal hill
    rw [hi] at he
    cases he
  · obtain ⟨i, hi, -⟩ := decodeDesc_of_legal h
    exact ⟨i, hi⟩

end Sys2Proof

namespace Sys2Proof.Machine

theorem inv_reset : State.reset.Inv := by
  constructor <;>
    simp [State.reset, State.size, State.maxBlock, Config.maxBlockSize, Config.bufSize, Memory.wf, Memory.inside]

end Sys2Proof.Machine

namespace Sys2Proof.Proofs

open Sys2Proof.Machine Sys2Proof.Claims

/-- Settles O1: latching the 32 bytes gives the descriptor back, and the decoder reads its command off it. -/
theorem decodeEncodeAgree : Obligations.DecodeEncodeAgree := fun i =>
  (decode_bytes (encodeDesc i)).trans (decodeDesc_encodeDesc i)

/-- Settles O2: some row matches exactly the descriptors that are not illegal, and those decode. -/
theorem legalWhenARowMatches : Obligations.LegalWhenARowMatches := fun d =>
  (decodeDesc_ok_iff d).trans (exists_row_matches_iff d).symm

/-- Settles O3: the decoder evaluates on each of the words. -/
theorem writtenOutWordsDecode : Obligations.WrittenOutWordsDecode := by
  unfold Obligations.WrittenOutWordsDecode
  decide +kernel

/-- Settles O6: the turn of a running engine is its cycle, which fetches, decodes and runs. -/
theorem stepRunsTheDecodedCommand : Obligations.StepRunsTheDecodedCommand := by
  intro s hb hmoves
  refine ⟨fun hbad => step_of_unfetchable hb hmoves (unfetchable_of_bad hbad), fun hal hin => ?_⟩
  have hf : s.fetchable = true := (fetchable_iff s).mpr ⟨hal, hin⟩
  have hlength : ¬(s.mem.read s.cmdPtr.toNat 32).length < Config.descSize := by
    rw [read_length]
    decide
  refine ⟨fun e he => ?_, fun i hi => step_of_commandAt hb hmoves ⟨hal, hin, hi⟩⟩
  rw [decode, if_neg hlength] at he
  rw [step_of_running hmoves hb]
  exact cycle_of_error hf he

/-- Settles O12: the reset state is written out. -/
theorem resetStateMeetsTheInvariant : Obligations.ResetStateMeetsTheInvariant :=
  ⟨⟨rfl, rfl, rfl, rfl, rfl, rfl, rfl, rfl, rfl, rfl, rfl⟩, rfl, rfl, inv_reset⟩

end Sys2Proof.Proofs
end

section
/-! SUPPORT. Every command at once (20_memory.md R63, R68, R69, 40_sequencer.md R133, R139, 60_exceptions.md R301): what
its result depends on, how it ends, and the statements about all commands. -/

namespace Sys2Proof.Machine

open Sys2Proof.Claims

/-! ### Which commands compute a result -/

theorem not_isControl_of_opcode {i : Instr} (h : 0x10 ≤ (encodeDesc i).opcode.toNat) : ¬IsControl i := by
  rintro (rfl | rfl | ⟨a, rfl⟩) <;> simp [encodeDesc, Desc.blank] at h

/-- A data command has a result, with or without a destination. -/
theorem result_of_not_isControl {i : Instr} (h : ¬IsControl i) (s : State) :
    (∃ r, dataResult i s = some r) ∨ ∃ r, scalarResult i s = some r := by
  cases i with
  | nop => exact absurd (.inl rfl) h
  | halt => exact absurd (.inr (.inl rfl)) h
  | jump a => exact absurd (.inr (.inr ⟨a, rfl⟩)) h
  | saCheck src aux => exact .inr ⟨_, rfl⟩
  | crc32 src => exact .inr ⟨_, rfl⟩
  | _ => exact .inl ⟨_, rfl⟩

/-- No command stops with a fault (R134). -/
theorem exec_next (i : Instr) (s : State) : ∃ t, exec i s = .next t := by
  by_cases hctl : IsControl i
  · obtain rfl | rfl | ⟨a, rfl⟩ := hctl
    · exact ⟨_, exec_nop s⟩
    · exact ⟨_, exec_halt s⟩
    · exact ⟨_, exec_jump a s⟩
  · obtain ⟨r, hr⟩ | ⟨r, hr⟩ := result_of_not_isControl hctl s
    · rw [exec_data i s r hr]
      cases r <;> exact ⟨_, rfl⟩
    · rw [exec_scalar i s r hr]
      cases r <;> exact ⟨_, rfl⟩

/-! ### What a command changes -/

/-- A result is no longer than its capacity, so RESULT0 is its length (R68). -/
theorem result0_of_dataResult {i : Instr} {s : State} {x : Done} (h : dataResult i s = some (.ok x)) :
    (BitVec.ofNat 32 x.out.length).toNat = x.out.length ∧ x.out.length ≤ dstCap i := by
  obtain ⟨hfits, -⟩ := dataResult_fits i s x h
  rw [destination_eq] at hfits
  exact ⟨toNat_ofNat_word (Nat.lt_of_le_of_lt hfits (BitVec.isLt _)), hfits⟩

theorem byte_write_of_not_within {m : Memory} {a x : Nat} {bs : List Byte} (h : ¬Within a bs.length x) :
    (m.write a bs).byte x = m.byte x := by
  unfold Within at h
  exact byte_write_outside m a x bs (by omega)

theorem byte_scramble_of_not_within {s : State} {r : Region} {x : Nat} (h : ¬Within r.addr r.len x) :
    (s.scramble r).mem.byte x = s.mem.byte x := byte_scramble_outside s r x (has_eq_false_of_not_within h)

/-- R68 and R69: success writes the first bytes of the destination, failure leaves the whole of it open. -/
theorem exec_keeps_outside {i : Instr} {s t : State} (h : exec i s = .next t) {x : Nat}
    (hx : ¬Within (dstAddr i) (dstCap i) x) : t.mem.byte x = s.mem.byte x := by
  have hregion : ¬Within (destination i).addr (destination i).len x := by rwa [destination_eq]
  obtain ⟨-, rfl⟩ | ⟨-, rfl⟩ | ⟨a, -, rfl⟩ | ⟨y, hy, rfl⟩ | ⟨e, -, rfl⟩ | ⟨w, -, rfl⟩ | ⟨e, -, rfl⟩ :=
    exec_cases i s t h
  case inr.inr.inr.inl =>
    obtain ⟨hfits, -⟩ := dataResult_fits i s y hy
    refine byte_write_of_not_within fun hin => hregion ?_
    unfold Within at hin ⊢
    omega
  case inr.inr.inr.inr.inl => exact byte_scramble_of_not_within hregion
  all_goals rfl

/-- A data command that completes writes its output and its results, counts and advances (R68, R133). -/
theorem completes_of_not_isControl {i : Instr} {s t : State} (hctl : ¬IsControl i)
    (h : exec i s = .next t) (ht : t.err = false) :
    ∃ x m, t = (({ s with mem := m } : State).putResults x).advance ∧
      (BitVec.ofNat 32 x.out.length).toNat = x.out.length ∧ x.out.length ≤ dstCap i ∧
      ∀ y, ¬Within (dstAddr i) x.out.length y → m.byte y = s.mem.byte y := by
  obtain ⟨rfl, -⟩ | ⟨rfl, -⟩ | ⟨a, rfl, -⟩ | ⟨x, hx, rfl⟩ | ⟨e, -, rfl⟩ | ⟨w, -, rfl⟩ | ⟨e, -, rfl⟩ :=
    exec_cases i s t h
  · exact absurd (.inl rfl) hctl
  · exact absurd (.inr (.inl rfl)) hctl
  · exact absurd (.inr (.inr ⟨a, rfl⟩)) hctl
  · obtain ⟨hlength, hfits⟩ := result0_of_dataResult hx
    refine ⟨x, _, rfl, hlength, hfits, fun y hy => byte_write_of_not_within ?_⟩
    rwa [destination_eq]
  · simp at ht
  · exact ⟨⟨[], w⟩, s.mem, rfl, rfl, Nat.zero_le _, fun _ _ => rfl⟩
  · simp at ht

/-! ### What a result depends on -/

theorem source_congr {s u : State} {p : Span}
    (h : ∀ x, Within p.addr.toNat p.len.toNat x → s.mem.byte x = u.mem.byte x) : s.source p = u.source p :=
  read_congr _ _ _ _ fun x hlow hhigh => h x ⟨hlow, hhigh⟩

theorem array_congr {s u : State} {a n : Nat} (h : ∀ x, Within a (4 * n) x → s.mem.byte x = u.mem.byte x) :
    s.array a n = u.array a n := by
  rw [array_eq_map, array_eq_map]
  refine List.map_congr_left fun j hj => ?_
  have hj := List.mem_range.mp hj
  have hbyte {k : Nat} (hk : k < 4) : s.mem.byte (a + 4 * j + k) = u.mem.byte (a + 4 * j + k) :=
    h _ ⟨by omega, by omega⟩
  simp only [Memory.read32, ← hbyte (show 1 < 4 by decide), ← hbyte (show 2 < 4 by decide),
    ← hbyte (show 3 < 4 by decide),
    show s.mem.byte (a + 4 * j) = u.mem.byte (a + 4 * j) from hbyte (k := 0) (by decide)]

section
variable {i : Instr} {s u : State} (hcaps : s.caps = u.caps) (hsize : s.bufSize = u.bufSize)
include hcaps hsize

/-- The checks of R139 read the parameters only. -/
theorem checksOf_congr : checksOf i s = checksOf i u := by
  rw [checksOf_eq_tableChecks, checksOf_eq_tableChecks]
  simp only [tableChecks, State.size, hsize]
  cases i <;> simp only [lengthChecks, hcaps]

variable (hsrc : s.source (encodeDesc i).src = u.source (encodeDesc i).src)
  (hord : readsOrder i = true →
    s.array (encodeDesc i).auxAddr.toNat (encodeDesc i).srcLen.toNat =
      u.array (encodeDesc i).auxAddr.toNat (encodeDesc i).srcLen.toNat)
include hsrc hord

/-- R63 for the commands with a destination. -/
theorem dataResult_congr : dataResult i s = dataResult i u := by
  have hchecks := checksOf_congr (i := i) hcaps hsize
  have hmax : s.maxBlock = u.maxBlock := congrArg BitVec.toNat hcaps
  cases i <;> simp only [checksOf] at hchecks
  case sort src dst => simp only [dataResult, sortResult, hchecks, show s.source src = u.source src from hsrc]
  case bwtFwd internal src dst aux =>
    have hsource : s.source src = u.source src := hsrc
    have horder : bwtOrder internal aux (u.source src) s = bwtOrder internal aux (u.source src) u := by
      cases internal
      · rw [bwtOrder, bwtOrder, source_length,
          show s.array aux.toNat src.len.toNat = u.array aux.toNat src.len.toNat from hord rfl]
      · rfl
    simp only [dataResult, bwtFwdResult, hchecks, hsource, horder]
  case bwtInv src dst _ =>
    simp only [dataResult, bwtInvResult, hchecks, show s.source src = u.source src from hsrc]
  case mtfEnc src dst | mtfDec src dst =>
    simp only [dataResult, mapResult, hchecks, show s.source src = u.source src from hsrc]
  case rleEnc src dst => simp only [dataResult, rleEncResult, hchecks, show s.source src = u.source src from hsrc]
  case rleDec src dst => simp only [dataResult, rleDecResult, hchecks, show s.source src = u.source src from hsrc]
  case fltEnc src dst => simp only [dataResult, fltEncResult, hchecks, show s.source src = u.source src from hsrc]
  case fltDec src dst _ => simp only [dataResult, fltDecResult, hchecks, show s.source src = u.source src from hsrc]
  case rcEnc src dst => simp only [dataResult, rcEncResult, hchecks, hmax, show s.source src = u.source src from hsrc]
  case rcDec src dst _ => simp only [dataResult, rcDecResult, hchecks, show s.source src = u.source src from hsrc]
  case compress _ src dst =>
    simp only [dataResult, compressResult, hchecks, hmax, show s.source src = u.source src from hsrc]
  case decompress src dst =>
    simp only [dataResult, decompressResult, hchecks, hmax, show s.source src = u.source src from hsrc]
  all_goals rfl

/-- R63 for SA_CHECK and CRC32. -/
theorem scalarResult_congr : scalarResult i s = scalarResult i u := by
  have hchecks := checksOf_congr (i := i) hcaps hsize
  cases i
  case saCheck src aux =>
    simp only [checksOf] at hchecks
    simp only [scalarResult, saCheckResult, hchecks, show s.source src = u.source src from hsrc,
      show s.array aux.toNat src.len.toNat = u.array aux.toNat src.len.toNat from hord rfl]
  case crc32 src =>
    simp only [checksOf] at hchecks
    simp only [scalarResult, crcResult, hchecks, show s.source src = u.source src from hsrc]
  all_goals rfl

end

/-- Two completions or failures of one command with the same result look alike (R63). -/
def EndsAlike (i : Instr) (t v : State) : Prop :=
  t.err = v.err ∧ (t.err = true → t.errCode = v.errCode) ∧
    (t.err = false → t.result0 = v.result0 ∧ t.result1 = v.result1 ∧
      ∀ x, Within (dstAddr i) t.result0.toNat x → t.mem.byte x = v.mem.byte x)

theorem byte_write_congr {m m' : Memory} {a n x : Nat} {bs : List Byte} (hn : n ≤ bs.length) (hx : Within a n x) :
    (m.write a bs).byte x = (m'.write a bs).byte x := by
  obtain ⟨hlow, hhigh⟩ := hx
  obtain ⟨k, rfl⟩ := Nat.exists_eq_add_of_le hlow
  rw [byte_write_inside m a k bs (by omega), byte_write_inside m' a k bs (by omega)]

theorem endsAlike_of_dataResult {i : Instr} {s u t v : State} {r : Except Err Done} (hs : s.err = false)
    (hu : u.err = false) (hr : dataResult i s = some r) (hr' : dataResult i u = some r) (ht : exec i s = .next t)
    (hv : exec i u = .next v) : EndsAlike i t v := by
  rw [exec_data i s r hr] at ht
  rw [exec_data i u r hr'] at hv
  cases r with
  | error e =>
    obtain rfl := Host.Outcome.next.inj ht
    obtain rfl := Host.Outcome.next.inj hv
    exact ⟨rfl, fun _ => rfl, fun h => by simp at h⟩
  | ok x =>
    obtain rfl := Host.Outcome.next.inj ht
    obtain rfl := Host.Outcome.next.inj hv
    refine ⟨hs.trans hu.symm, fun h => by simp [hs] at h, fun _ => ⟨rfl, rfl, fun y hy => ?_⟩⟩
    rw [show dstAddr i = (destination i).addr by rw [destination_eq]] at hy
    exact byte_write_congr (result0_of_dataResult hr).1.le hy

theorem endsAlike_of_scalarResult {i : Instr} {s u t v : State} {r : Except Err Word} (hs : s.err = false)
    (hu : u.err = false) (hr : scalarResult i s = some r) (hr' : scalarResult i u = some r) (ht : exec i s = .next t)
    (hv : exec i u = .next v) : EndsAlike i t v := by
  rw [exec_scalar i s r hr] at ht
  rw [exec_scalar i u r hr'] at hv
  cases r with
  | error e =>
    obtain rfl := Host.Outcome.next.inj ht
    obtain rfl := Host.Outcome.next.inj hv
    exact ⟨rfl, fun _ => rfl, fun h => by simp at h⟩
  | ok w =>
    obtain rfl := Host.Outcome.next.inj ht
    obtain rfl := Host.Outcome.next.inj hv
    refine ⟨hs.trans hu.symm, fun h => by simp [hs] at h, fun _ => ⟨rfl, rfl, fun y hy => ?_⟩⟩
    simp [Within] at hy
    omega

end Sys2Proof.Machine

namespace Sys2Proof.Proofs

open Sys2Proof.Machine Sys2Proof.Claims

/-- Settles O16: the code is that of an error the command can raise. -/
theorem errorCodesOfEachCommand : Obligations.ErrorCodesOfEachCommand := by
  intro i s t hs h ht
  obtain ⟨e, he, rfl | rfl⟩ := exec_failure hs h ht <;>
    exact map_code_errorsOf i ▸ List.mem_map_of_mem he

/-- Settles O17: no command stops the machine, and none reaches past its destination. -/
theorem onlyTheDestinationChanges : Obligations.OnlyTheDestinationChanges := by
  intro i s
  obtain ⟨t, ht⟩ := exec_next i s
  exact ⟨t, ht, fun _ => exec_keeps_outside ht⟩

/-- Settles O18: the three control commands one by one, and a data command by the end it comes to. -/
theorem completionCountsAndAdvances : Obligations.CompletionCountsAndAdvances := by
  intro i s t hs h ht
  by_cases hctl : IsControl i
  · obtain rfl | rfl | ⟨a, rfl⟩ := hctl <;> obtain rfl := Host.Outcome.next.inj h <;> simp [SameMachine, IsControl]
  · obtain ⟨x, m, rfl, hlength, hfits, hkeeps⟩ := completes_of_not_isControl hctl h ht
    have hhalt : i ≠ .halt := fun h => hctl (.inr (.inl h))
    refine ⟨?_, fun h => absurd h hctl, fun _ => ?_⟩
    · refine ⟨by simp [hhalt], by simp [hhalt], rfl, rfl, rfl, rfl, ?_, rfl, rfl, rfl, rfl, rfl, rfl, rfl, fun _ => rfl⟩
      split
      · exact absurd (.inr (.inr ⟨_, rfl⟩)) hctl
      · rfl
    · simpa [hlength] using ⟨hfits, hkeeps⟩

/-- Settles O19: the checks come first in every command, and `checksOf` makes them in the order of the tables. -/
theorem checksFailInOrder : Obligations.ChecksFailInOrder := checksRaise

/-- Settles O20: the result of a data command depends on the parameters, its source and its array alone. -/
theorem commandsReadOnlyTheirSources : Obligations.CommandsReadOnlyTheirSources := by
  intro i s u t v hop hcaps hsize hs hu hsrc hord ht hv
  have hsource : s.source (encodeDesc i).src = u.source (encodeDesc i).src := source_congr hsrc
  have harray := fun h => array_congr (hord h)
  obtain ⟨r, hr⟩ | ⟨r, hr⟩ := result_of_not_isControl (not_isControl_of_opcode hop) s
  · exact endsAlike_of_dataResult hs hu hr (dataResult_congr hcaps hsize hsource harray ▸ hr) ht hv
  · exact endsAlike_of_scalarResult hs hu hr (scalarResult_congr hcaps hsize hsource harray ▸ hr) ht hv

end Sys2Proof.Proofs
end

section
/-! SUPPORT. What every step keeps: what a write to the register window and a reset do, said once, and then, for a
command, for the turn of the engine and for the turn of the host, which registers change and that the invariant holds
on. -/

namespace Sys2Proof.Machine

open Sys2Proof.Claims

/-! ### Writes to the register window -/

theorem State.writeStatus_of_busy {s : State} (v : Word) (hb : s.busy = true) : s.writeStatus v = s := by
  rw [writeStatus, if_pos hb]

theorem State.writeStatus_of_idle {s : State} (v : Word) (hb : s.busy = false) :
    s.writeStatus v = { s with
      done := s.done && !v.getLsbD 1
      err := s.err && !v.getLsbD 2
      errCode := if v.getLsbD 2 then 0 else s.errCode
      errOp := if v.getLsbD 2 then 0 else s.errOp } := by
  rw [writeStatus, if_neg (Bool.eq_false_iff.mp hb)]
  cases v.getLsbD 1 <;> cases v.getLsbD 2 <;> simp

theorem State.writeCmdPtr_of_busy {s : State} (v : Word) (hb : s.busy = true) : s.writeCmdPtr v = s := by
  rw [writeCmdPtr, if_pos hb]

theorem State.writeCmdPtr_of_idle {s : State} (v : Word) (hb : s.busy = false) :
    s.writeCmdPtr v = { s with cmdPtr := v } := by
  rw [writeCmdPtr, hb, if_neg Bool.false_ne_true]

theorem State.writeReg_softReset (s : State) {v : Word} (h : v.getLsbD 1 = true) :
    s.writeReg 0x04 v = s.softReset := by
  rw [writeReg, if_pos rfl, writeCtrl, if_pos h]

theorem State.writeReg_irqEn (s : State) {v : Word} (hstart : v.getLsbD 0 = false) (hreset : v.getLsbD 1 = false) :
    s.writeReg 0x04 v = { s with irqEn := v.getLsbD 2 } := by
  rw [writeReg, if_pos rfl, writeCtrl, hreset, if_neg Bool.false_ne_true, hstart, if_neg Bool.false_ne_true]

/-- Everything a write to the register window can do. -/
theorem State.writeReg_cases (s : State) (o : Nat) (v : Word) :
    (o = 0x04 ∧ v.getLsbD 1 = true ∧ s.writeReg o v = s.softReset) ∨
    (s.busy = false ∧ s.writeReg o v = ({ s with irqEn := v.getLsbD 2 } : State).startRun) ∨
    (∃ b, s.writeReg o v = { s with irqEn := b }) ∨
    (s.busy = false ∧ s.writeReg o v = { s with
      done := s.done && !v.getLsbD 1
      err := s.err && !v.getLsbD 2
      errCode := if v.getLsbD 2 then 0 else s.errCode
      errOp := if v.getLsbD 2 then 0 else s.errOp }) ∨
    s.busy = false ∧ s.writeReg o v = { s with cmdPtr := v } := by
  have hsame : ∃ b, s = { s with irqEn := b } := ⟨s.irqEn, rfl⟩
  by_cases hctrl : o = 0x04
  · subst hctrl
    cases hreset : v.getLsbD 1
    · cases hstart : v.getLsbD 0
      · exact .inr (.inr (.inl ⟨_, s.writeReg_irqEn hstart hreset⟩))
      · rw [s.writeReg_start hstart hreset]
        obtain hb | hb := s.busy.eq_false_or_eq_true.symm
        · exact .inr (.inl ⟨hb, start_of_idle _ hb⟩)
        · exact .inr (.inr (.inl ⟨_, start_of_busy _ hb⟩))
    · exact .inl ⟨rfl, rfl, s.writeReg_softReset hreset⟩
  · by_cases hstatus : o = 0x08
    · subst hstatus
      change _ ∨ _ ∨ (∃ b, s.writeStatus v = _) ∨ (_ ∧ s.writeStatus v = _) ∨ _
      obtain hb | hb := s.busy.eq_false_or_eq_true.symm
      · exact .inr (.inr (.inr (.inl ⟨hb, writeStatus_of_idle v hb⟩)))
      · rw [writeStatus_of_busy v hb]
        exact .inr (.inr (.inl hsame))
    · by_cases hptr : o = 0x0C
      · subst hptr
        change _ ∨ _ ∨ (∃ b, s.writeCmdPtr v = _) ∨ _ ∨ _ ∧ s.writeCmdPtr v = _
        obtain hb | hb := s.busy.eq_false_or_eq_true.symm
        · exact .inr (.inr (.inr (.inr ⟨hb, writeCmdPtr_of_idle v hb⟩)))
        · rw [writeCmdPtr_of_busy v hb]
          exact .inr (.inr (.inl hsame))
      · rw [s.writeReg_readOnly v hctrl hstatus hptr]
        exact .inr (.inr (.inl hsame))

/-! ### Resets -/

theorem hardReset_cases (s : State) :
    ∃ m k w, s.hardReset = ({ s with mem := m, draws := k, runDests := w } : State).resetRegisters ∧
      (s.mem.wf → m.wf) ∧ (s.mem.inside s.size → m.inside s.size) ∧ (s.affectedRun = false → m = s.mem) ∧
      ∀ x, (s.affectedRun = true → covers s.openRegions x = false) → m.byte x = s.mem.byte x := by
  obtain ⟨m, k, w, h, hr⟩ := abandonRun_cases s
  exact ⟨m, k, w, by rw [State.hardReset, h], hr⟩

theorem softReset_cases (s : State) :
    ∃ m k w, s.softReset = ({ s with mem := m, draws := k, runDests := w } : State).resetRegisters ∧
      (s.mem.wf → m.wf) ∧ (s.mem.inside s.size → m.inside s.size) ∧
      ∀ x, (s.affectedRun = true → covers s.openRegions x = false) → s.runningDst.has x = false →
        m.byte x = s.mem.byte x := by
  obtain ⟨m, k, w, h, hwf, hinside, -, hbytes⟩ := abandonRun_cases s
  let t : State := { s with mem := m, draws := k, runDests := w }
  refine ⟨(t.scramble s.runningDst).mem, (t.scramble s.runningDst).draws, w, by rw [State.softReset, h]; rfl,
    fun hw => scramble_keeps_wf t _ (hwf hw), fun hi => scramble_keeps_inside t _ (hinside hi), fun x hopen hdst => ?_⟩
  rw [byte_scramble_outside t _ x hdst]
  exact hbytes x hopen

/-! ### The parameters -/

theorem exec_keeps_parameters {i : Instr} {s t : State} (h : exec i s = .next t) :
    t.caps = s.caps ∧ t.bufSize = s.bufSize := by
  obtain ⟨-, rfl⟩ | ⟨-, rfl⟩ | ⟨a, -, rfl⟩ | ⟨x, -, rfl⟩ | ⟨e, -, rfl⟩ | ⟨w, -, rfl⟩ | ⟨e, -, rfl⟩ :=
    exec_cases i s t h <;> exact ⟨rfl, rfl⟩

theorem openCycle_keeps_parameters (s : State) : s.openCycle.caps = s.caps ∧ s.openCycle.bufSize = s.bufSize := by
  obtain ⟨m, k, desc, p, n, r0, r1, h | h | ⟨e, op, h⟩, -⟩ := openCycle_cases s <;> rw [h] <;> exact ⟨rfl, rfl⟩

theorem engineTurn_keeps_parameters {s t : State} (h : engineTurn s = .next t) :
    t.caps = s.caps ∧ t.bufSize = s.bufSize := by
  obtain ⟨-, rfl⟩ | ⟨-, -, rfl⟩ | ⟨-, -, ⟨-, rfl⟩ | ⟨-, e, -, rfl⟩ | ⟨-, i, -, hi⟩⟩ := engineTurn_cases s t h
  · exact ⟨rfl, rfl⟩
  · exact openCycle_keeps_parameters s
  · exact ⟨rfl, rfl⟩
  · exact ⟨rfl, rfl⟩
  · exact exec_keeps_parameters (s := (s.noteRun i).latch) hi

theorem hardReset_keeps_parameters (s : State) : s.hardReset.caps = s.caps ∧ s.hardReset.bufSize = s.bufSize := by
  obtain ⟨m, k, w, h, -⟩ := hardReset_cases s
  rw [h]
  exact ⟨rfl, rfl⟩

theorem softReset_keeps_parameters (s : State) : s.softReset.caps = s.caps ∧ s.softReset.bufSize = s.bufSize := by
  obtain ⟨m, k, w, h, -⟩ := softReset_cases s
  rw [h]
  exact ⟨rfl, rfl⟩

theorem writeReg_keeps_parameters (s : State) (o : Nat) (v : Word) :
    (s.writeReg o v).caps = s.caps ∧ (s.writeReg o v).bufSize = s.bufSize := by
  obtain ⟨-, -, h⟩ | ⟨-, h⟩ | ⟨b, h⟩ | ⟨-, h⟩ | ⟨-, h⟩ := s.writeReg_cases o v <;> rw [h]
  case inl => exact softReset_keeps_parameters s
  all_goals exact ⟨rfl, rfl⟩

theorem hostTurn_keeps_parameters {a : HostAction} {s t : State} (h : hostTurn a s = .next t) :
    t.caps = s.caps ∧ t.bufSize = s.bufSize := by
  obtain ⟨-, he⟩ | ⟨o, v, -, -, -, rfl⟩ | ⟨o, -, -, -, rfl⟩ |
    ⟨x, bs, -, -, ⟨-, -, rfl⟩ | ⟨-, -, rfl⟩ | ⟨-, rfl⟩⟩ | ⟨x, -, -, ⟨-, rfl⟩ | ⟨-, rfl⟩⟩ | ⟨-, rfl⟩ | ⟨-, rfl⟩ :=
    hostTurn_cases a s t h
  case inl => exact engineTurn_keeps_parameters he
  case inr.inl => exact writeReg_keeps_parameters s o v
  case inr.inr.inr.inr.inr.inr => exact hardReset_keeps_parameters s
  all_goals exact ⟨rfl, rfl⟩

/-! ### ERR_ADDR -/

/-- The engine's turn writes ERR_ADDR only on the trap path. -/
def KeepsErrAddr (s t : State) : Prop :=
  t.errAddr = s.errAddr ∨
    s.busy = true ∧ t.busy = false ∧ t.err = true ∧ t.errAddr = t.cmdPtr ∧ (t.cmdPtr = s.cmdPtr ∨ s.affectedRun = true)

theorem exec_errAddr {i : Instr} {s t : State} (h : exec i s = .next t) :
    t.errAddr = s.errAddr ∨ t.busy = false ∧ t.err = true ∧ t.errAddr = s.cmdPtr ∧ t.cmdPtr = s.cmdPtr := by
  obtain ⟨-, rfl⟩ | ⟨-, rfl⟩ | ⟨a, -, rfl⟩ | ⟨x, -, rfl⟩ | ⟨e, -, rfl⟩ | ⟨w, -, rfl⟩ | ⟨e, -, rfl⟩ :=
    exec_cases i s t h
  case inr.inr.inr.inr.inl | inr.inr.inr.inr.inr.inr => exact .inr ⟨rfl, rfl, rfl, rfl⟩
  all_goals exact .inl rfl

theorem engineTurn_errAddr {s t : State} (h : engineTurn s = .next t) : KeepsErrAddr s t := by
  obtain ⟨-, rfl⟩ | ⟨hb, ha, rfl⟩ | ⟨hb, -, ⟨-, rfl⟩ | ⟨-, e, -, rfl⟩ | ⟨-, i, -, hi⟩⟩ := engineTurn_cases s t h
  · exact .inl rfl
  · obtain ⟨m, k, desc, p, n, r0, r1, hcycle | hcycle | ⟨e, op, hcycle⟩, -⟩ := openCycle_cases s <;>
      rw [hcycle]
    · exact .inl rfl
    · exact .inl rfl
    · exact .inr ⟨hb, rfl, rfl, rfl, .inr ha⟩
  · exact .inr ⟨hb, rfl, rfl, rfl, .inl rfl⟩
  · exact .inr ⟨hb, rfl, rfl, rfl, .inl rfl⟩
  · obtain hsame | ⟨hidle, herr, haddr, hptr⟩ := exec_errAddr hi
    · exact .inl hsame
    · exact .inr ⟨hb, hidle, herr, haddr.trans hptr.symm, .inl hptr⟩

theorem hostTurn_errAddr {a : HostAction} {s t : State} (h : hostTurn a s = .next t) :
    KeepsErrAddr s t ∨ t.errAddr = 0 ∧ (a = .hardReset ∨ ∃ v, a = .writeReg 0x04 4 v ∧ v.getLsbD 1 = true) := by
  obtain ⟨-, he⟩ | ⟨o, v, rfl, -, -, rfl⟩ | ⟨o, -, -, -, rfl⟩ |
    ⟨x, bs, -, -, ⟨-, -, rfl⟩ | ⟨-, -, rfl⟩ | ⟨-, rfl⟩⟩ | ⟨x, -, -, ⟨-, rfl⟩ | ⟨-, rfl⟩⟩ | ⟨-, rfl⟩ | ⟨rfl, rfl⟩ :=
    hostTurn_cases a s t h
  case inl => exact .inl (engineTurn_errAddr he)
  case inr.inl =>
    obtain ⟨rfl, hreset, hw⟩ | ⟨-, hw⟩ | ⟨b, hw⟩ | ⟨-, hw⟩ | ⟨-, hw⟩ := s.writeReg_cases o v <;> rw [hw]
    case inl => exact .inr ⟨rfl, .inr ⟨v, rfl, hreset⟩⟩
    all_goals exact .inl (.inl rfl)
  case inr.inr.inr.inr.inr.inr => exact .inr ⟨rfl, .inl rfl⟩
  all_goals exact .inl (.inl rfl)

/-! ### The end of a run -/

theorem exec_ends {i : Instr} {s t : State} (hb : s.busy = true) (h : exec i s = .next t) (hidle : t.busy = false) :
    t.done = true ∧ i = .halt ∨ t.err = true := by
  obtain ⟨-, rfl⟩ | ⟨rfl, rfl⟩ | ⟨a, -, rfl⟩ | ⟨x, -, rfl⟩ | ⟨e, -, rfl⟩ | ⟨w, -, rfl⟩ | ⟨e, -, rfl⟩ :=
    exec_cases i s t h
  case inr.inl => exact .inl ⟨rfl, rfl⟩
  case inr.inr.inr.inr.inl | inr.inr.inr.inr.inr.inr => exact .inr rfl
  all_goals simp [hb] at hidle

theorem engineTurn_ends {s t : State} (hb : s.busy = true) (h : engineTurn s = .next t) (hidle : t.busy = false) :
    t.done = true ∧ (CommandAt s .halt ∨ s.affectedRun = true) ∨ t.err = true := by
  obtain ⟨hb', -⟩ | ⟨-, ha, rfl⟩ | ⟨-, -, ⟨-, rfl⟩ | ⟨-, e, -, rfl⟩ | ⟨hf, i, hdec, hi⟩⟩ := engineTurn_cases s t h
  · simp [hb] at hb'
  · obtain ⟨m, k, desc, p, n, r0, r1, hcycle | hcycle | ⟨e, op, hcycle⟩, -⟩ := openCycle_cases s <;>
      rw [hcycle] at hidle ⊢
    · simp [hb] at hidle
    · exact .inl ⟨rfl, .inr ha⟩
    · exact .inr rfl
  · exact .inr rfl
  · exact .inr rfl
  · obtain ⟨hdone, rfl⟩ | herr := exec_ends (s := (s.noteRun i).latch) hb hi hidle
    · exact .inl ⟨hdone, .inl ((commandAt_iff s .halt).mpr ⟨hf, hdec⟩)⟩
    · exact .inr herr

/-- The turn of the host ends a run only as the engine does, or by a reset. -/
theorem hostTurn_ends {a : HostAction} {s t : State} (hb : s.busy = true) (h : hostTurn a s = .next t)
    (hidle : t.busy = false) :
    (t.done = true ∧ (CommandAt s .halt ∨ s.affectedRun = true) ∨ t.err = true) ∨
      (∃ v : Word, a = .writeReg 0x04 4 v ∧ v.getLsbD 1 = true) ∨ a = .hardReset := by
  obtain ⟨-, he⟩ | ⟨o, v, rfl, -, -, rfl⟩ | ⟨o, -, -, -, rfl⟩ |
    ⟨x, bs, -, -, ⟨-, -, rfl⟩ | ⟨-, -, rfl⟩ | ⟨-, rfl⟩⟩ | ⟨x, -, -, ⟨-, rfl⟩ | ⟨-, rfl⟩⟩ | ⟨-, rfl⟩ | ⟨rfl, rfl⟩ :=
    hostTurn_cases a s t h
  case inl => exact .inl (engineTurn_ends hb he hidle)
  case inr.inl =>
    obtain ⟨rfl, hreset, -⟩ | ⟨-, hw⟩ | ⟨b, hw⟩ | ⟨-, hw⟩ | ⟨-, hw⟩ := s.writeReg_cases o v
    case inl => exact .inr (.inl ⟨v, rfl, hreset⟩)
    all_goals
      rw [hw] at hidle
      simp [hb] at hidle
  case inr.inr.inr.inr.inr.inr => exact .inr (.inr rfl)
  all_goals simp [hb] at hidle

/-! ### The invariant -/

section
variable {s : State} (h : s.Inv)
include h

/-- The invariant speaks of the flags, the parameters, the memory and `synced` only. -/
theorem State.Inv.update {m : Memory} (hwf : m.wf) (hinside : m.inside s.size) (irqEn : Bool)
    (p r0 r1 ea n w : Word) (d : Desc) (k : Nat) (l : List HostAction) (rr rw rd u : List Region) (hw : List Nat)
    (a : Bool) :
    ({ s with
      mem := m, irqEn := irqEn, cmdPtr := p, result0 := r0, result1 := r1, errAddr := ea, cmdCount := n, d := d
      draws := k, host := l, hostData := w, runReads := rr, runWrites := rw, runDests := rd, hostWrote := hw
      affected := a, unseen := u } : State).Inv :=
  ⟨h.busyAlone, h.oneOutcome, h.quiet, h.named, hwf, hinside, h.blockParam, h.bufParam, h.running⟩

theorem State.Inv.fail (hb : s.busy = true) (e : Err) (op : Byte) : (s.fail e op).Inv := by
  have hdone : s.done = false := (h.busyAlone hb).1
  refine ⟨?_, ?_, ?_, fun _ => code_mem_errorCodes e, h.canonical, h.bounded, h.blockParam, h.bufParam, ?_⟩ <;>
    simp [hdone]

theorem State.Inv.haltFlags (hb : s.busy = true) : s.haltFlags.Inv := by
  have herr : s.err = false := (h.busyAlone hb).2
  refine ⟨?_, ?_, h.quiet, h.named, h.canonical, h.bounded, h.blockParam, h.bufParam, ?_⟩ <;>
    simp [herr]

theorem State.Inv.startRun : s.startRun.Inv := by
  refine ⟨?_, ?_, ?_, ?_, h.canonical, h.bounded, h.blockParam, h.bufParam, ?_⟩ <;> simp

theorem State.Inv.resetRegisters : s.resetRegisters.Inv := by
  refine ⟨?_, ?_, ?_, ?_, h.canonical, h.bounded, h.blockParam, h.bufParam, ?_⟩ <;> simp

theorem State.Inv.hardReset : s.hardReset.Inv := by
  obtain ⟨m, k, w, hreset, hwf, hinside, -⟩ := hardReset_cases s
  rw [hreset]
  exact (h.update (hwf h.canonical) (hinside h.bounded) ..).resetRegisters

theorem State.Inv.softReset : s.softReset.Inv := by
  obtain ⟨m, k, w, hreset, hwf, hinside, -⟩ := softReset_cases s
  rw [hreset]
  exact (h.update (hwf h.canonical) (hinside h.bounded) ..).resetRegisters

/-- Clearing flags clears their codes with them (R25). -/
theorem State.Inv.writeStatus (v : Word) (hb : s.busy = false) : (s.writeStatus v).Inv := by
  rw [writeStatus_of_idle v hb]
  generalize v.getLsbD 1 = clearDone, v.getLsbD 2 = clearErr
  refine ⟨fun hrun => ?_, fun hboth => h.oneOutcome ?_, fun herr => ?_, fun herr => ?_, h.canonical, h.bounded,
    h.blockParam, h.bufParam, h.running⟩
  · simp [hb] at hrun
  · simp only [Bool.and_eq_true] at hboth
    exact ⟨hboth.1.1, hboth.2.1⟩
  · cases clearErr
    · exact h.quiet (by simpa using herr)
    · exact ⟨rfl, rfl⟩
  · cases clearErr
    · exact h.named (by simpa using herr)
    · simp at herr

/-- The host sees the end of a run only once it has ended. -/
theorem State.Inv.observed {b : Bool} (hb : s.busy = true → b = false) (w : Word) :
    ({ s with hostData := w, synced := s.synced || b } : State).Inv := by
  refine ⟨h.busyAlone, h.oneOutcome, h.quiet, h.named, h.canonical, h.bounded, h.blockParam, h.bufParam,
    fun hrun => ?_⟩
  rw [h.running hrun, hb hrun]
  rfl

theorem State.Inv.writeReg (o : Nat) (v : Word) : (s.writeReg o v).Inv := by
  obtain ⟨-, -, hw⟩ | ⟨-, hw⟩ | ⟨b, hw⟩ | ⟨hb, hw⟩ | ⟨-, hw⟩ := s.writeReg_cases o v <;> rw [hw]
  · exact h.softReset
  · exact (h.update h.canonical h.bounded ..).startRun
  · exact h.update h.canonical h.bounded ..
  · rw [← writeStatus_of_idle v hb]
    exact h.writeStatus v hb
  · exact h.update h.canonical h.bounded ..

theorem State.Inv.exec {i : Instr} {t : State} (hb : s.busy = true) (hexec : exec i s = .next t) : t.Inv := by
  obtain ⟨-, rfl⟩ | ⟨-, rfl⟩ | ⟨a, -, rfl⟩ | ⟨x, hx, rfl⟩ | ⟨e, -, rfl⟩ | ⟨w, -, rfl⟩ | ⟨e, -, rfl⟩ :=
    exec_cases i s t hexec
  case inr.inl => exact (h.update h.canonical h.bounded ..).haltFlags hb
  case inr.inr.inr.inl =>
    obtain ⟨hfits, hinside⟩ := dataResult_fits i s x hx
    exact h.update (write_wf _ _ _ h.canonical)
      (write_keeps_inside _ _ _ _ h.bounded (.inl (by omega))) ..
  case inr.inr.inr.inr.inl =>
    exact (h.update (scramble_keeps_wf s _ h.canonical) (scramble_keeps_inside s _ h.bounded) ..).fail hb e i.opcode
  case inr.inr.inr.inr.inr.inr => exact h.fail hb e i.opcode
  all_goals exact h.update h.canonical h.bounded ..

theorem State.Inv.openCycle (hb : s.busy = true) : s.openCycle.Inv := by
  obtain ⟨m, k, desc, p, n, r0, r1, hcycle, hwf, hinside, -⟩ := openCycle_cases s
  have hopen := h.update (hwf h.canonical) (hinside h.bounded) s.irqEn p r0 r1 s.errAddr n s.hostData desc k s.host
    s.runReads s.runWrites s.openRegions s.unseen s.hostWrote true
  obtain hcycle | hcycle | ⟨e, op, hcycle⟩ := hcycle <;> rw [hcycle]
  · exact hopen
  · exact hopen.haltFlags hb
  · exact hopen.fail hb e op

theorem State.Inv.engineTurn {t : State} (hturn : engineTurn s = .next t) : t.Inv := by
  obtain ⟨-, rfl⟩ | ⟨hb, -, rfl⟩ | ⟨hb, -, ⟨-, rfl⟩ | ⟨-, e, -, rfl⟩ | ⟨-, i, -, hi⟩⟩ := engineTurn_cases s t hturn
  · exact h
  · exact h.openCycle hb
  · exact h.fail hb _ _
  · exact State.Inv.fail (s := s.latch) (h.update h.canonical h.bounded ..) hb _ _
  · exact State.Inv.exec (s := (s.noteRun i).latch) (h.update h.canonical h.bounded ..) hb hi

theorem State.Inv.hostTurn {a : HostAction} {t : State} (hturn : hostTurn a s = .next t) : t.Inv := by
  obtain ⟨-, he⟩ | ⟨o, v, -, -, -, rfl⟩ | ⟨o, -, -, -, rfl⟩ |
    ⟨x, bs, -, hin, hwrite⟩ | ⟨x, -, -, hread⟩ | ⟨-, rfl⟩ | ⟨-, rfl⟩ := hostTurn_cases a s t hturn
  · exact h.engineTurn he
  · exact h.writeReg o v
  · exact h.observed (fun hb => by simp [hb]) _
  · have hwf := write_wf s.mem x bs h.canonical
    have hinside := write_keeps_inside s.mem x s.size bs h.bounded (.inl hin)
    obtain ⟨-, -, rfl⟩ | ⟨-, -, rfl⟩ | ⟨-, rfl⟩ := hwrite <;> exact h.update hwf hinside ..
  · obtain ⟨-, rfl⟩ | ⟨-, rfl⟩ := hread <;> exact h.update h.canonical h.bounded ..
  · exact h.observed (fun hb => by simp [State.irq, h.busyAlone hb]) _
  · exact h.hardReset

end

end Sys2Proof.Machine

namespace Sys2Proof.Proofs

open Sys2Proof.Machine Sys2Proof.Claims

/-- Settles O11: the engine's turn and each action of the host keep the invariant. -/
theorem stepKeepsTheInvariant : Obligations.StepKeepsTheInvariant := by
  intro s t h hstep
  obtain ⟨-, he⟩ | ⟨a, rest, -, ha⟩ := step_cases s t hstep
  · exact h.engineTurn he
  · exact State.Inv.hostTurn (s := { s with host := rest }) (h.update h.canonical h.bounded ..) ha

/-- Settles O13: no register write, no command and no reset reaches the parameters. -/
theorem parametersNeverChange : Obligations.ParametersNeverChange := by
  intro s t hstep
  obtain ⟨-, he⟩ | ⟨a, rest, -, ha⟩ := step_cases s t hstep
  · exact engineTurn_keeps_parameters he
  · exact hostTurn_keeps_parameters (s := { s with host := rest }) ha

/-- Settles O14: the engine writes ERR_ADDR on the trap path, and the host by a reset. -/
theorem errAddrChangesOnlyByErrorOrReset : Obligations.ErrAddrChangesOnlyByErrorOrReset := by
  intro s t hstep
  obtain ⟨-, he⟩ | ⟨a, rest, hhost, ha⟩ := step_cases s t hstep
  · exact (engineTurn_errAddr he).imp_right .inl
  · obtain hkeeps | ⟨hzero, rfl | ⟨v, rfl, hreset⟩⟩ := hostTurn_errAddr ha
    · exact hkeeps.imp_right .inl
    · exact .inr (.inr ⟨hzero, .inl ⟨rest, hhost⟩⟩)
    · exact .inr (.inr ⟨hzero, .inr ⟨v, ⟨rest, hhost⟩, hreset⟩⟩)

/-- Settles O8: an idle engine's turn does nothing, and each way a running one stops is one of the list. -/
theorem runEndsOnlyAsSpecified : Obligations.RunEndsOnlyAsSpecified := by
  refine ⟨fun s hidle hmoves => ?_, fun s t hb hstep hidle => ?_⟩
  · rw [step_of_engineMoves hmoves, engineTurn, affectedRun_host, hmoves.2, if_neg Bool.false_ne_true, if_neg]
    simp [hidle]
  · obtain ⟨-, he⟩ | ⟨a, rest, hhost, ha⟩ := step_cases s t hstep
    · exact (engineTurn_ends hb he hidle).imp_right .inl
    · obtain hends | ⟨v, rfl, hreset⟩ | rfl := hostTurn_ends (s := { s with host := rest }) hb ha hidle
      · exact hends.imp_right .inl
      · exact .inr (.inr (.inl ⟨v, ⟨rest, hhost⟩, hreset⟩))
      · exact .inr (.inr (.inr ⟨rest, hhost⟩))

end Sys2Proof.Proofs
end

section
/-! SUPPORT. A JUMP to itself step by step (40_sequencer.md R142), STATUS as a number (10_state.md R25), which bytes a
reset leaves open (70_reset_and_hazards.md R340, R341), and the statements about them. -/

namespace Sys2Proof.Machine

open Sys2Proof.Claims

/-! ### A JUMP to itself -/

/-- After a JUMP to itself the machine is where it was, but for CMD_COUNT and the record of the run. -/
theorem step_of_jumpToItself {s : State} (hb : s.busy = true) (hsilent : HostSilent s)
    (hjump : CommandAt s (.jump s.cmdPtr)) :
    ∃ t, step s = .next t ∧ t.busy = true ∧ HostSilent t ∧ CommandAt t (.jump t.cmdPtr) ∧ t.err = s.err ∧
      t.done = s.done ∧ t.cmdPtr = s.cmdPtr ∧ t.cmdCount = s.cmdCount + 1 ∧ t.mem = s.mem := by
  have hstep := step_of_commandAt hb (engineMoves_of_silent hsilent) hjump
  obtain ⟨hhost, hrun⟩ := hsilent
  exact ⟨_, hstep, hb, ⟨fun a ha => hhost a (List.mem_of_mem_tail ha), hrun⟩, hjump, rfl, rfl, rfl, rfl, rfl⟩

/-! ### STATUS -/

theorem toNat_append {n k : Nat} (x : BitVec n) (y : BitVec k) : (x ++ y).toNat = x.toNat * 2 ^ k + y.toNat := by
  rw [BitVec.toNat_append, ← Nat.shiftLeft_add_eq_or_of_lt y.isLt, Nat.shiftLeft_eq]

theorem State.statusWord_toNat (s : State) :
    s.statusWord.toNat = s.busy.toNat + 2 * s.done.toNat + 4 * s.err.toNat + 2 ^ 8 * s.errCode.toNat +
      2 ^ 16 * s.errOp.toNat := by
  simp only [statusWord, toNat_append, BitVec.toNat_ofBool, BitVec.ofNat_eq_ofNat, BitVec.toNat_ofNat]
  omega

theorem sameMachine_host (s : State) (l : List HostAction) : SameMachine { s with host := l } s :=
  ⟨rfl, rfl, rfl, rfl, rfl, rfl, rfl, rfl, rfl, rfl, rfl, rfl, rfl, rfl, fun _ => rfl⟩

/-! ### Regions -/

theorem has_iff (r : Region) (x : Nat) : r.has x = true ↔ Within r.addr r.len x := by
  simp [Region.has, Within]

theorem covers_iff (rs : List Region) (x : Nat) : covers rs x = true ↔ InOne rs x := by
  simp only [covers, List.any_eq_true, has_iff]
  rfl

theorem covers_eq_false {rs : List Region} {x : Nat} (h : ¬InOne rs x) : covers rs x = false :=
  Bool.eq_false_iff.mpr fun hc => h ((covers_iff rs x).mp hc)

theorem running_eq_some_iff (s : State) (i : Instr) : s.running = some i ↔ s.busy = true ∧ CommandAt s i := by
  rw [commandAt_iff, State.running]
  cases s.busy
  · simp
  · cases s.fetchable
    · simp
    · cases decodeDesc s.fetchDesc <;> simp

theorem runningDst_eq (s : State) {i : Instr} (h : s.running = some i) : s.runningDst = destination i := by
  rw [State.runningDst, h]

/-- The destination of the running command covers only bytes of its destination region. -/
theorem runningDst_has_eq_false {s : State} {x : Nat}
    (h : ∀ i, s.busy = true → CommandAt s i → ¬Within (dstAddr i) (dstCap i) x) : s.runningDst.has x = false := by
  cases hrun : s.running with
  | none =>
    rw [State.runningDst, hrun]
    simp [Region.has]
  | some i =>
    obtain ⟨hb, hi⟩ := (running_eq_some_iff s i).mp hrun
    rw [runningDst_eq s hrun, destination_eq]
    exact has_eq_false_of_not_within (h i hb hi)

end Sys2Proof.Machine

namespace Sys2Proof.Proofs

open Sys2Proof.Machine Sys2Proof.Claims

/-- Settles O10: each step meets the hypotheses again, one CMD_COUNT later. -/
theorem jumpToItselfNeverEnds : Obligations.JumpToItselfNeverEnds := by
  intro s n
  induction n generalizing s with
  | zero => exact fun hb _ _ => ⟨s, rfl, hb, rfl, rfl, rfl, by simp, rfl⟩
  | succ n ih =>
    intro hb hsilent hjump
    obtain ⟨t, hstep, hb', hsilent', hjump', herr, hdone, hptr, hcount, hmem⟩ :=
      step_of_jumpToItself hb hsilent hjump
    obtain ⟨u, hafter, hbu, herru, hdoneu, hptru, hcountu, hmemu⟩ := ih t hb' hsilent' hjump'
    refine ⟨u, (after_succ n hstep).trans hafter, hbu, herru.trans herr, hdoneu.trans hdone, hptru.trans hptr, ?_,
      hmemu.trans hmem⟩
    rw [hcountu, hcount, BitVec.add_assoc, BitVec.add_comm 1, BitVec.ofNat_add]
    rfl

/-- Settles O52: STATUS as a sum of its fields, and the write in each state of BUSY. -/
theorem statusReadsAndClears : Obligations.StatusReadsAndClears := by
  refine ⟨fun s hread => ?_, fun s v hwrite => ?_⟩
  · obtain ⟨t, hstep, hsame, hdata⟩ := step_readReg (by decide) (by decide) hread
    exact ⟨t, hstep, hsame, by rw [hdata, State.readReg_status, State.statusWord_toNat]⟩
  · obtain ⟨rest, hstep⟩ := step_writeReg (by decide) (by decide) hwrite
    refine ⟨_, hstep, fun hb => ?_, fun hb => ?_⟩
    · rw [show ({ s with host := rest } : State).writeReg 0x08 v = { s with host := rest } from
        State.writeStatus_of_busy v hb]
      exact sameMachine_host s rest
    · rw [show ({ s with host := rest } : State).writeReg 0x08 v = _ from State.writeStatus_of_idle v hb]
      exact ⟨rfl, rfl, rfl, rfl, rfl, rfl, rfl, rfl, rfl, rfl, rfl, rfl, rfl, rfl, fun _ => rfl⟩

/-- Settles O54: the two writes in each state of BUSY. -/
theorem cmdPtrAndIrqEnableWrites : Obligations.CmdPtrAndIrqEnableWrites := by
  refine ⟨fun s v hwrite => ?_, fun s v hwrite hstart hreset => ?_⟩
  · obtain ⟨rest, hstep⟩ := step_writeReg (by decide) (by decide) hwrite
    refine ⟨_, hstep, fun hb => ?_, fun hb => ?_⟩
    · rw [show ({ s with host := rest } : State).writeReg 0x0C v = _ from State.writeCmdPtr_of_idle v hb]
      exact sameMachine_host { s with cmdPtr := v } rest
    · rw [show ({ s with host := rest } : State).writeReg 0x0C v = _ from State.writeCmdPtr_of_busy v hb]
      exact sameMachine_host s rest
  · obtain ⟨rest, hstep⟩ := step_writeReg (by decide) (by decide) hwrite
    refine ⟨_, hstep, ?_⟩
    rw [State.writeReg_irqEn _ hstart hreset]
    exact sameMachine_host { s with irqEn := v.getLsbD 2 } rest

/-- Settles O56: the registers are set one by one, and memory is left open in the running command's destination and in
those of an affected run. -/
theorem softResetResetsEveryRegister : Obligations.SoftResetResetsEveryRegister := by
  intro s v hwrite hreset
  obtain ⟨rest, hstep⟩ := step_writeReg (by decide) (by decide) hwrite
  rw [State.writeReg_softReset _ hreset] at hstep
  obtain ⟨m, k, w, hsoft, -, -, hbytes⟩ := softReset_cases { s with host := rest }
  rw [hsoft] at hstep
  refine ⟨_, hstep, ⟨rfl, rfl, rfl, rfl, rfl, rfl, rfl, rfl, rfl, rfl, rfl⟩, rfl, rfl, fun x hdst hopen => ?_⟩
  exact hbytes x (fun ha => covers_eq_false (hopen ha)) (runningDst_has_eq_false hdst)

/-- Settles O57: as for the soft reset, but the running command's destination keeps its bytes. -/
theorem hardwareResetResetsEveryRegister : Obligations.HardwareResetResetsEveryRegister := by
  intro s hdoes
  obtain ⟨rest, hstep⟩ := step_of_hostDoes hdoes
  obtain ⟨m, k, w, hhard, -, -, hmem, hbytes⟩ := hardReset_cases { s with host := rest }
  rw [hostTurn, hostReset, hhard] at hstep
  exact ⟨_, hstep, ⟨rfl, rfl, rfl, rfl, rfl, rfl, rfl, rfl, rfl, rfl, rfl⟩, rfl, rfl, rfl, hmem,
    fun x hopen => hbytes x fun _ => covers_eq_false hopen⟩

end Sys2Proof.Proofs
end

section
/-! SUPPORT. The host's accesses to buffer memory (20_memory.md R60, R75, R76), which bytes it may rely on, and the
record of what it has seen (70_reset_and_hazards.md R346, R347); and the statement about them. -/

namespace Sys2Proof.Machine

open Sys2Proof.Claims

/-! ### The host's turn at buffer memory -/

section
variable {s : State} {a : Nat}

theorem hostWriteBuf_of_idle {bs : List Byte} (hb : s.busy = false) (hin : a + bs.length ≤ s.size) :
    hostWriteBuf a bs s = .next { s with mem := s.mem.write a bs } := by
  rw [hostWriteBuf, if_neg (Nat.not_lt.mpr hin), if_neg (Bool.eq_false_iff.mp hb)]

theorem hostWriteBuf_of_busy {bs : List Byte} (hb : s.busy = true) (hin : a + bs.length ≤ s.size) :
    hostWriteBuf a bs s = .next (if (s.writeDuringRun a bs).affectedRun then (s.writeDuringRun a bs).openResults
      else s.writeDuringRun a bs) := by
  rw [hostWriteBuf, if_neg (Nat.not_lt.mpr hin), if_pos hb]

theorem hostReadBuf_of_settled (hu : s.unsettled a = false) (hin : a < s.size) :
    hostReadBuf a s = .next { s with hostData := (s.mem.byte a).setWidth 32 } := by
  rw [hostReadBuf, if_neg (Nat.not_le.mpr hin), if_neg (Bool.eq_false_iff.mp hu)]

theorem hostReadBuf_of_unsettled (hu : s.unsettled a = true) (hin : a < s.size) :
    hostReadBuf a s =
      .next { s with hostData := (Config.freeByte s.draws).setWidth 32, draws := s.draws + 1 } := by
  rw [hostReadBuf, if_neg (Nat.not_le.mpr hin), if_pos hu]

end

theorem step_readBuf_outside {s : State} {a : Nat} (h : HostDoes s (.readBuf a)) (hout : s.bufSize.toNat ≤ a) :
    step s = .fault .hostOutsideBuffer := by
  obtain ⟨rest, hstep⟩ := step_of_hostDoes h
  rw [hstep]
  exact if_pos hout

theorem step_writeBuf_outside {s : State} {a : Nat} {bs : List Byte} (h : HostDoes s (.writeBuf a bs))
    (hout : s.bufSize.toNat < a + bs.length) : step s = .fault .hostOutsideBuffer := by
  obtain ⟨rest, hstep⟩ := step_of_hostDoes h
  rw [hstep]
  exact if_pos hout

/-! ### Bytes the host may rely on -/

theorem inOne_cons {r : Region} {rs : List Region} {x : Nat} :
    InOne (r :: rs) x ↔ Within r.addr r.len x ∨ InOne rs x := by
  simp [InOne]

theorem inOne_append {rs qs : List Region} {x : Nat} : InOne (rs ++ qs) x ↔ InOne rs x ∨ InOne qs x := by
  simp only [InOne, List.mem_append, or_and_right, exists_or]

theorem not_inOne_nil {x : Nat} : ¬InOne [] x := by simp [InOne]

/-- A byte is unsettled when the host has not seen the end of the run and it lies in one of the destinations. -/
theorem unsettled_iff (s : State) (x : Nat) :
    s.unsettled x = true ↔ s.synced = false ∧
      (Within s.possibleDst.addr s.possibleDst.len x ∨ InOne s.runDests x ∨ InOne s.unseen x) := by
  rw [State.unsettled, Bool.and_eq_true, Bool.not_eq_true', covers_iff, State.openRegions, inOne_append, inOne_cons,
    or_assoc]

theorem unsettled_of_synced {s : State} (h : s.synced = true) (x : Nat) : s.unsettled x = false := by
  rw [State.unsettled, h]
  rfl

/-- An idle engine has no running command, so no destination of one. -/
theorem possibleDst_of_idle {s : State} (hb : s.busy = false) : s.possibleDst = ⟨0, 0⟩ := by
  simp [State.possibleDst, State.descriptorRaced, State.runningDst, State.running, hb]

theorem possibleDst_of_descriptorRaced {s : State} (h : s.descriptorRaced = true) :
    s.possibleDst = ⟨0, s.bufSize.toNat⟩ := if_pos h

theorem possibleDst_of_commandAt {s : State} {i : Instr} (hb : s.busy = true) (hi : CommandAt s i)
    (h : s.descriptorRaced = false) : s.possibleDst = destination i := by
  rw [State.possibleDst, h, if_neg Bool.false_ne_true]
  exact runningDst_eq s ((running_eq_some_iff s i).mpr ⟨hb, hi⟩)

theorem within_buffer {n x : Nat} (h : x < n) : Within (⟨0, n⟩ : Region).addr (⟨0, n⟩ : Region).len x :=
  ⟨x.zero_le, (Nat.zero_add n).symm ▸ h⟩

theorem unsettled_iff_of_idle {s : State} (hb : s.busy = false) (x : Nat) :
    s.unsettled x = true ↔ s.synced = false ∧ (InOne s.runDests x ∨ InOne s.unseen x) := by
  have hnone : ¬Within 0 0 x := fun h => Nat.not_lt_zero x h.2
  rw [unsettled_iff, possibleDst_of_idle hb, or_iff_right hnone]

theorem mem_addressesFrom {a k x : Nat} : x ∈ addressesFrom a k ↔ Within a k x := by
  induction k generalizing a with
  | zero =>
    simp only [addressesFrom, List.not_mem_nil, Within, false_iff]
    omega
  | succ k ih =>
    simp only [addressesFrom, List.mem_cons, ih, Within]
    omega

/-- A write that leaves the running command's descriptor alone leaves it as it is. -/
theorem running_writeDuringRun {s : State} {a : Nat} {bs : List Byte}
    (h : s.fetchable = true → ∀ x, Within a bs.length x → ¬Within s.cmdPtr.toNat 32 x) :
    (s.writeDuringRun a bs).running = s.running := by
  cases hf : s.fetchable with
  | false =>
    have hf' : (s.writeDuringRun a bs).fetchable = false := hf
    simp [State.running, hf, hf']
  | true =>
    have hfetch : (s.writeDuringRun a bs).fetchDesc = s.fetchDesc := by
      refine congrArg Desc.ofBytes (read_congr _ _ _ _ fun x hlow hhigh => ?_)
      exact byte_write_of_not_within fun hx => h hf x hx ⟨hlow, hhigh⟩
    rw [State.running, hfetch]
    rfl

theorem descriptorRaced_iff (s : State) :
    s.descriptorRaced = true ↔
      s.busy = true ∧ s.fetchable = true ∧ ∃ x, x ∈ s.hostWrote ∧ Within s.cmdPtr.toNat 32 x := by
  rw [State.descriptorRaced, Bool.and_eq_true, Bool.and_eq_true, List.any_eq_true, and_assoc]
  simp only [has_iff]
  rfl

/-- A host write during a run either hits the running command's descriptor, and then its destination may be anywhere, or
leaves its destination as it was. -/
theorem possibleDst_writeDuringRun {s : State} (hb : s.busy = true) (a : Nat) (bs : List Byte) :
    (s.writeDuringRun a bs).possibleDst = ⟨0, s.bufSize.toNat⟩ ∨
      (s.writeDuringRun a bs).possibleDst = s.possibleDst := by
  cases hraced : (s.writeDuringRun a bs).descriptorRaced with
  | true => exact .inl (possibleDst_of_descriptorRaced hraced)
  | false =>
    have hnot : ¬(s.writeDuringRun a bs).descriptorRaced = true := Bool.eq_false_iff.mp hraced
    rw [descriptorRaced_iff] at hnot
    have hbefore : s.descriptorRaced = false := by
      refine Bool.eq_false_iff.mpr fun h => hnot ?_
      obtain ⟨hb, hf, x, hx, hin⟩ := (descriptorRaced_iff s).mp h
      exact ⟨hb, hf, x, List.mem_append_right _ hx, hin⟩
    have hrunning : (s.writeDuringRun a bs).running = s.running := running_writeDuringRun fun hf x hx hin =>
      hnot ⟨hb, hf, x, List.mem_append_left _ (mem_addressesFrom.mpr hx), hin⟩
    right
    rw [State.possibleDst, State.possibleDst, hraced, hbefore, State.runningDst, State.runningDst, hrunning]
    rfl

/-- A host write settles no byte. -/
theorem unsettled_writeDuringRun {s : State} (hb : s.busy = true) (a : Nat) (bs : List Byte) {x : Nat}
    (hin : x < s.bufSize.toNat) (h : s.unsettled x = true) : (s.writeDuringRun a bs).unsettled x = true := by
  obtain ⟨hsynced, hx⟩ := (unsettled_iff s x).mp h
  refine (unsettled_iff _ x).mpr ⟨hsynced, ?_⟩
  obtain hany | hsame := possibleDst_writeDuringRun hb a bs
  · rw [hany]
    exact .inl (within_buffer hin)
  · rwa [hsame]

/-- A START makes the destinations of the run before it unseen (R75); it does nothing during a run. -/
theorem unsettled_start {s : State} {x : Nat} (h : s.unsettled x = true) : s.start.unsettled x = true := by
  obtain hb | hb := s.busy.eq_false_or_eq_true
  · rwa [State.start_of_busy s hb]
  · obtain ⟨hsynced, hdests⟩ := (unsettled_iff_of_idle hb x).mp h
    rw [State.start_of_idle s hb]
    refine (unsettled_iff _ x).mpr ⟨rfl, .inr (.inr ?_)⟩
    rw [show s.startRun.unseen = s.runDests ++ s.unseen by simp [hsynced]]
    exact inOne_append.mpr hdests

/-! ### What the host has seen -/

theorem exec_keeps_synced {i : Instr} {s t : State} (h : exec i s = .next t) : t.synced = s.synced := by
  obtain ⟨-, rfl⟩ | ⟨-, rfl⟩ | ⟨a, -, rfl⟩ | ⟨x, -, rfl⟩ | ⟨e, -, rfl⟩ | ⟨w, -, rfl⟩ | ⟨e, -, rfl⟩ :=
    exec_cases i s t h <;> rfl

theorem engineTurn_keeps_synced {s t : State} (h : engineTurn s = .next t) : t.synced = s.synced := by
  obtain ⟨-, rfl⟩ | ⟨-, -, rfl⟩ | ⟨-, -, ⟨-, rfl⟩ | ⟨-, e, -, rfl⟩ | ⟨-, i, -, hi⟩⟩ := engineTurn_cases s t h
  case inr.inl =>
    obtain ⟨m, k, desc, p, n, r0, r1, hcycle | hcycle | ⟨e, op, hcycle⟩, -⟩ := openCycle_cases s <;> rw [hcycle] <;> rfl
  case inr.inr.inr.inr => exact exec_keeps_synced (s := (s.noteRun i).latch) hi
  all_goals rfl

theorem writeReg_synced {s : State} (o : Nat) (v : Word) (h : s.synced = false) :
    (s.writeReg o v).synced = false := by
  obtain ⟨-, -, hw⟩ | ⟨-, hw⟩ | ⟨b, hw⟩ | ⟨-, hw⟩ | ⟨-, hw⟩ := s.writeReg_cases o v <;> rw [hw]
  case inl =>
    obtain ⟨m, k, w, hreset, -⟩ := softReset_cases s
    rw [hreset]
    exact h
  case inr.inl => rfl
  all_goals exact h

/-- The host sees the end of a run by a read of STATUS with BUSY = 0 or by an interrupt (R75). -/
theorem hostTurn_synced {a : HostAction} {s t : State} (hs : s.synced = false) (h : hostTurn a s = .next t)
    (ht : t.synced = true) : a = .readReg 0x08 4 ∧ s.busy = false ∨ a = .sampleIrq ∧ s.irq = true := by
  obtain ⟨-, he⟩ | ⟨o, v, -, -, -, rfl⟩ | ⟨o, rfl, -, -, rfl⟩ |
    ⟨x, bs, -, -, hwrite⟩ | ⟨x, -, -, hread⟩ | ⟨rfl, rfl⟩ | ⟨-, rfl⟩ := hostTurn_cases a s t h
  · simp [engineTurn_keeps_synced he, hs] at ht
  · simp [writeReg_synced o v hs] at ht
  · left
    simpa [State.observe, hs] using ht
  · obtain ⟨-, -, rfl⟩ | ⟨-, -, rfl⟩ | ⟨-, rfl⟩ := hwrite <;> simp [hs] at ht
  · obtain ⟨-, rfl⟩ | ⟨-, rfl⟩ := hread <;> simp [hs] at ht
  · right
    simpa [hs] using ht
  · obtain ⟨m, k, w, hreset, -⟩ := hardReset_cases s
    simp [hreset, hs] at ht

theorem step_readStatus_idle {s : State} (h : HostDoes s (.readReg 0x08 4)) (hb : s.busy = false) :
    ∃ rest w, step s = .next { s with host := rest, hostData := w, synced := true } := by
  obtain ⟨rest, hstep⟩ := step_of_hostDoes h
  refine ⟨rest, s.statusWord, ?_⟩
  have hsees : ({ s with host := rest } : State).observe 0x08 = true := by simp [State.observe, hb]
  rw [hstep, hostTurn, hostReadReg, accessRefusal_aligned (by decide) (by decide), hsees]
  rfl

theorem step_sampleIrq_raised {s : State} (h : HostDoes s .sampleIrq) (hirq : s.irq = true) :
    ∃ rest w, step s = .next { s with host := rest, hostData := w, synced := true } := by
  obtain ⟨rest, hstep⟩ := step_of_hostDoes h
  refine ⟨rest, (BitVec.ofBool s.irq).setWidth 32, ?_⟩
  rw [hstep, hostTurn, hostSampleIrq, show ({ s with host := rest } : State).irq = true from hirq, hirq, Bool.or_true]

end Sys2Proof.Machine

namespace Sys2Proof.Proofs

open Sys2Proof.Machine Sys2Proof.Claims

/-- Settles O59: each action of the host at memory in each state of the record; what is not settled is told by
`unsettled_iff`. -/
theorem idleHostMemoryAccess : Obligations.IdleHostMemoryAccess := by
  refine ⟨fun s a bs hwrite hb hin => ?_, fun s a hread hsettled hin => ?_, fun s v a hwrite hstart hreset h => ?_,
    fun s a bs x hwrite hin hx h => ?_, fun s i x hsynced hx hdst => ?_, fun s hsees => ?_,
    fun s t hs hstep ht => ?_, fun s a hread h hin => ?_, fun s a => step_readBuf_outside,
    fun s a bs => step_writeBuf_outside⟩
  · obtain ⟨rest, hstep⟩ := step_of_hostDoes hwrite
    exact ⟨_, hstep.trans (hostWriteBuf_of_idle hb hin), sameMachine_host { s with mem := s.mem.write a bs } rest,
      stored_write ..⟩
  · obtain ⟨rest, hstep⟩ := step_of_hostDoes hread
    have hu : s.unsettled a = false := hsettled.elim (fun h => unsettled_of_synced h a) id
    exact ⟨_, hstep.trans (hostReadBuf_of_settled hu hin), sameMachine_of_hostRecord ..,
      BitVec.toNat_setWidth_of_le (by decide)⟩
  · obtain ⟨rest, hstep⟩ := step_of_start hwrite hstart hreset
    exact ⟨_, hstep, unsettled_start (s := { s with host := rest, irqEn := v.getLsbD 2 }) h⟩
  · obtain ⟨rest, hstep⟩ := step_of_hostDoes hwrite
    obtain hb | hb := s.busy.eq_false_or_eq_true
    · refine ⟨_, hstep.trans (hostWriteBuf_of_busy hb hin), ?_⟩
      have := unsettled_writeDuringRun (s := { s with host := rest }) hb a bs hx h
      split <;> exact this
    · exact ⟨_, hstep.trans (hostWriteBuf_of_idle hb hin),
        (unsettled_iff_of_idle (s := { s with host := rest, mem := s.mem.write a bs }) hb x).mpr
          ((unsettled_iff_of_idle hb x).mp h)⟩
  · refine (unsettled_iff s x).mpr ⟨hsynced, ?_⟩
    obtain ⟨hb, hi, hdst⟩ | hrun := hdst
    · cases hraced : s.descriptorRaced
      · rw [possibleDst_of_commandAt hb hi hraced, destination_eq]
        exact .inl hdst
      · rw [possibleDst_of_descriptorRaced hraced]
        exact .inl (within_buffer hx)
    · exact .inr (.inl hrun)
  · have hstep : ∃ rest w, step s = .next { s with host := rest, hostData := w, synced := true } :=
      hsees.elim (fun h => step_readStatus_idle h.1 h.2) fun h => step_sampleIrq_raised h.1 h.2
    obtain ⟨rest, w, hstep⟩ := hstep
    exact ⟨_, hstep, sameMachine_of_hostRecord .., rfl, unsettled_of_synced rfl⟩
  · obtain ⟨-, he⟩ | ⟨a, rest, hhost, ha⟩ := step_cases s t hstep
    · rw [engineTurn_keeps_synced he, hs] at ht
      cases ht
    · exact (hostTurn_synced (s := { s with host := rest }) hs ha ht).imp
        (fun ⟨h, hb⟩ => ⟨⟨rest, h ▸ hhost⟩, hb⟩) fun ⟨h, hirq⟩ => ⟨⟨rest, h ▸ hhost⟩, hirq⟩
  · obtain ⟨rest, hstep⟩ := step_of_hostDoes hread
    exact ⟨_, hstep.trans (hostReadBuf_of_unsettled h hin),
      ⟨rfl, rfl, rfl, rfl, rfl, rfl, rfl, rfl, rfl, rfl, rfl, rfl, rfl, rfl, fun _ => rfl⟩, rfl⟩

end Sys2Proof.Proofs
end

section
/-! SUPPORT. A run that a host write affects (70_reset_and_hazards.md R345): the write, when it touches what the running
command reads or writes, and what the cycle of such a run leaves alone; and the statement about it. -/

namespace Sys2Proof.Machine

open Sys2Proof.Claims

/-! ### A host write during a run -/

theorem mem_hostWrote_writeDuringRun (s : State) (a : Nat) (bs : List Byte) (x : Nat) :
    x ∈ (s.writeDuringRun a bs).hostWrote ↔ Within a bs.length x ∨ x ∈ s.hostWrote := by
  rw [State.writeDuringRun_hostWrote, List.mem_append, mem_addressesFrom]

theorem affected_writeDuringRun (s : State) (a : Nat) (bs : List Byte) :
    (s.writeDuringRun a bs).affected = true ↔
      s.affected = true ∨ ∃ x, Within a bs.length x ∧ InOne (s.runReads ++ s.runWrites) x := by
  simp only [State.writeDuringRun_affected, Bool.or_eq_true, List.any_eq_true, mem_addressesFrom, covers_iff]

/-! ### The running command -/

theorem accepts_iff (s : State) (i : Instr) : s.accepts i = true ↔ firstError i s = none := by
  have hchecks : checksOf i { State.reset with caps := s.caps, bufSize := s.bufSize } = checksOf i s :=
    checksOf_congr rfl rfl
  rw [State.accepts, hchecks, ← checksOf_ok_iff]
  cases checksOf i s <;> simp [Except.isOk, Except.toBool]

/-- What the running command reads and writes besides its descriptor: nothing when a check fails. -/
theorem inOne_writtenBy_readBy (s : State) (i : Instr) (x : Nat) :
    InOne (s.writtenBy i :: s.readBy i) x ↔
      firstError i s = none ∧ (InOne (reads i) x ∨ Within (s.writtenBy i).addr (s.writtenBy i).len x) := by
  rw [inOne_cons, or_comm, State.readBy, ← accepts_iff]
  cases ha : s.accepts i with
  | true => simp
  | false =>
    have hwritten : (s.writtenBy i).len = 0 := by simp [State.writtenBy, ha]
    have hnone : ¬Within (s.writtenBy i).addr 0 x := fun h => Nat.not_lt.mpr h.1 h.2
    simp [hwritten, hnone, not_inOne_nil]

theorem runningRegions_of_commandAt {s : State} {i : Instr} (hb : s.busy = true) (hi : CommandAt s i) :
    s.runningRegions = s.fetchRegion :: s.writtenBy i :: s.readBy i := by
  have hrunning : s.running = some i := (running_eq_some_iff s i).mpr ⟨hb, hi⟩
  rw [State.runningRegions, hb, ((commandAt_iff s i).mp hi).1, hrunning]
  rfl

theorem raced_iff (s : State) : s.raced = true ↔ ∃ x, x ∈ s.hostWrote ∧ InOne s.runningRegions x := by
  simp only [State.raced, List.any_eq_true, covers_iff]

theorem affectedRun_iff_raced {s : State} (hb : s.busy = true) (ha : s.affected = false) :
    s.affectedRun = true ↔ s.raced = true := by
  rw [State.affectedRun, hb, ha, Bool.false_or, Bool.true_and]

/-! ### The cycle of an affected run -/

theorem step_of_affectedRun {s : State} (hhost : s.host = [] ∨ ∃ rest, s.host = .engineTurn :: rest)
    (ha : s.affectedRun = true) : step s = .next ({ s with host := s.host.tail } : State).openCycle := by
  have hturn (l : List HostAction) : engineTurn { s with host := l } = .next ({ s with host := l } : State).openCycle :=
    if_pos ha
  obtain hnil | ⟨rest, hcons⟩ := hhost
  · have hsame : { s with host := s.host.tail } = s := by rw [hnil, List.tail_nil, ← hnil]
    have hstep := hturn s.host.tail
    rw [hsame] at hstep ⊢
    rw [step, turn, hnil]
    exact hstep
  · rw [step, turn, hcons]
    exact hturn rest

end Sys2Proof.Machine

namespace Sys2Proof.Proofs

open Sys2Proof.Machine Sys2Proof.Claims

/-- Settles O60: the write is noted as it is done; a running command is hit in the regions the record takes it to read
and write; and the open cycle leaves the rest alone. -/
theorem racingHostWriteLeavesTheRunOpen : Obligations.RacingHostWriteLeavesTheRunOpen := by
  refine ⟨fun s a bs hwrite hb hin => ?_, fun s i hb ha hi => ?_, fun s hb hdone herr hhost ha => ?_⟩
  · obtain ⟨rest, hstep⟩ := step_of_hostDoes hwrite
    refine ⟨_, hstep.trans (hostWriteBuf_of_busy hb hin), ?_⟩
    have hstored : Stored s.mem (s.mem.write a bs) a bs := stored_write ..
    have hwrote := mem_hostWrote_writeDuringRun s a bs
    have haffected := affected_writeDuringRun s a bs
    split
    · next hopen =>
      exact ⟨hstored, ⟨rfl, rfl, rfl, rfl, rfl, rfl, rfl, rfl, rfl, rfl, rfl, rfl, rfl, rfl, fun _ => rfl⟩,
        fun hnot => absurd (hopen.symm.trans hnot) (by decide), hwrote, haffected⟩
    · exact ⟨hstored, ⟨rfl, rfl, rfl, rfl, rfl, rfl, rfl, rfl, rfl, rfl, rfl, rfl, rfl, rfl, fun _ => rfl⟩,
        fun _ => ⟨rfl, rfl⟩, hwrote, haffected⟩
  · rw [affectedRun_iff_raced hb ha, raced_iff]
    simp only [runningRegions_of_commandAt hb hi, inOne_cons (r := s.fetchRegion), inOne_writtenBy_readBy]
    rfl
  · have hstep := step_of_affectedRun hhost ha
    obtain ⟨m, k, desc, p, n, r0, r1, hcycle, -, -, hbytes⟩ := openCycle_cases { s with host := s.host.tail }
    obtain hcycle | hcycle | ⟨e, op, hcycle⟩ := hcycle <;> rw [hcycle] at hstep <;>
      refine ⟨_, hstep, rfl, rfl, rfl, ?_, fun x hx => hbytes x (covers_eq_false hx)⟩
    · exact .inl ⟨hb, hdone, herr⟩
    · exact .inr (.inl ⟨rfl, rfl, herr⟩)
    · exact .inr (.inr ⟨rfl, hdone, rfl, code_mem_errorCodes e, rfl⟩)

end Sys2Proof.Proofs
end
